-- ==== Sys2Proof/Word.lean ====
section
/-! DEFINITION. The words of the block: 32-bit words (00_scope.md R13) and bytes. -/

namespace Sys2Proof

/-- A 32-bit word: packet fields, counters, register values, command and response words (R13). -/
abbrev Word := BitVec 32

/-- A byte of an operand, a packet or a message. -/
abbrev Byte := BitVec 8

end Sys2Proof
end

