-- ==== Sys2Proof/Config.lean ====
section
/-! DEFINITION. What an implementation fixes: the parameters of 00_scope.md section 3. They are fixed before reset and no
command writes them (70_reset_and_hazards.md R262). -/

namespace Sys2Proof

/-- RTT, the duration of every timer start (00_scope.md R11, decision D30): OPEN, so an opaque constant with no value.
A duration is an uninterpreted token, coded by a natural number: no rule reads it. DESIGN CHOICE, safe: log entry 2. -/
opaque Config.rtt : Nat

/-- PAYLOAD_LEN, the length of a payload and of a message; fixed, not a parameter (R9). -/
abbrev Config.payloadLen : Nat := 20

/-- The implementation parameters (R7 to R12). State carries them, so that every statement about a state is a statement
for every choice of them. DESIGN CHOICE, safe: log entry 1. -/
structure Params where
  /-- WINDOWSIZE (R7). -/
  w : Nat
  /-- SEQSPACE (R8). -/
  s : Nat
  /-- NOTINUSE, the acknum of a data packet (R10). -/
  notInUse : Word
  /-- RTT, carried by every timer start (R11). -/
  rtt : Nat
  /-- ACK_FILL, every payload byte of an acknowledgment (R12). -/
  ackFill : Byte
  /-- ACKSEQ_RESET, the reset value of nextackseq (R12). -/
  ackSeqReset : BitVec 1
  /-- CHK_BYTE_SIGNED, whether payload bytes enter the checksum sign-extended (R12). -/
  chkByteSigned : Bool
  deriving DecidableEq, Repr

/-- The legal ranges (R7, R8, R10; decisions D5, D29). -/
abbrev Params.Legal (p : Params) : Prop :=
  1 ≤ p.w ∧ p.w ≤ 32 ∧ p.w + 1 ≤ p.s ∧ p.s ≤ 65536 ∧ (p.notInUse.toInt < 0 ∨ (p.s : Int) ≤ p.notInUse.toInt)

/-- The defaults of R7, R8, R10 and R12; RTT stays open (R11). -/
def Params.specDefault : Params where
  w := 6
  s := 7
  notInUse := 0xFFFFFFFF#32
  rtt := Config.rtt
  ackFill := 0x30#8
  ackSeqReset := 1#1
  chkByteSigned := false

end Sys2Proof
end

