-- ==== Sys2Proof/Syntax.lean ====
section
/-! DEFINITION. The commands of the block as syntax: packets, messages, command transactions and the nine commands of
spec/opcode_table.json. -/

namespace Sys2Proof

/-- A message, `M.byte[0..19]` (20_memory.md R63), also a payload. That it has 20 bytes is WellFormed's business. -/
abbrev Message := List Byte

/-- A packet's payload, 20 bytes. -/
abbrev Payload := List Byte

/-- A packet record (00_scope.md R17): three 32-bit fields and 20 payload bytes (20_memory.md R62). -/
structure Packet where
  seqnum : Word
  acknum : Word
  checksum : Word
  payload : Payload
  deriving DecidableEq, Repr

/-- One command transaction: a 32-bit command word CW and an operand byte string OPND (30_encoding.md R80). The operand
may have any length: a wrong one makes the command illegal (R87). -/
structure Command where
  cw : Word
  opnd : List Byte
  deriving DecidableEq, Repr

/-- The assigned opcodes (30_encoding.md R82). -/
inductive Opcode where
  | nop | aInit | aSubmit | aAckIn | aTimeout | bInit | bPktIn | chkEval | regRead
  deriving DecidableEq, Repr

/-- The commands, one constructor per row of spec/opcode_table.json. -/
inductive Instr where
  /-- NOP (R200). -/
  | nop
  /-- A_INIT (R130). -/
  | aInit
  /-- A_SUBMIT with its MSG operand (R131). -/
  | aSubmit (m : Message)
  /-- A_ACK_IN with its PKT operand (R132). -/
  | aAckIn (p : Packet)
  /-- A_TIMEOUT (R134). -/
  | aTimeout
  /-- B_INIT (R170). -/
  | bInit
  /-- B_PKT_IN with its PKT operand (R171). -/
  | bPktIn (p : Packet)
  /-- CHK_EVAL with its PKT operand (R114). -/
  | chkEval (p : Packet)
  /-- REG_READ with its 8-bit register index (R201). -/
  | regRead (idx : Byte)
  deriving DecidableEq, Repr

end Sys2Proof
end

