-- ==== Sys2Proof/WellFormed.lean ====
section
/-! DEFINITION. Well-formed commands: messages and payloads have exactly 20 bytes (00_scope.md R9, 20_memory.md R62, R63).
Nothing else is checked: every 32-byte string is a packet and every 8-bit index is a legal operand (30_encoding.md R84 to R86). -/

namespace Sys2Proof

/-- A message of the fixed length (R63). -/
def Message.wf (m : Message) : Bool := m.length == Config.payloadLen

/-- A packet with a payload of the fixed length (R62). -/
def Packet.wf (p : Packet) : Bool := p.payload.length == Config.payloadLen

/-- The commands that a command word and an operand of the right length can spell. -/
def Instr.wf : Instr → Bool
  | .nop => true
  | .aInit => true
  | .aSubmit m => Message.wf m
  | .aAckIn p => p.wf
  | .aTimeout => true
  | .bInit => true
  | .bPktIn p => p.wf
  | .chkEval p => p.wf
  | .regRead _ => true

end Sys2Proof
end

