-- ==== Sys2Proof/Decode.lean ====
section
/-! DEFINITION. Decoding and encoding of commands (30_encoding.md R80 to R88, R94), total on every command and on every byte
string. Bytes are little-endian (20_memory.md R64). -/

namespace Sys2Proof

/-! ## Bytes and words -/

/-- `{b3, b2, b1, b0}`: the word whose byte 0 is `b0` (R64, R85). -/
def wordOfBytes (b0 b1 b2 b3 : Byte) : Word := b3 ++ b2 ++ b1 ++ b0

/-- Byte `i` of a word, `v[8i+7 : 8i]` (R14). -/
def byteOfWord (w : Word) (i : Nat) : Byte := w.extractLsb' (8 * i) 8

/-- A word as its four bytes, least significant first (R64). -/
def bytesOfWord (w : Word) : List Byte := [byteOfWord w 0, byteOfWord w 1, byteOfWord w 2, byteOfWord w 3]

/-- The word at offset `i` of a byte string. -/
def wordAt (bs : List Byte) (i : Nat) : Word :=
  wordOfBytes (bs.getD i 0#8) (bs.getD (i + 1) 0#8) (bs.getD (i + 2) 0#8) (bs.getD (i + 3) 0#8)

/-- The PKT operand: seqnum at bytes 0 to 3, acknum 4 to 7, checksum 8 to 11, payload from byte 12 (R62, R85). -/
def packetOfBytes (bs : List Byte) : Packet where
  seqnum := wordAt bs 0
  acknum := wordAt bs 4
  checksum := wordAt bs 8
  payload := bs.drop 12

/-- A packet's bytes in its layout (R62). -/
def bytesOfPacket (p : Packet) : List Byte :=
  bytesOfWord p.seqnum ++ bytesOfWord p.acknum ++ bytesOfWord p.checksum ++ p.payload

/-! ## Command word fields (R81) -/

/-- OPC, `CW[7:0]`. -/
def cwOpc (cw : Word) : Byte := cw.extractLsb' 0 8
/-- RSV0, `CW[15:8]`, must be 0. -/
def cwRsv0 (cw : Word) : Byte := cw.extractLsb' 8 8
/-- REG, `CW[23:16]`. -/
def cwReg (cw : Word) : Byte := cw.extractLsb' 16 8
/-- RSV1, `CW[31:24]`, must be 0. -/
def cwRsv1 (cw : Word) : Byte := cw.extractLsb' 24 8

/-- The command word with reserved fields 0. -/
def mkCw (opc reg : Byte) : Word := (0#8) ++ reg ++ (0#8) ++ opc

/-! ## Opcodes (R82, R83) -/

/-- The opcode values of R82. -/
def opcodeCode : Opcode → Byte
  | .nop => 0x00#8
  | .aInit => 0x10#8
  | .aSubmit => 0x11#8
  | .aAckIn => 0x12#8
  | .aTimeout => 0x13#8
  | .bInit => 0x20#8
  | .bPktIn => 0x21#8
  | .chkEval => 0x30#8
  | .regRead => 0x40#8

/-- Every assigned opcode, in the table's order. -/
def opcodeAll : List Opcode :=
  [.nop, .aInit, .aSubmit, .aAckIn, .aTimeout, .bInit, .bPktIn, .chkEval, .regRead]

/-- The opcode an OPC value names; none for the 247 unassigned values (R88). -/
def opcodeOf (b : Byte) : Option Opcode := opcodeAll.find? (fun o => opcodeCode o == b)

/-- LEN(OPC), the operand length (R83). -/
def opcodeLen : Opcode → Nat
  | .nop => 0
  | .aInit => 0
  | .aSubmit => 20
  | .aAckIn => 32
  | .aTimeout => 0
  | .bInit => 0
  | .bPktIn => 32
  | .chkEval => 32
  | .regRead => 0

/-- The command an opcode, a register index and an operand spell (R84 to R86). -/
def buildInstr (o : Opcode) (reg : Byte) (opnd : List Byte) : Instr :=
  match o with
  | .nop => .nop
  | .aInit => .aInit
  | .aSubmit => .aSubmit opnd
  | .aAckIn => .aAckIn (packetOfBytes opnd)
  | .aTimeout => .aTimeout
  | .bInit => .bInit
  | .bPktIn => .bPktIn (packetOfBytes opnd)
  | .chkEval => .chkEval (packetOfBytes opnd)
  | .regRead => .regRead reg

/-! ## Decoding -/

/-- Why a command is illegal (R87). The block reports every one of them alike, as ERR_ILLEGAL_CMD (R202); the names are the
decoder's. DESIGN CHOICE, safe: log entry 15. -/
inductive DecodeError where
  /-- Fewer than the four bytes of a command word: not a command transaction at all (R80). Only `decodeBytes` answers it. -/
  | shortFrame
  /-- OPC holds an unassigned value (R88). -/
  | unassignedOpcode
  /-- RSV0 is not 0. -/
  | reservedRsv0
  /-- RSV1 is not 0. -/
  | reservedRsv1
  /-- REG is not 0 on an opcode other than REG_READ. -/
  | regNotZero
  /-- The operand's length differs from LEN(OPC). -/
  | operandLength
  deriving DecidableEq, Repr

/-- The decoder: a command is one of the nine commands, or illegal (R87, R94). -/
def decode (c : Command) : Except DecodeError Instr :=
  match opcodeOf (cwOpc c.cw) with
  | none => .error .unassignedOpcode
  | some o =>
    if cwRsv0 c.cw ≠ 0#8 then .error .reservedRsv0
    else if cwRsv1 c.cw ≠ 0#8 then .error .reservedRsv1
    else if o ≠ .regRead ∧ cwReg c.cw ≠ 0#8 then .error .regNotZero
    else if c.opnd.length ≠ opcodeLen o then .error .operandLength
    else .ok (buildInstr o (cwReg c.cw) c.opnd)

/-- A command carried as bytes: CW least significant byte first, then OPND (R81). -/
def bytesOfCommand (c : Command) : List Byte := bytesOfWord c.cw ++ c.opnd

/-- The command a byte string carries; none if it is too short to hold a command word. -/
def commandOfBytes : List Byte → Option Command
  | b0 :: b1 :: b2 :: b3 :: opnd => some ⟨wordOfBytes b0 b1 b2 b3, opnd⟩
  | _ => none

/-- The decoder on a byte string, total. -/
def decodeBytes (bs : List Byte) : Except DecodeError Instr :=
  match commandOfBytes bs with
  | some c => decode c
  | none => .error .shortFrame

/-! ## Encoding -/

/-- The opcode of a command. -/
def instrOpcode : Instr → Opcode
  | .nop => .nop
  | .aInit => .aInit
  | .aSubmit _ => .aSubmit
  | .aAckIn _ => .aAckIn
  | .aTimeout => .aTimeout
  | .bInit => .bInit
  | .bPktIn _ => .bPktIn
  | .chkEval _ => .chkEval
  | .regRead _ => .regRead

/-- The REG field of a command: the index for REG_READ, 0 for every other (R81). -/
def instrReg : Instr → Byte
  | .nop => 0#8
  | .aInit => 0#8
  | .aSubmit _ => 0#8
  | .aAckIn _ => 0#8
  | .aTimeout => 0#8
  | .bInit => 0#8
  | .bPktIn _ => 0#8
  | .chkEval _ => 0#8
  | .regRead idx => idx

/-- The operand bytes of a command (R84, R85). -/
def instrOperand : Instr → List Byte
  | .nop => []
  | .aInit => []
  | .aSubmit m => m
  | .aAckIn p => bytesOfPacket p
  | .aTimeout => []
  | .bInit => []
  | .bPktIn p => bytesOfPacket p
  | .chkEval p => bytesOfPacket p
  | .regRead _ => []

/-- The encoder: the command transaction of a command. -/
def encode (i : Instr) : Command := ⟨mkCw (opcodeCode (instrOpcode i)) (instrReg i), instrOperand i⟩

/-- The encoder to bytes. -/
def encodeBytes (i : Instr) : List Byte := bytesOfCommand (encode i)

/-! ## The host's table words -/

/-- How many operand bytes the table's word leaves to zeros: LEN of its opcode, or 0 where the opcode is unassigned. -/
def tableOperandLen (cw : Word) : Nat :=
  match opcodeOf (cwOpc cw) with
  | some o => opcodeLen o
  | none => 0

/-- The command transaction whose bits are `w`, numbered as spec/opcode_table.json numbers them: the command word is bits
31..0, operand byte k is bits 39+8k..32+8k, and every bit above `nbits` is 0. DESIGN CHOICE, safe: log entry 14. -/
def tableCommand (nbits w : Nat) : Command :=
  let v := w % 2 ^ nbits
  let cw := BitVec.ofNat 32 v
  ⟨cw, (List.range (max (tableOperandLen cw) ((nbits - 32) / 8))).map (fun k => BitVec.ofNat 8 (v / 2 ^ (32 + 8 * k)))⟩

/-- What the decoder reads from the table's word, laid out as the bytes of its transaction. -/
def decodeTableWord (nbits w : Nat) : Option Instr :=
  match decodeBytes (bytesOfCommand (tableCommand nbits w)) with
  | .ok i => some i
  | .error _ => none

end Sys2Proof
end

