-- ==== Sys2Proof/Machine/State.lean ====
section
/-! DEFINITION. The state of the block as plain data (10_state.md): the sender engine, the receiver engine, the timer record,
the counters and the sticky error bits; with them the parameters of the block (00_scope.md section 3) and its two ports. -/

namespace Sys2Proof.Machine

/-! ## The block's outputs -/

/-- An output event (30_encoding.md R93). -/
inductive Event where
  /-- TX_A(p): the sender hands a packet to the channel. -/
  | txA (p : Packet)
  /-- TX_B(p): the receiver hands a packet to the channel. -/
  | txB (p : Packet)
  /-- DELIVER(d): a payload for the application. -/
  | deliver (d : Payload)
  /-- TMR_START(RTT): the timer collaborator is started for the duration it carries (R11, R226). -/
  | tmrStart (duration : Nat)
  /-- TMR_STOP. -/
  | tmrStop
  deriving DecidableEq, Repr

/-- A response: the 32-bit word RSP and, for REG_READ and CHK_EVAL, the word DATA (R89). -/
structure Response where
  rsp : Word
  data : Option Word
  deriving DecidableEq, Repr

/-- What one command gives: its one response (R89) and its ordered event list (00_scope.md R16). -/
structure Reply where
  response : Response
  events : List Event
  deriving DecidableEq, Repr

/-! ## The block's inputs -/

/-- What the host can put to the block (60_exceptions.md R230): a command on the command port (30_encoding.md R80), or the
reset input (70_reset_and_hazards.md R260), which a model takes as a step between two commands. -/
inductive Stimulus where
  | command (c : Command)
  | reset
  deriving DecidableEq, Repr

/-! ## The block's state -/

/-- Sender engine A (10_state.md section 2). -/
structure Sender where
  /-- A.WBUF, W packets (R21). -/
  wbuf : List Packet
  /-- A.ACK, W flags (R22). -/
  ack : List Bool
  /-- A.windowfirst, in [0, W) (R23). -/
  windowfirst : Nat
  /-- A.windowlast, in [0, W) (R24). -/
  windowlast : Nat
  /-- A.windowcount, in [0, W] (R25). -/
  windowcount : Nat
  /-- A.nextseqnum, in [0, S) (R26). -/
  nextseqnum : Nat
  deriving DecidableEq, Repr

/-- One slot of the reorder buffer (R32). -/
structure Slot where
  valid : Bool
  seq : Nat
  payload : Payload
  deriving DecidableEq, Repr

/-- Receiver engine B (10_state.md section 3). -/
structure Receiver where
  /-- B.expectedseqnum, in [0, S) (R30). -/
  expectedseqnum : Nat
  /-- B.nextackseq, one bit (R31). -/
  nextackseq : BitVec 1
  /-- B.RBUF, W slots (R32). -/
  rbuf : List Slot
  deriving DecidableEq, Repr

/-- The five counters (R34). -/
structure Counters where
  /-- CNT_ACKS_RX. -/
  acksRx : Word
  /-- CNT_NEW_ACKS. -/
  newAcks : Word
  /-- CNT_RETX. -/
  retx : Word
  /-- CNT_DELIVERED. -/
  delivered : Word
  /-- CNT_WINDOW_FULL. -/
  windowFull : Word
  deriving DecidableEq, Repr

/-- The sticky bits STATUS[3:1] (R35). -/
structure Sticky where
  /-- ERR_ILLEGAL, STATUS[1]. -/
  illegal : Bool
  /-- ERR_BADREG, STATUS[2]. -/
  badReg : Bool
  /-- ERR_TIMER, STATUS[3]. -/
  timer : Bool
  deriving DecidableEq, Repr

/-- The whole machine: the block's state of 10_state.md (`a`, `tmrArmed`, `b`, `cnt`, `err`), its parameters (`par`, written
by no step) and its ports (`pending`, `replies`, DESIGN CHOICE, safe: log entries 5 and 6). -/
structure State where
  /-- The parameters (R7 to R12). -/
  par : Params
  /-- Sender engine A (R21 to R26). -/
  a : Sender
  /-- TMR_ARMED (R28). -/
  tmrArmed : Bool
  /-- Receiver engine B (R30 to R32). -/
  b : Receiver
  /-- The counters (R34). -/
  cnt : Counters
  /-- The sticky error bits (R35). -/
  err : Sticky
  /-- The host's queue of pending stimuli, the next one first (R230). -/
  pending : List Stimulus
  /-- The replies of every command completed so far, oldest first (R70, R89). -/
  replies : List Reply
  deriving DecidableEq, Repr

/-- The faults that stop the machine: none, because "No condition in this core is fatal" (R221). An interface error is a status
code and a sticky bit, and the block goes on (R222). DEDUCED, safe: log entry 10. -/
inductive Fault where
  deriving DecidableEq, Repr

/-- The refusals of the model. -/
inductive Refusal where
  /-- Raised by an arm of `exec` whose command has no meaning in the model. Safe: the model stops where the block goes on. Every
  command has its meaning, so no arm raises it. -/
  | notModelled (mnemonic : String)
  deriving DecidableEq, Repr

/-! ## Reset (10_state.md R38, 70_reset_and_hazards.md R260) -/

/-- What a sender slot holds before the first A_SUBMIT fills it. The spec: unspecified and unobservable (R21). DESIGN CHOICE,
unsafe: log entry 3. -/
def Packet.unspecified : Packet where
  seqnum := 0#32
  acknum := 0#32
  checksum := 0#32
  payload := List.replicate Config.payloadLen 0#8

/-- A free receiver slot whose seq and payload no packet has set. The spec: unspecified and unobservable (R32).
DESIGN CHOICE, unsafe: log entry 4. -/
def Slot.empty : Slot where
  valid := false
  seq := 0
  payload := List.replicate Config.payloadLen 0#8

/-- The sender engine at reset (R21 to R26). -/
def Sender.reset (p : Params) : Sender where
  wbuf := List.replicate p.w Packet.unspecified
  ack := List.replicate p.w false
  windowfirst := 0
  windowlast := p.w - 1
  windowcount := 0
  nextseqnum := 0

/-- The receiver engine at reset (R30 to R32). -/
def Receiver.reset (p : Params) : Receiver where
  expectedseqnum := 0
  nextackseq := p.ackSeqReset
  rbuf := List.replicate p.w Slot.empty

/-- The counters at reset (R34). -/
def Counters.zero : Counters where
  acksRx := 0#32
  newAcks := 0#32
  retx := 0#32
  delivered := 0#32
  windowFull := 0#32

/-- The sticky bits at reset (R35). -/
def Sticky.clear : Sticky where
  illegal := false
  badReg := false
  timer := false

/-- The machine right after hardware reset, for any choice of the parameters, with nothing on its ports. -/
def State.resetWith (p : Params) : State where
  par := p
  a := Sender.reset p
  tmrArmed := false
  b := Receiver.reset p
  cnt := Counters.zero
  err := Sticky.clear
  pending := []
  replies := []

/-- The machine right after hardware reset, with the spec's default parameters. -/
def State.reset : State := State.resetWith Params.specDefault

end Sys2Proof.Machine
end

