-- ==== Sys2Proof/Machine/Checksum.lean ====
section
/-! DEFINITION. The checksum unit (40_integrity.md R110, R111): two pure functions of a packet and of CHK_BYTE_SIGNED. -/

namespace Sys2Proof.Machine

/-- `byteval(b)`: a payload byte's value in the sum, sign- or zero-extended (R110, decision D4). -/
def byteval (signed : Bool) (b : Byte) : Int := if signed then b.toInt else (b.toNat : Int)

/-- `CS(p)`: the integer sum of seqnum, acknum and the payload bytes, modulo 2^32; the checksum field does not enter (R110). -/
def checksum (par : Params) (p : Packet) : Word :=
  BitVec.ofInt 32 (p.seqnum.toInt + p.acknum.toInt + (p.payload.map (byteval par.chkByteSigned)).sum)

/-- `corrupt(p)`: the checksum field differs from `CS(p)` as a 32-bit word (R111). -/
def corrupt (par : Params) (p : Packet) : Bool := p.checksum != checksum par p

/-- A packet with its checksum field computed, as A_SUBMIT and B_PKT_IN build them (R113). -/
def sealPacket (par : Params) (p : Packet) : Packet := { p with checksum := checksum par p }

end Sys2Proof.Machine
end

