-- ==== Sys2Proof/Machine/Flags.lean ====
section
/-! DEFINITION. Status codes, the response word, and the STATUS register with its sticky bits (30_encoding.md R89 to R91,
10_state.md R35). -/

namespace Sys2Proof.Machine

/-- The status codes (R90). -/
inductive Status where
  | ok | windowFull | corrupt | ackNew | ackDup | rxDelivered | rxBuffered | rxDropFull | rxOutside
  | errIllegalCmd | errBadReg | errTimerIdle
  deriving DecidableEq, Repr

/-- The code of a status, RSP[7:0] (R90). -/
def statusCode : Status → Byte
  | .ok => 0x00#8
  | .windowFull => 0x01#8
  | .corrupt => 0x02#8
  | .ackNew => 0x03#8
  | .ackDup => 0x04#8
  | .rxDelivered => 0x05#8
  | .rxBuffered => 0x06#8
  | .rxDropFull => 0x07#8
  | .rxOutside => 0x08#8
  | .errIllegalCmd => 0x80#8
  | .errBadReg => 0x81#8
  | .errTimerIdle => 0x82#8

/-- The response word: STATUS in [7:0], COUNT in [15:8], 0 in [31:16] (R89). That COUNT fits its 8 bits (R91) is DEDUCED,
safe: log entry 16. -/
def responseWord (st : Status) (count : Nat) : Word := (0#16) ++ BitVec.ofNat 8 count ++ statusCode st

/-- The STATUS register: TMR_ARMED, the three sticky bits, bits [31:4] 0 (R35). -/
def statusReg (armed : Bool) (e : Sticky) : Word :=
  (0#28) ++ BitVec.ofBool e.timer ++ BitVec.ofBool e.badReg ++ BitVec.ofBool e.illegal ++ BitVec.ofBool armed

/-- The interface errors (60_exceptions.md R222). -/
inductive IfError where
  | illegalCmd | badReg | timerIdle
  deriving DecidableEq, Repr

/-- The status an interface error reports (R222). -/
def errorStatus : IfError → Status
  | .illegalCmd => .errIllegalCmd
  | .badReg => .errBadReg
  | .timerIdle => .errTimerIdle

/-- The sticky bit an interface error sets; a bit already set stays set (R222, R225). -/
def setSticky (x : IfError) (e : Sticky) : Sticky :=
  match x with
  | .illegalCmd => { e with illegal := true }
  | .badReg => { e with badReg := true }
  | .timerIdle => { e with timer := true }

end Sys2Proof.Machine
end

