-- ==== Sys2Proof/Machine/Ops.lean ====
section
/-! DEFINITION. The named operations over the state: ending a command with a response, raising an interface error, the sender's
window, the receiver's reorder buffer, the command port and the reset input. -/

namespace Sys2Proof.Machine

/-! ## Ending a command (00_scope.md R16) -/

/-- The machine goes on in state `s`. -/
abbrev goOn (s : State) : Host.Outcome State Fault Refusal := .next s

/-- `respond(status, count, data)` with the events the command emitted, in order: the command's one reply (R16, R89). -/
def State.respond (s : State) (st : Status) (count : Nat) (data : Option Word) (evs : List Event) : State :=
  { s with replies := s.replies ++ [⟨⟨responseWord st count, data⟩, evs⟩] }

/-- `raise Err`: the only exception mechanism. Sets the error's sticky bit and responds with its status; no event, no counter,
no protocol state (R16, 60_exceptions.md R222, R224). `data` is REG_READ's DATA word 0 for ERR_BAD_REG (R89). -/
def State.raise (s : State) (x : IfError) (data : Option Word) : State :=
  { s with err := setSticky x s.err }.respond (errorStatus x) 0 data []

/-! ## Sender window (20_memory.md R61)

Outside the slot arrays the accessors answer a fixed default: DESIGN CHOICE, safe: log entry 9. -/

/-- The packet a sender slot holds. -/
def Sender.packet (a : Sender) (k : Nat) : Packet := a.wbuf.getD k Packet.unspecified

/-- The ack flag of a sender slot. -/
def Sender.acked (a : Sender) (k : Nat) : Bool := a.ack.getD k false

/-- `wslot(i)`: the slot of the i-th live entry in window order (00_scope.md R15). -/
def Sender.wslot (a : Sender) (w i : Nat) : Nat := (a.windowfirst + i) % w

/-- The slots of the live entries in window order, oldest first. -/
def Sender.liveSlots (a : Sender) (w : Nat) : List Nat := (List.range a.windowcount).map (a.wslot w)

/-- The slots of the unacked live entries in window order, oldest first. -/
def Sender.unackedSlots (a : Sender) (w : Nat) : List Nat := (a.liveSlots w).filter (fun k => !a.acked k)

/-- A_SUBMIT's insertion of a packet at the next circular slot, unacked, and the advance of nextseqnum (R131). -/
def Sender.insert (a : Sender) (w s : Nat) (p : Packet) : Sender :=
  let last := (a.windowlast + 1) % w
  { a with
    windowlast := last
    wbuf := a.wbuf.set last p
    ack := a.ack.set last false
    windowcount := a.windowcount + 1
    nextseqnum := (a.nextseqnum + 1) % s }

/-- The slot A_ACK_IN's scan finds: the first unacked live entry in window order whose seqnum is the ack's acknum, compared as
whole 32-bit words (R132, R137, decision D18). -/
def Sender.findUnacked (a : Sender) (w : Nat) (acknum : Word) : Option Nat :=
  (a.liveSlots w).find? (fun k => !a.acked k && (a.packet k).seqnum == acknum)

/-- `A.ACK[k] <- 1`. -/
def Sender.markAcked (a : Sender) (k : Nat) : Sender := { a with ack := a.ack.set k true }

/-- A_ACK_IN's slide, with the number of slots freed: while the window is non-empty and its front is acked, clear the front's
flag and free its slot (R132, decision D17). The first argument bounds the passes; each frees a slot, so windowcount suffices. -/
def Sender.slide (w : Nat) : Nat → Sender → Sender × Nat
  | 0, a => (a, 0)
  | n + 1, a =>
    if 0 < a.windowcount ∧ a.acked a.windowfirst = true then
      let r := Sender.slide w n
        { a with
          ack := a.ack.set a.windowfirst false
          windowfirst := (a.windowfirst + 1) % w
          windowcount := a.windowcount - 1 }
      (r.1, r.2 + 1)
    else (a, 0)

/-- The sender registers and flags as A_INIT leaves them: every field of R130, A.WBUF kept. -/
def Sender.init (a : Sender) (w : Nat) : Sender :=
  { a with
    nextseqnum := 0
    windowfirst := 0
    windowlast := w - 1
    windowcount := 0
    ack := List.replicate w false }

/-! ## Reorder buffer (42_receiver.md) -/

/-- A slot of the reorder buffer. -/
def Receiver.slot (b : Receiver) (k : Nat) : Slot := b.rbuf.getD k Slot.empty

/-- The lowest free slot (R174, decision D26). -/
def Receiver.findFree (b : Receiver) : Option Nat := b.rbuf.findIdx? (fun sl => !sl.valid)

/-- The lowest valid slot whose seq is the cursor's (R173, decision D26). -/
def Receiver.findExpected (b : Receiver) : Option Nat :=
  b.rbuf.findIdx? (fun sl => sl.valid && sl.seq == b.expectedseqnum)

/-- The cursor's advance by 1 modulo S (R30). -/
def Receiver.advance (b : Receiver) (s : Nat) : Receiver := { b with expectedseqnum := (b.expectedseqnum + 1) % s }

/-- `B.RBUF[k].valid <- 0`; seq and payload stay, unobservable (R32). -/
def Receiver.free (b : Receiver) (k : Nat) : Receiver := { b with rbuf := b.rbuf.set k { b.slot k with valid := false } }

/-- The drain loop of R173 with the payloads it delivers, in order: while a valid slot holds the cursor's number, deliver it, free
it and advance. The first argument bounds the passes; each frees a valid slot, so the number of slots suffices. -/
def Receiver.drain (s : Nat) : Nat → Receiver → Receiver × List Payload
  | 0, b => (b, [])
  | n + 1, b =>
    match b.findExpected with
    | none => (b, [])
    | some k =>
      let r := Receiver.drain s n ((b.free k).advance s)
      (r.1, (b.slot k).payload :: r.2)

/-- `DELIVER_AND_DRAIN`: the in-order payload, then the drain (R173). -/
def Receiver.deliverAndDrain (b : Receiver) (s : Nat) (d : Payload) : Receiver × List Payload :=
  let r := Receiver.drain s b.rbuf.length (b.advance s)
  (r.1, d :: r.2)

/-- `STORE` into slot `k` (R174). -/
def Receiver.store (b : Receiver) (k seq : Nat) (d : Payload) : Receiver := { b with rbuf := b.rbuf.set k ⟨true, seq, d⟩ }

/-- The receive offset `(q − e + S) mod S` (R171). -/
def Receiver.offset (b : Receiver) (s : Nat) (q : Int) : Int := (q - (b.expectedseqnum : Int) + (s : Int)) % (s : Int)

/-- Every valid bit cleared, seq and payload kept (R170). -/
def invalidate (l : List Slot) : List Slot := l.map (fun sl => { sl with valid := false })

/-- The receiver as B_INIT leaves it (R170). -/
def Receiver.init (b : Receiver) (ackSeqReset : BitVec 1) : Receiver where
  expectedseqnum := 0
  nextackseq := ackSeqReset
  rbuf := invalidate b.rbuf

/-! ## Events (30_encoding.md R93) -/

/-- TMR_STOP if the timer is armed (R130, R132). -/
def stopEvents (armed : Bool) : List Event := if armed then [.tmrStop] else []

/-- TMR_START(RTT) if the timer is to be started (R131, R132, R134). -/
def startEvents (par : Params) (start : Bool) : List Event := if start then [.tmrStart par.rtt] else []

/-! ## The ports -/

/-- The state with a stimulus put at the front of the host's queue. -/
def State.offer (s : State) (x : Stimulus) : State := { s with pending := x :: s.pending }

/-- The state with the remaining queue, when its first stimulus has been taken. -/
def State.taken (s : State) (rest : List Stimulus) : State := { s with pending := rest }

/-- The reset input (70_reset_and_hazards.md R260, R261): every element of the block at its reset value whatever it held before,
no event, no response. The queue and the replies belong to the host and the collaborators and stay.
DESIGN CHOICE, safe: log entry 11. That it acts between two commands only is DEDUCED, unsafe: log entry 7. -/
def State.hardReset (s : State) : State :=
  { State.resetWith s.par with pending := s.pending, replies := s.replies }

end Sys2Proof.Machine
end

