-- ==== Sys2Proof/Machine/Operands.lean ====
section
/-! DEFINITION. The operand forms: the packet a MSG operand becomes, the acknowledgment of a PKT operand, and the register a REG
operand names (30_encoding.md R84 to R86, 10_state.md R36). -/

namespace Sys2Proof.Machine

/-- The data packet A_SUBMIT builds from a message (R131). -/
def dataPacket (par : Params) (seq : Nat) (m : Message) : Packet :=
  sealPacket par ⟨BitVec.ofNat 32 seq, par.notInUse, 0#32, m⟩

/-- The acknowledgment B_PKT_IN builds: seqnum is nextackseq before the toggle, acknum echoes the packet's seqnum, the payload is
20 bytes of ACK_FILL (R172, decision D23). -/
def ackPacket (par : Params) (nextackseq : BitVec 1) (seqnum : Word) : Packet :=
  sealPacket par ⟨nextackseq.setWidth 32, seqnum, 0#32, List.replicate Config.payloadLen par.ackFill⟩

/-! ## The register map (R36) -/

/-- LIVE of a sender slot: `(k − A.windowfirst) mod W < A.windowcount`. -/
def Sender.live (a : Sender) (w k : Nat) : Bool :=
  decide (((k : Int) - (a.windowfirst : Int)) % (w : Int) < (a.windowcount : Int))

/-- A_ACKSTATUS: bit k is A.ACK[k] for k < W, other bits 0. -/
def ackStatusReg (a : Sender) (w : Nat) : Word :=
  (List.range w).foldr (fun k v => (if a.acked k then BitVec.twoPow 32 k else 0#32) ||| v) 0#32

/-- A_SLOT[k]: LIVE, ACK, 14 zero bits, and the seqnum's low half if LIVE. -/
def aSlotReg (a : Sender) (w k : Nat) : Word :=
  BitVec.ofBool (a.live w k) ++ BitVec.ofBool (a.acked k) ++ (0#14)
    ++ (if a.live w k then (a.packet k).seqnum.extractLsb' 0 16 else 0#16)

/-- B_SLOT[k]: valid, 15 zero bits, and seq if valid. -/
def bSlotReg (b : Receiver) (k : Nat) : Word :=
  BitVec.ofBool (b.slot k).valid ++ (0#15) ++ (if (b.slot k).valid then BitVec.ofNat 16 (b.slot k).seq else 0#16)

/-- B_OCCUPANCY: the number of valid slots. -/
def occupancy (b : Receiver) : Nat := b.rbuf.countP (fun sl => sl.valid)

/-- The value of the register an index names; none for an unassigned index (R36, R201). -/
def regValue (s : State) (idx : Nat) : Option Word :=
  match idx with
  | 0x00 => some (BitVec.ofNat 32 s.par.w)
  | 0x01 => some (BitVec.ofNat 32 s.par.s)
  | 0x02 => some (statusReg s.tmrArmed s.err)
  | 0x03 => some s.par.notInUse
  | 0x08 => some s.cnt.acksRx
  | 0x09 => some s.cnt.newAcks
  | 0x0A => some s.cnt.retx
  | 0x0B => some s.cnt.delivered
  | 0x0C => some s.cnt.windowFull
  | 0x10 => some (BitVec.ofNat 32 s.a.windowfirst)
  | 0x11 => some (BitVec.ofNat 32 s.a.windowlast)
  | 0x12 => some (BitVec.ofNat 32 s.a.windowcount)
  | 0x13 => some (BitVec.ofNat 32 s.a.nextseqnum)
  | 0x14 => some (ackStatusReg s.a s.par.w)
  | 0x18 => some (BitVec.ofNat 32 s.b.expectedseqnum)
  | 0x19 => some (s.b.nextackseq.setWidth 32)
  | 0x1A => some (BitVec.ofNat 32 (occupancy s.b))
  | n =>
    if 0x40 ≤ n ∧ n < 0x40 + s.par.w then some (aSlotReg s.a s.par.w (n - 0x40))
    else if 0x60 ≤ n ∧ n < 0x60 + s.par.w then some (bSlotReg s.b (n - 0x60))
    else none

end Sys2Proof.Machine
end

