-- ==== Sys2Proof/Machine/Control.lean ====
section
/-! DEFINITION. Control commands (43_control.md): NOP, REG_READ, and what an illegal command does. -/

namespace Sys2Proof.Machine

/-- NOP (R200): responds OK, nothing else. -/
def execNop (s : State) : Host.Outcome State Fault Refusal := goOn (s.respond .ok 0 none [])

/-- REG_READ (R201): the register's value, or ERR_BAD_REG with DATA 0 for an unassigned index. -/
def execRegRead (idx : Byte) (s : State) : Host.Outcome State Fault Refusal :=
  match regValue s idx.toNat with
  | some v => goOn (s.respond .ok 0 (some v) [])
  | none => goOn (s.raise .badReg (some 0#32))

/-- An illegal command (R202): ERR_ILLEGAL_CMD with no DATA word, whatever the opcode; the operand is discarded unread. -/
def execIllegal (s : State) : Host.Outcome State Fault Refusal := goOn (s.raise .illegalCmd none)

end Sys2Proof.Machine
end

