-- ==== Sys2Proof/Machine/Integrity.lean ====
section
/-! DEFINITION. The checksum unit's command (40_integrity.md): CHK_EVAL. -/

namespace Sys2Proof.Machine

/-- CHK_EVAL (R114): DATA is the computed checksum, the status the verdict; no state, counter or event. -/
def execChkEval (p : Packet) (s : State) : Host.Outcome State Fault Refusal :=
  goOn (s.respond (if corrupt s.par p then .corrupt else .ok) 0 (some (checksum s.par p)) [])

end Sys2Proof.Machine
end

