-- ==== Sys2Proof/Machine/ReceiverCommands.lean ====
section
/-! DEFINITION. Receiver engine B (42_receiver.md): B_INIT, B_PKT_IN. -/

namespace Sys2Proof.Machine

/-- B_INIT (R170): cursor 0, nextackseq to its reset value, every slot free. Counters, sticky bits and the sender are not written. -/
def execBInit (s : State) : Host.Outcome State Fault Refusal :=
  goOn ({ s with b := s.b.init s.par.ackSeqReset }.respond .ok 0 none [])

/-- B_PKT_IN (R171 to R175): a corrupted packet is ignored with no ack; every valid packet is acknowledged first, then delivered with
the drain, stored, dropped for want of a slot, or ignored as outside the receive window. -/
def execBPktIn (p : Packet) (s : State) : Host.Outcome State Fault Refusal :=
  if corrupt s.par p then goOn (s.respond .corrupt 0 none [])
  else
    let acked := { s.b with nextackseq := ~~~s.b.nextackseq }
    let ack := Event.txB (ackPacket s.par s.b.nextackseq p.seqnum)
    let q := p.seqnum.toInt
    if q < 0 ∨ (s.par.s : Int) ≤ q then goOn ({ s with b := acked }.respond .rxOutside 0 none [ack])
    else if q = (s.b.expectedseqnum : Int) then
      let r := acked.deliverAndDrain s.par.s p.payload
      goOn ({ s with
        b := r.1
        cnt := { s.cnt with delivered := s.cnt.delivered + BitVec.ofNat 32 r.2.length } }.respond .rxDelivered r.2.length none
          (ack :: r.2.map Event.deliver))
    else if acked.offset s.par.s q < (s.par.w : Int) then
      match acked.findFree with
      | some k => goOn ({ s with b := acked.store k q.toNat p.payload }.respond .rxBuffered 0 none [ack])
      | none => goOn ({ s with b := acked }.respond .rxDropFull 0 none [ack])
    else goOn ({ s with b := acked }.respond .rxOutside 0 none [ack])

end Sys2Proof.Machine
end

