-- ==== Sys2Proof/Machine/SenderCommands.lean ====
section
/-! DEFINITION. Sender engine A (41_sender.md): A_INIT, A_SUBMIT, A_ACK_IN, A_TIMEOUT. -/

namespace Sys2Proof.Machine

/-- A_INIT (R130): TMR_STOP if the timer was armed; the sender registers and flags to their initial values. Counters, sticky bits,
A.WBUF and the receiver are not written. -/
def execAInit (s : State) : Host.Outcome State Fault Refusal :=
  goOn ({ s with a := s.a.init s.par.w, tmrArmed := false }.respond .ok 0 none (stopEvents s.tmrArmed))

/-- A_SUBMIT (R131): a full window rejects and counts; otherwise the packet is built, inserted and transmitted, and the timer
started if it is the only outstanding one. -/
def execASubmit (m : Message) (s : State) : Host.Outcome State Fault Refusal :=
  if s.a.windowcount = s.par.w then
    goOn ({ s with cnt := { s.cnt with windowFull := s.cnt.windowFull + 1#32 } }.respond .windowFull 0 none [])
  else
    let p := dataPacket s.par s.a.nextseqnum m
    let a := s.a.insert s.par.w s.par.s p
    let first := decide (a.windowcount = 1)
    goOn ({ s with a := a, tmrArmed := s.tmrArmed || first }.respond .ok 0 none (.txA p :: startEvents s.par first))

/-- A_ACK_IN (R132): a corrupted packet is ignored; a valid one is counted, marks the unacked live entry it names, slides the window
front over acked entries, stops a running timer and starts it again if an unacked live entry remains. -/
def execAAckIn (p : Packet) (s : State) : Host.Outcome State Fault Refusal :=
  if corrupt s.par p then goOn (s.respond .corrupt 0 none [])
  else
    let hit := s.a.findUnacked s.par.w p.acknum
    let marked := match hit with
      | some k => s.a.markAcked k
      | none => s.a
    let r := Sender.slide s.par.w marked.windowcount marked
    let restart := !(r.1.unackedSlots s.par.w).isEmpty
    let cnt := { s.cnt with
      acksRx := s.cnt.acksRx + 1#32
      newAcks := if hit.isSome then s.cnt.newAcks + 1#32 else s.cnt.newAcks }
    goOn ({ s with a := r.1, tmrArmed := restart, cnt := cnt }.respond (if hit.isSome then .ackNew else .ackDup) r.2 none
      (stopEvents s.tmrArmed ++ startEvents s.par restart))

/-- A_TIMEOUT (R134): with no timer start outstanding, ERR_TIMER_IDLE; otherwise every unacked live entry is retransmitted
unchanged, oldest first, and the timer started again if the window is non-empty. -/
def execATimeout (s : State) : Host.Outcome State Fault Refusal :=
  if s.tmrArmed = false then goOn (s.raise .timerIdle none)
  else
    let resent := s.a.unackedSlots s.par.w
    let restart := decide (0 < s.a.windowcount)
    goOn ({ s with
      tmrArmed := restart
      cnt := { s.cnt with retx := s.cnt.retx + BitVec.ofNat 32 resent.length } }.respond .ok resent.length none
        (resent.map (fun k => Event.txA (s.a.packet k)) ++ startEvents s.par restart))

end Sys2Proof.Machine
end

