-- ==== Sys2Proof/Machine/Dispatch.lean ====
section
/-! DEFINITION. Which meaning each command has, one arm per constructor. -/

namespace Sys2Proof.Machine

def exec (i : Instr) (s : State) : Host.Outcome State Fault Refusal :=
  match i with
  | .nop => Sys2Proof.Machine.execNop s
  | .aInit => Sys2Proof.Machine.execAInit s
  | .aSubmit m => Sys2Proof.Machine.execASubmit m s
  | .aAckIn p => Sys2Proof.Machine.execAAckIn p s
  | .aTimeout => Sys2Proof.Machine.execATimeout s
  | .bInit => Sys2Proof.Machine.execBInit s
  | .bPktIn p => Sys2Proof.Machine.execBPktIn p s
  | .chkEval p => Sys2Proof.Machine.execChkEval p s
  | .regRead idx => Sys2Proof.Machine.execRegRead idx s

end Sys2Proof.Machine
end

