-- ==== Sys2Proof/Machine/Intake.lean ====
section
/-! DEFINITION. Taking the next stimulus: what a command transaction does once it is on the command port, and the placing of a table
word there (30_encoding.md R80, R87, 43_control.md R202). -/

namespace Sys2Proof.Machine

/-- A command transaction executes the command it decodes to, or R202 if it is illegal; legality is checked before anything else
(60_exceptions.md R223). -/
def runCommand (c : Command) (s : State) : Host.Outcome State Fault Refusal :=
  match decode c with
  | .ok i => exec i s
  | .error _ => execIllegal s

/-- A stimulus acts: a command runs, the reset input resets. -/
def runStimulus (x : Stimulus) (s : State) : Host.Outcome State Fault Refusal :=
  match x with
  | .command c => runCommand c s
  | .reset => goOn s.hardReset

/-- The state with the table's word on the command port as the next transaction. -/
def State.offerTableWord (s : State) (nbits w : Nat) : State := s.offer (.command (tableCommand nbits w))

end Sys2Proof.Machine
end

