-- ==== Sys2Proof/Machine/Step.lean ====
section
/-! DEFINITION. One step: the block takes the next pending stimulus, or waits (60_exceptions.md R230, R234, 70_reset_and_hazards.md
R264). -/

namespace Sys2Proof.Machine

/-- One step. With nothing pending the block holds its state unchanged (R234, R264); otherwise the first stimulus is taken and
acts. A command is one atomic step (20_memory.md R66); that none
overlaps another is DEDUCED, unsafe: log entry 8. -/
def step (s : State) : Host.Outcome State Fault Refusal :=
  match s.pending with
  | [] => .next s
  | x :: rest => runStimulus x (s.taken rest)

/-- The state whose next step runs the table's word: the block fetches nothing, so the word is put at the front of the host's queue,
operand bytes above `nbits` zero. DESIGN CHOICE, safe: log entries 5 and 14. -/
def State.withFetchWord (s : State) (nbits w : Nat) : State := s.offerTableWord nbits w

end Sys2Proof.Machine
end

