-- ==== Sys2Proof/Machine/Assembler.lean ====
section
/-! DEFINITION. The command syntax and pseudo-commands of 30_encoding.md R95 and R96: a line of text, its abstract form, and the
commands it stands for. The block never sees a pseudo-command: it has no opcode (R96). What the rules leave
open of the text is DESIGN CHOICE, safe: log entry 17. -/

namespace Sys2Proof.Machine

/-! ## Abstract lines -/

/-- `ack=`: an integer or NOTINUSE (R95). -/
inductive AckArg where
  | value (v : Int)
  | notInUse
  deriving DecidableEq, Repr

/-- `chk=`: an integer, `auto` for `CS(p)` of the other fields, `bad` for `u32(CS(p) + 1)` (R95). -/
inductive ChkArg where
  | value (v : Int)
  | auto
  | bad
  deriving DecidableEq, Repr

/-- `pay=`: a message, or `fill` for 20 bytes of ACK_FILL (R95). -/
inductive PayArg where
  | message (m : Message)
  | fill
  deriving DecidableEq, Repr

/-- `<pkt>` (R95). -/
structure PktArg where
  seq : Int
  ack : AckArg
  chk : ChkArg
  pay : PayArg
  deriving DecidableEq, Repr

/-- A line: a command of R95 or a pseudo-command of R96. -/
inductive AsmLine where
  | nop
  | aInit
  | aSubmit (m : Message)
  | aAckIn (p : PktArg)
  | aTimeout
  | bInit
  | bPktIn (p : PktArg)
  | chkEval (p : PktArg)
  | regRead (idx : Byte)
  | init
  | data (s : Int) (m : Message)
  | ackOf (n : Int) (q : Int)
  | badAck (n : Int)
  | badData (s : Int) (m : Message)
  deriving DecidableEq, Repr

/-- The packet `<pkt>` stands for; integers become 32-bit two's complement (R95). -/
def packetOfArg (par : Params) (x : PktArg) : Packet :=
  let ack := match x.ack with
    | .value v => BitVec.ofInt 32 v
    | .notInUse => par.notInUse
  let pay := match x.pay with
    | .message m => m
    | .fill => List.replicate Config.payloadLen par.ackFill
  let p : Packet := ⟨BitVec.ofInt 32 x.seq, ack, 0#32, pay⟩
  match x.chk with
  | .value v => { p with checksum := BitVec.ofInt 32 v }
  | .auto => sealPacket par p
  | .bad => { p with checksum := checksum par p + 1#32 }

/-- The commands a line stands for (R95, R96). -/
def assemble (par : Params) : AsmLine → List Instr
  | .nop => [.nop]
  | .aInit => [.aInit]
  | .aSubmit m => [.aSubmit m]
  | .aAckIn p => [.aAckIn (packetOfArg par p)]
  | .aTimeout => [.aTimeout]
  | .bInit => [.bInit]
  | .bPktIn p => [.bPktIn (packetOfArg par p)]
  | .chkEval p => [.chkEval (packetOfArg par p)]
  | .regRead idx => [.regRead idx]
  | .init => [.aInit, .bInit]
  | .data s m => [.bPktIn (packetOfArg par ⟨s, .notInUse, .auto, .message m⟩)]
  | .ackOf n q => [.aAckIn (packetOfArg par ⟨q, .value n, .auto, .fill⟩)]
  | .badAck n => [.aAckIn (packetOfArg par ⟨0, .value n, .bad, .fill⟩)]
  | .badData s m => [.bPktIn (packetOfArg par ⟨s, .notInUse, .bad, .message m⟩)]

/-! ## Text -/

/-- Text after leading blanks. -/
def skipBlanks (cs : List Char) : List Char := cs.dropWhile (fun c => c == ' ' || c == '\t')

/-- Text after a fixed word. -/
def afterWord (word cs : List Char) : Option (List Char) :=
  if word.isPrefixOf cs then some (cs.drop word.length) else none

/-- A digit's value, decimal or hexadecimal. -/
def digitValue (c : Char) : Option Nat :=
  if '0' ≤ c ∧ c ≤ '9' then some (c.toNat - 48)
  else if 'a' ≤ c ∧ c ≤ 'f' then some (c.toNat - 87)
  else if 'A' ≤ c ∧ c ≤ 'F' then some (c.toNat - 55)
  else none

/-- The digits of a base at the front of a text, their value (given the value read so far and whether a digit has been read), and
the text after them. -/
def readDigits (base : Nat) (acc : Nat) (seen : Bool) : List Char → Option (Nat × List Char)
  | [] => if seen then some (acc, []) else none
  | c :: cs =>
    match digitValue c with
    | some d => if d < base then readDigits base (acc * base + d) true cs else if seen then some (acc, c :: cs) else none
    | none => if seen then some (acc, c :: cs) else none

/-- A decimal or `0x` hexadecimal number. -/
def readNat (cs : List Char) : Option (Nat × List Char) :=
  match afterWord "0x".toList cs with
  | some rest => readDigits 16 0 false rest
  | none => readDigits 10 0 false cs

/-- An integer, with a minus sign or without. -/
def readInt (cs : List Char) : Option (Int × List Char) :=
  match afterWord "-".toList cs with
  | some rest => (readNat rest).map (fun r => (-(r.1 : Int), r.2))
  | none => (readNat cs).map (fun r => ((r.1 : Int), r.2))

/-- An ASCII character's byte. -/
def asciiByte (c : Char) : Option Byte := if c.toNat < 128 then some (BitVec.ofNat 8 c.toNat) else none

/-- `n` bytes of two hexadecimal digits each. -/
def readHexBytes : Nat → List Char → Option (List Byte × List Char)
  | 0, cs => some ([], cs)
  | n + 1, c1 :: c0 :: cs =>
    match digitValue c1, digitValue c0, readHexBytes n cs with
    | some d1, some d0, some (bs, rest) => some (BitVec.ofNat 8 (16 * d1 + d0) :: bs, rest)
    | _, _, _ => none
  | _ + 1, _ => none

/-- `<msg>`: 20 ASCII characters in double quotes, `rep('c')`, or `hex:` and 40 digits (R95). -/
def readMessage (cs : List Char) : Option (Message × List Char) :=
  match cs with
  | '"' :: rest =>
    match (rest.take Config.payloadLen).mapM asciiByte, afterWord ['"'] (rest.drop Config.payloadLen) with
    | some m, some after => if m.length = Config.payloadLen then some (m, after) else none
    | _, _ => none
  | _ =>
    match afterWord "rep('".toList cs with
    | some (c :: rest) =>
      match asciiByte c, afterWord "')".toList rest with
      | some b, some after => some (List.replicate Config.payloadLen b, after)
      | _, _ => none
    | _ =>
      match afterWord "hex:".toList cs with
      | some rest => readHexBytes Config.payloadLen rest
      | none => none

/-- A comma between two arguments, blanks around it. -/
def readComma (cs : List Char) : Option (List Char) := (afterWord [','] (skipBlanks cs)).map skipBlanks

/-- `ack=` field value. -/
def readAck (cs : List Char) : Option (AckArg × List Char) :=
  match afterWord "NOTINUSE".toList cs with
  | some rest => some (.notInUse, rest)
  | none => (readInt cs).map (fun r => (.value r.1, r.2))

/-- `chk=` field value. -/
def readChk (cs : List Char) : Option (ChkArg × List Char) :=
  match afterWord "auto".toList cs, afterWord "bad".toList cs with
  | some rest, _ => some (.auto, rest)
  | none, some rest => some (.bad, rest)
  | none, none => (readInt cs).map (fun r => (.value r.1, r.2))

/-- `pay=` field value. -/
def readPay (cs : List Char) : Option (PayArg × List Char) :=
  match afterWord "fill".toList cs with
  | some rest => some (.fill, rest)
  | none => (readMessage cs).map (fun r => (.message r.1, r.2))

/-- `<pkt>`, its four fields in R95's order between braces (characters 123 and 125). -/
def readPacket (cs : List Char) : Option (PktArg × List Char) := do
  let cs ← afterWord [Char.ofNat 123] cs
  let (seq, cs) ← readInt (← afterWord "seq=".toList (skipBlanks cs))
  let (ack, cs) ← readAck (← afterWord "ack=".toList (← readComma cs))
  let (chk, cs) ← readChk (← afterWord "chk=".toList (← readComma cs))
  let (pay, cs) ← readPay (← afterWord "pay=".toList (← readComma cs))
  let cs ← afterWord [Char.ofNat 125] (skipBlanks cs)
  some (⟨seq, ack, chk, pay⟩, cs)

/-- The register names of 10_state.md R36 with a single index. -/
def regNames : List (List Char × Nat) :=
  [("ID_W".toList, 0x00), ("ID_S".toList, 0x01), ("STATUS".toList, 0x02), ("ID_NOTINUSE".toList, 0x03),
   ("CNT_ACKS_RX".toList, 0x08), ("CNT_NEW_ACKS".toList, 0x09), ("CNT_RETX".toList, 0x0A), ("CNT_DELIVERED".toList, 0x0B),
   ("CNT_WINDOW_FULL".toList, 0x0C), ("A_WINDOWFIRST".toList, 0x10), ("A_WINDOWLAST".toList, 0x11),
   ("A_WINDOWCOUNT".toList, 0x12), ("A_NEXTSEQNUM".toList, 0x13), ("A_ACKSTATUS".toList, 0x14),
   ("B_EXPECTEDSEQNUM".toList, 0x18), ("B_NEXTACKSEQ".toList, 0x19), ("B_OCCUPANCY".toList, 0x1A)]

/-- Characters of a command or register name. -/
def nameChar (c : Char) : Bool := c.isAlphanum || c == '_'

/-- An index in square brackets, added to a base; the result is an 8-bit index. -/
def readSlotIndex (base : Nat) (cs : List Char) : Option (Byte × List Char) := do
  let (k, rest) ← readNat (← afterWord ['['] cs)
  let rest ← afterWord [']'] rest
  if base + k < 256 then some (BitVec.ofNat 8 (base + k), rest) else none

/-- `<regname>`, `A_SLOT[k]`, `B_SLOT[k]`, or `#<index>` (R95). -/
def readReg (cs : List Char) : Option (Byte × List Char) :=
  match afterWord ['#'] cs with
  | some rest => (readNat rest).bind (fun r => if r.1 < 256 then some (BitVec.ofNat 8 r.1, r.2) else none)
  | none =>
    let name := cs.takeWhile nameChar
    let rest := cs.dropWhile nameChar
    if name == "A_SLOT".toList then readSlotIndex 0x40 rest
    else if name == "B_SLOT".toList then readSlotIndex 0x60 rest
    else (regNames.find? (fun r => r.1 == name)).map (fun r => (BitVec.ofNat 8 r.2, rest))

/-- `<s>, <msg>` (R96). -/
def readIntMessage (cs : List Char) : Option ((Int × Message) × List Char) := do
  let (n, cs) ← readInt cs
  let (m, cs) ← readMessage (← readComma cs)
  some ((n, m), cs)

/-- `<n>` or `<n>, <q>`, q being 0 where it is left out (R96). -/
def readAckArgs (cs : List Char) : Option ((Int × Int) × List Char) := do
  let (n, cs) ← readInt cs
  match readComma cs with
  | none => some ((n, 0), cs)
  | some rest => (readInt rest).map (fun r => ((n, r.1), r.2))

/-- The line a name and its argument text spell, with the text left over. -/
def readLine (name arg : List Char) : Option (AsmLine × List Char) :=
  if name == "NOP".toList then some (.nop, arg)
  else if name == "A_INIT".toList then some (.aInit, arg)
  else if name == "A_SUBMIT".toList then (readMessage arg).map (fun r => (.aSubmit r.1, r.2))
  else if name == "A_ACK_IN".toList then (readPacket arg).map (fun r => (.aAckIn r.1, r.2))
  else if name == "A_TIMEOUT".toList then some (.aTimeout, arg)
  else if name == "B_INIT".toList then some (.bInit, arg)
  else if name == "B_PKT_IN".toList then (readPacket arg).map (fun r => (.bPktIn r.1, r.2))
  else if name == "CHK_EVAL".toList then (readPacket arg).map (fun r => (.chkEval r.1, r.2))
  else if name == "REG_READ".toList then (readReg arg).map (fun r => (.regRead r.1, r.2))
  else if name == "INIT".toList then some (.init, arg)
  else if name == "DATA".toList then (readIntMessage arg).map (fun r => (.data r.1.1 r.1.2, r.2))
  else if name == "ACK".toList then (readAckArgs arg).map (fun r => (.ackOf r.1.1 r.1.2, r.2))
  else if name == "BADACK".toList then (readInt arg).map (fun r => (.badAck r.1, r.2))
  else if name == "BADDATA".toList then (readIntMessage arg).map (fun r => (.badData r.1.1 r.1.2, r.2))
  else none

/-- One line of text: nothing for a blank line or a comment, one line otherwise; none where it is not of R95's form. A comment starts at
a semicolon after the arguments, or at the start of the line. -/
def parseLine (cs : List Char) : Option (List AsmLine) :=
  match skipBlanks cs with
  | [] => some []
  | ';' :: _ => some []
  | c :: rest =>
    match readLine ((c :: rest).takeWhile nameChar) (skipBlanks ((c :: rest).dropWhile nameChar)) with
    | none => none
    | some (l, tail) =>
      match skipBlanks tail with
      | [] => some [l]
      | ';' :: _ => some [l]
      | _ => none

end Sys2Proof.Machine
end

