-- ==== Sys2Proof/Machine/Wire.lean ====
section
/-! DEFINITION. The block's outputs carried as bytes (30_encoding.md R89, R93, 20_memory.md R64). -/

namespace Sys2Proof.Machine

/-- A response's bytes: RSP, then DATA where there is one, little-endian (R89). -/
def bytesOfResponse (r : Response) : List Byte :=
  match r.data with
  | none => bytesOfWord r.rsp
  | some d => bytesOfWord r.rsp ++ bytesOfWord d

/-- An event's tag (R93). -/
def eventTag : Event → Byte
  | .txA _ => 0x01#8
  | .txB _ => 0x02#8
  | .deliver _ => 0x03#8
  | .tmrStart _ => 0x04#8
  | .tmrStop => 0x05#8

/-- An event's payload bytes; a timer start carries none on the wire (R93). -/
def eventPayload : Event → List Byte
  | .txA p => bytesOfPacket p
  | .txB p => bytesOfPacket p
  | .deliver d => d
  | .tmrStart _ => []
  | .tmrStop => []

/-- An event's bytes: its tag, then its payload (R93). -/
def bytesOfEvent (e : Event) : List Byte := eventTag e :: eventPayload e

/-- Everything the block has emitted, in delivery order: the events of one command in emission order, all before those of a later
command (20_memory.md R70). -/
def State.emitted (s : State) : List Event := s.replies.flatMap (fun r => r.events)

end Sys2Proof.Machine
end

