-- ==== Sys2Proof/Machine/World.lean ====
section
/-! DEFINITION. The block in its surroundings (60_exceptions.md R230, R231): the host, the two channels, the timer and the application as
agents beside the block, the moves each can make, and which of them keep the duties of R231. DESIGN CHOICE and DEDUCED: log entries 12,
13, 19 and 20. -/

namespace Sys2Proof.Machine

/-- The agents of R230, each with the state the table gives it. The host's queue of pending stimuli is the block's `pending`, log entry 5. -/
structure World where
  /-- The block, and the host's queue in its field `pending`. -/
  block : State
  /-- Packets emitted by TX_A, in flight. -/
  chanAB : List Packet
  /-- Packets emitted by TX_B, in flight. -/
  chanBA : List Packet
  /-- The timer: armed since which TMR_START (counted from 0), or not armed. -/
  timer : Option Nat
  /-- How many TMR_START events the timer has received. -/
  starts : Nat
  /-- What the host knows from the events (R228): the timer start that neither a TMR_STOP, an issued A_TIMEOUT nor a reset of the timer has
  ended. Its duty at the timer row of R231 is told from it. -/
  outstanding : Option Nat
  /-- Messages the application has not yet submitted. -/
  toSend : List Message
  /-- Payloads delivered to the application. -/
  received : List Payload
  deriving DecidableEq, Repr

/-- One step of the surroundings, duty kept or broken. The "no move" entries of R231 (overlapping commands, back-pressure) have none. -/
inductive Move where
  /-- The application originates a message, a rejected one again or not (R231). -/
  | originate (m : Message)
  /-- The application hands the host an A_SUBMIT of its next message. -/
  | submit
  /-- The channel A→B hands packet `i` to the host as a B_PKT_IN; any `i`, so it may reorder. -/
  | deliverAB (i : Nat)
  /-- The channel B→A hands packet `i` to the host as an A_ACK_IN. -/
  | deliverBA (i : Nat)
  /-- A channel drops packet `i`. -/
  | dropAB (i : Nat)
  | dropBA (i : Nat)
  /-- A channel corrupts packet `i` to any bytes. -/
  | corruptAB (i : Nat) (p : Packet)
  | corruptBA (i : Nat) (p : Packet)
  /-- A channel duplicates packet `i` (decision D39). -/
  | copyAB (i : Nat)
  | copyBA (i : Nat)
  /-- The armed timer expires, once for its start, and hands the host one A_TIMEOUT, which waits in the host (R227). -/
  | expire
  /-- The host queues a command of its own, any word. -/
  | ask (c : Command)
  /-- The host chooses the pending stimulus `i`, issues it and waits for its response. -/
  | issue (i : Nat)
  /-- The host withdraws the pending stimulus `i`, such as an expiry whose start has ended. -/
  | withdraw (i : Nat)
  /-- Hardware reset of the block, together with those collaborators the host resets as well: the timer, the channels, the application
  (R231, 70_reset_and_hazards.md R261, R262). -/
  | reset (timer channels application : Bool)
  deriving DecidableEq, Repr

/-- What a collaborator does with an event of the block, at once and always: there is no back-pressure (R231, decision D40).
A TMR_START that meets a running timer, which R226 only calls no valid call pattern, replaces the running start by the new one, so the old
start no longer expires: DESIGN CHOICE, unsafe: log entry 20. -/
def absorb (w : World) (e : Event) : World :=
  match e with
  | .txA p => { w with chanAB := w.chanAB ++ [p] }
  | .txB p => { w with chanBA := w.chanBA ++ [p] }
  | .deliver d => { w with received := w.received ++ [d] }
  | .tmrStart _ => { w with timer := some w.starts, starts := w.starts + 1, outstanding := some w.starts }
  | .tmrStop => { w with timer := none, outstanding := none }

/-- The events a step of the block added. -/
def newEvents (before after : State) : List Event :=
  (after.replies.drop before.replies.length).flatMap (fun r => r.events)

/-- A stimulus joins the host's queue (R230). -/
def World.handHost (w : World) (x : Stimulus) : World :=
  { w with block := { w.block with pending := w.block.pending ++ [x] } }

/-- Whether a stimulus is an A_TIMEOUT, which ends the outstanding start (10_state.md R28). -/
def isTimeout (x : Stimulus) : Bool :=
  match x with
  | .command c =>
    match decode c with
    | .ok i => i == .aTimeout
    | .error _ => false
  | .reset => false

/-- The host issues the pending stimulus `x`, with `rest` left in its queue, and the collaborators take the events in order (R231). -/
def World.issueNext (w : World) (x : Stimulus) (rest : List Stimulus) : Option World :=
  match step ((w.block.taken rest).offer x) with
  | .next t =>
    some ((newEvents w.block t).foldl absorb
      { w with block := t, outstanding := if isTimeout x then none else w.outstanding })
  | .fault _ => none
  | .refused _ => none

/-- Hardware reset of the block alone. Packets stay wherever the channels hold them and a started timer keeps running
(70_reset_and_hazards.md R261). The host keeps the stimuli it holds, and `Move.withdraw` drops any it chooses: log entry 19. -/
def World.resetBlock (w : World) : Option World :=
  match step (w.block.offer .reset) with
  | .next t => some { w with block := t }
  | .fault _ => none
  | .refused _ => none

/-- The collaborators the host resets (70_reset_and_hazards.md R262, step 1): the timer stopped, both channels emptied, the application's
queues reset. -/
def World.resetCollaborators (w : World) (timer channels application : Bool) : World :=
  { w with
    timer := if timer then none else w.timer
    outstanding := if timer then none else w.outstanding
    chanAB := if channels then [] else w.chanAB
    chanBA := if channels then [] else w.chanBA
    toSend := if application then [] else w.toSend
    received := if application then [] else w.received }

/-- The move, where the agents' states allow it; no move otherwise. A hand-over and the host's issue of it are two moves, so the host holds
stimuli between moves and across a reset (R230, R227); what it then does with them is DESIGN CHOICE, safe: log entry 19. -/
def World.move (w : World) : Move → Option World
  | .originate m => if Message.wf m then some { w with toSend := w.toSend ++ [m] } else none
  | .submit =>
    match w.toSend with
    | [] => none
    | m :: ms => some (World.handHost { w with toSend := ms } (.command (encode (.aSubmit m))))
  | .deliverAB i =>
    match w.chanAB[i]? with
    | none => none
    | some p => some (World.handHost { w with chanAB := w.chanAB.eraseIdx i } (.command (encode (.bPktIn p))))
  | .deliverBA i =>
    match w.chanBA[i]? with
    | none => none
    | some p => some (World.handHost { w with chanBA := w.chanBA.eraseIdx i } (.command (encode (.aAckIn p))))
  | .dropAB i => if i < w.chanAB.length then some { w with chanAB := w.chanAB.eraseIdx i } else none
  | .dropBA i => if i < w.chanBA.length then some { w with chanBA := w.chanBA.eraseIdx i } else none
  | .corruptAB i p =>
    if i < w.chanAB.length ∧ p.wf = true then some { w with chanAB := w.chanAB.set i p } else none
  | .corruptBA i p =>
    if i < w.chanBA.length ∧ p.wf = true then some { w with chanBA := w.chanBA.set i p } else none
  | .copyAB i =>
    match w.chanAB[i]? with
    | none => none
    | some p => some { w with chanAB := w.chanAB ++ [p] }
  | .copyBA i =>
    match w.chanBA[i]? with
    | none => none
    | some p => some { w with chanBA := w.chanBA ++ [p] }
  | .expire =>
    match w.timer with
    | none => none
    | some _ => some (World.handHost { w with timer := none } (.command (encode .aTimeout)))
  | .ask c => some (w.handHost (.command c))
  | .issue i =>
    match w.block.pending[i]? with
    | none => none
    | some x => w.issueNext x (w.block.pending.eraseIdx i)
  | .withdraw i =>
    if i < w.block.pending.length then some { w with block := { w.block with pending := w.block.pending.eraseIdx i } } else none
  | .reset timer channels application => (w.resetCollaborators timer channels application).resetBlock

/-- The commands the host issues of its own accord; the other four belong to a collaborator (R231). -/
def hostMayIssue (c : Command) : Bool :=
  match decode c with
  | .error _ => true
  | .ok .nop => true
  | .ok .aInit => true
  | .ok (.aSubmit _) => false
  | .ok (.aAckIn _) => false
  | .ok .aTimeout => false
  | .ok .bInit => true
  | .ok (.bPktIn _) => false
  | .ok (.chkEval _) => true
  | .ok (.regRead _) => true

/-- Whether a pending stimulus may be issued: an A_TIMEOUT only while a timer start is outstanding. One left over from a start that has
ended, with a later start outstanding, counts as that start's expiry, since the two cannot be told apart (93_implementation_defined.md
U11). The block's reset is no stimulus to issue alone (R231, row "reset"). -/
def World.mayIssue (w : World) (x : Stimulus) : Bool :=
  match x with
  | .command _ => !isTimeout x || w.outstanding.isSome
  | .reset => false

/-- Whether a move keeps the duties of R231. -/
def World.dutiful (w : World) : Move → Bool
  | .originate _ => true
  | .submit => true
  | .deliverAB _ => true
  | .deliverBA _ => true
  | .dropAB _ => true
  | .dropBA _ => true
  | .corruptAB _ _ => true
  | .corruptBA _ _ => true
  | .copyAB _ => true
  | .copyBA _ => true
  | .expire => true
  | .ask c => hostMayIssue c
  | .issue i => (w.block.pending[i]?).all w.mayIssue
  | .withdraw _ => true
  | .reset timer channels application => timer && channels && application

/-- The surroundings at boot: the block reset, the collaborators reset (70_reset_and_hazards.md R262). -/
def World.boot (p : Params) : World where
  block := State.resetWith p
  chanAB := []
  chanBA := []
  timer := none
  starts := 0
  outstanding := none
  toSend := []
  received := []

/-- The world after a list of moves; none where one of them is not allowed. -/
def World.run : List Move → World → Option World
  | [], w => some w
  | m :: ms, w =>
    match w.move m with
    | none => none
    | some w' => World.run ms w'

end Sys2Proof.Machine
end

