-- ==== Sys2Proof/Safety.lean ====
section
/-! DEFINITION. What a legal state and a safe run are, in the terms claims use: the invariants of 10_state.md R27, R29 and R33, the
fault record of 60_exceptions.md R222, quiescence (70_reset_and_hazards.md R275), and the part of a state that can be observed. -/

namespace Sys2Proof.Machine

/-! ## Invariants -/

/-- The sequence number of the i-th live entry, `(A.nextseqnum − A.windowcount + i) mod S` (R27). -/
def Sender.liveSeq (a : Sender) (s i : Nat) : Nat := (a.nextseqnum + s - a.windowcount + i) % s

/-- The slot arrays have W slots and the registers lie in their ranges (R21 to R26). -/
abbrev Sender.RangesOk (a : Sender) (w s : Nat) : Prop :=
  a.wbuf.length = w ∧ a.ack.length = w ∧ a.windowfirst < w ∧ a.windowlast < w ∧ a.windowcount ≤ w ∧ a.nextseqnum < s

/-- `A.windowlast = (A.windowfirst + A.windowcount − 1) mod W` (R27). -/
abbrev Sender.LastOk (a : Sender) (w : Nat) : Prop := a.windowlast = (a.windowfirst + a.windowcount + w - 1) % w

/-- Live entries carry consecutive sequence numbers in window order, the newest `A.nextseqnum − 1` (R27). -/
abbrev Sender.SeqsOk (a : Sender) (w s : Nat) : Prop :=
  ∀ i, i < a.windowcount → (a.packet (a.wslot w i)).seqnum = BitVec.ofNat 32 (a.liveSeq s i)

/-- Every slot that is not live has `A.ACK = 0` (R27). -/
abbrev Sender.DeadUnacked (a : Sender) (w : Nat) : Prop := ∀ k, k < w → a.live w k = false → a.acked k = false

/-- The front of a non-empty window is unacked (R27). -/
abbrev Sender.FrontUnacked (a : Sender) : Prop := 0 < a.windowcount → a.acked a.windowfirst = false

/-- The sender invariants (R27). -/
abbrev Sender.Inv (a : Sender) (w s : Nat) : Prop :=
  a.RangesOk w s ∧ a.LastOk w ∧ a.SeqsOk w s ∧ a.DeadUnacked w ∧ a.FrontUnacked

/-- The receiver invariants: W slots, the cursor and every valid slot's number in [0, S) (R30, R33). -/
abbrev Receiver.Inv (b : Receiver) (w s : Nat) : Prop :=
  b.rbuf.length = w ∧ b.expectedseqnum < s ∧ ∀ k, k < w → (b.slot k).valid = true → (b.slot k).seq < s

/-- The timer invariant (R29). -/
abbrev State.TimerOk (s : State) : Prop := s.tmrArmed = true ↔ 0 < s.a.windowcount

/-- Everything the spec says of every reachable state, for legal parameters. -/
abbrev State.Inv (s : State) : Prop :=
  s.par.Legal ∧ s.a.Inv s.par.w s.par.s ∧ s.b.Inv s.par.w s.par.s ∧ s.TimerOk

/-- Every payload the slot arrays hold has 20 bytes (R21, R32, 20_memory.md R62). -/
abbrev State.PayloadsOk (s : State) : Prop :=
  (∀ p, p ∈ s.a.wbuf → p.payload.length = Config.payloadLen) ∧
    ∀ sl, sl ∈ s.b.rbuf → sl.payload.length = Config.payloadLen

/-! ## The fault record and the end of a run -/

/-- "No fault recorded": STATUS[3:1] = 0 (60_exceptions.md R222). -/
abbrev State.NoFaultRecorded (s : State) : Prop := s.err = Sticky.clear

/-- The block's part of quiescence (70_reset_and_hazards.md R275): no further command, the window empty, the timer not armed, no valid
slot, no fault recorded. The channels' part is `World.Quiescent`. -/
abbrev State.Quiescent (s : State) : Prop :=
  s.pending = [] ∧ s.a.windowcount = 0 ∧ s.tmrArmed = false ∧ occupancy s.b = 0 ∧ s.NoFaultRecorded

/-- Quiescence (R275): the block's part, and no packet in flight in either direction. -/
abbrev World.Quiescent (w : World) : Prop := w.block.Quiescent ∧ w.chanAB = [] ∧ w.chanBA = []

/-- The block's timer record and the timer collaborator agree (10_state.md R28, 60_exceptions.md R226): a start is outstanding exactly where
TMR_ARMED says so, and a running timer runs for that start. -/
abbrev World.TimerAgrees (w : World) : Prop :=
  w.outstanding.isSome = w.block.tmrArmed ∧ (w.timer = none ∨ w.timer = w.outstanding)

/-! ## What can be observed -/

/-- The sender with the packets of slots that are not live replaced by one fixed packet: what is left is what R21 lets a rule read. -/
def Sender.observed (a : Sender) (w : Nat) : Sender :=
  { a with wbuf := a.wbuf.mapIdx (fun k p => if a.live w k then p else Packet.unspecified) }

/-- The receiver with the seq and payload of free slots replaced by fixed ones: what is left is what R32 lets a rule read. -/
def Receiver.observed (b : Receiver) : Receiver :=
  { b with rbuf := b.rbuf.map (fun sl => if sl.valid then sl else Slot.empty) }

/-- The state with the contents the spec calls unobservable replaced by fixed ones (R21, R32, R38). -/
def State.observed (s : State) : State := { s with a := s.a.observed s.par.w, b := s.b.observed }

/-! ## Runs of commands -/

/-- The outcome of executing commands one after another. -/
def execAll : List Instr → State → Host.Outcome State Fault Refusal
  | [], s => .next s
  | i :: is, s =>
    match exec i s with
    | .next t => execAll is t
    | .fault r => .fault r
    | .refused r => .refused r

/-- The payloads delivered to the application among a list of events, in order. -/
def deliveredPayloads (evs : List Event) : List Payload :=
  evs.filterMap (fun e => match e with
    | .deliver d => some d
    | .txA _ => none
    | .txB _ => none
    | .tmrStart _ => none
    | .tmrStop => none)

/-- The timer as the events of one command drive it, from armed or not: none where a start meets a running timer or a stop an idle one,
which SRA's single-timer rule forbids (60_exceptions.md R226). -/
def timerAfter : Bool → List Event → Option Bool
  | armed, [] => some armed
  | armed, .txA _ :: es => timerAfter armed es
  | armed, .txB _ :: es => timerAfter armed es
  | armed, .deliver _ :: es => timerAfter armed es
  | armed, .tmrStart _ :: es => if armed then none else timerAfter true es
  | armed, .tmrStop :: es => if armed then timerAfter false es else none

/-! ## Legality, as R87 writes it -/

/-- LEN(OPC) as R83 words it: 20 for A_SUBMIT, 32 for A_ACK_IN, B_PKT_IN and CHK_EVAL, 0 for every other assigned opcode. -/
def specLen (opc : Byte) : Nat :=
  if opc = 0x11#8 then 20 else if opc = 0x12#8 ∨ opc = 0x21#8 ∨ opc = 0x30#8 then 32 else 0

/-- `legal(CW, OPND)` (30_encoding.md R87). -/
abbrev LegalCommand (c : Command) : Prop :=
  c.cw.extractLsb' 0 8 ∈ [0x00#8, 0x10#8, 0x11#8, 0x12#8, 0x13#8, 0x20#8, 0x21#8, 0x30#8, 0x40#8] ∧
    c.cw.extractLsb' 8 8 = 0#8 ∧ c.cw.extractLsb' 24 8 = 0#8 ∧
    (c.cw.extractLsb' 0 8 = 0x40#8 ∨ c.cw.extractLsb' 16 8 = 0#8) ∧
    c.opnd.length = specLen (c.cw.extractLsb' 0 8)

/-! ## The pieces of a reply -/

/-- RSP[7:0] (R89). -/
def Reply.statusField (r : Reply) : Byte := r.response.rsp.extractLsb' 0 8

/-- RSP[15:8] (R89). -/
def Reply.countField (r : Reply) : Byte := r.response.rsp.extractLsb' 8 8

/-- The packets TX_A sends among a list of events, in order. -/
def sentByA (evs : List Event) : List Packet :=
  evs.filterMap (fun e => match e with
    | .txA p => some p
    | .txB _ => none
    | .deliver _ => none
    | .tmrStart _ => none
    | .tmrStop => none)

/-- The next state of a command that changes nothing and answers one reply without events. -/
def State.answered (s : State) (rsp : Word) (data : Option Word) : State :=
  { s with replies := s.replies ++ [⟨⟨rsp, data⟩, []⟩] }

/-- REG_READ of an index answers OK with the value and changes nothing (10_state.md R36, 43_control.md R201). -/
abbrev ReadsAs (s : State) (idx : Byte) (v : Word) : Prop :=
  exec (.regRead idx) s = .next (s.answered 0x00000000#32 (some v))

/-- The register indices `assigned(idx)` accepts (43_control.md R201). -/
abbrev AssignedIndex (w : Nat) (n : Nat) : Prop :=
  n ≤ 0x03 ∨ (0x08 ≤ n ∧ n ≤ 0x0C) ∨ (0x10 ≤ n ∧ n ≤ 0x14) ∨ (0x18 ≤ n ∧ n ≤ 0x1A) ∨
    (0x40 ≤ n ∧ n < 0x40 + w) ∨ (0x60 ≤ n ∧ n < 0x60 + w)

/-! ## Families of commands -/

/-- The sender's commands. -/
def senderCommand : Instr → Bool
  | .nop => false
  | .aInit => true
  | .aSubmit _ => true
  | .aAckIn _ => true
  | .aTimeout => true
  | .bInit => false
  | .bPktIn _ => false
  | .chkEval _ => false
  | .regRead _ => false

/-- The receiver's commands. -/
def receiverCommand : Instr → Bool
  | .nop => false
  | .aInit => false
  | .aSubmit _ => false
  | .aAckIn _ => false
  | .aTimeout => false
  | .bInit => true
  | .bPktIn _ => true
  | .chkEval _ => false
  | .regRead _ => false

/-- The packets a list of commands brings to the receiver, in order. -/
def packetsIn (cmds : List Instr) : List Packet :=
  cmds.filterMap (fun i => match i with
    | .bPktIn p => some p
    | .nop => none
    | .aInit => none
    | .aSubmit _ => none
    | .aAckIn _ => none
    | .aTimeout => none
    | .bInit => none
    | .chkEval _ => none
    | .regRead _ => none)

/-! ## Buffer capacity (42_receiver.md R176) -/

/-- The receive offset of a sequence number, `(seq − B.expectedseqnum + S) mod S`. -/
def Receiver.seqOffset (b : Receiver) (s seq : Nat) : Nat := (seq + s - b.expectedseqnum) % s

/-- Every valid slot has an offset in [1, W − 1] and a distinct sequence number (R176). -/
abbrev Receiver.Fresh (b : Receiver) (w s : Nat) : Prop :=
  (∀ k, k < w → (b.slot k).valid = true → 1 ≤ b.seqOffset s (b.slot k).seq ∧ b.seqOffset s (b.slot k).seq ≤ w - 1) ∧
    ∀ k, k < w → ∀ j, j < k → (b.slot k).valid = true → (b.slot j).valid = true → (b.slot k).seq ≠ (b.slot j).seq

end Sys2Proof.Machine
end

