-- ==== Sys2Proof/Certificates/Slice0/Obligations.lean ====
section
/-! DEFINITION. The statements for the provers. Each formalises or rests on the numbered rules its docstring names. Where a statement
answers a whole next state, that record is also its frame: every field it does not name is unchanged. -/

open Sys2Proof Sys2Proof.Machine

/-! ## Encoding and decoding -/

/-- Words written out from 30_encoding.md R81 to R85 decode to the commands they stand for, one per family, and two words R87 makes illegal
are refused; the names the decoder gives the reasons are the model's choice, log entry 15. -/
def Obligations.WrittenOutWordsDecode : Prop :=
  decode ⟨0x00000000#32, []⟩ = .ok .nop ∧
  decode ⟨0x00000010#32, []⟩ = .ok .aInit ∧
  decode ⟨0x00000011#32, List.replicate 20 0x61#8⟩ = .ok (.aSubmit (List.replicate 20 0x61#8)) ∧
  decode ⟨0x00000012#32, [0x01#8, 0#8, 0#8, 0#8, 0x02#8, 0x03#8, 0#8, 0#8, 0xC3#8, 0x03#8, 0#8, 0x80#8] ++ List.replicate 20 0x30#8⟩ =
    .ok (.aAckIn ⟨0x00000001#32, 0x00000302#32, 0x800003C3#32, List.replicate 20 0x30#8⟩) ∧
  decode ⟨0x00000020#32, []⟩ = .ok .bInit ∧
  decode ⟨0x00130040#32, []⟩ = .ok (.regRead 0x13#8) ∧
  decode ⟨0x00010010#32, []⟩ = .error .regNotZero ∧
  decode ⟨0x00000040#32, [0#8]⟩ = .error .operandLength

/-- Decoding an encoded well-formed command gives it back, as a transaction and as bytes, for every command and every operand. -/
def Obligations.DecodeOfEncodeIsIdentity : Prop :=
  ∀ i : Instr, i.wf = true → decode (encode i) = .ok i ∧ decodeBytes (encodeBytes i) = .ok i

/-- Each legal command has one spelling: what decodes is well-formed and encodes back to the same command word and operand. -/
def Obligations.EncodeOfDecodeIsIdentity : Prop :=
  ∀ (c : Command) (i : Instr), decode c = .ok i → i.wf = true ∧ encode i = c

/-- The packet layout (R62): seqnum, acknum and checksum at bytes 0, 4 and 8, least significant byte first, then the payload; 32 bytes; and
every 32-byte string is the layout of exactly the packet it spells. -/
def Obligations.PacketLayout : Prop :=
  (∀ p : Packet, bytesOfPacket p =
      [p.seqnum.extractLsb' 0 8, p.seqnum.extractLsb' 8 8, p.seqnum.extractLsb' 16 8, p.seqnum.extractLsb' 24 8,
       p.acknum.extractLsb' 0 8, p.acknum.extractLsb' 8 8, p.acknum.extractLsb' 16 8, p.acknum.extractLsb' 24 8,
       p.checksum.extractLsb' 0 8, p.checksum.extractLsb' 8 8, p.checksum.extractLsb' 16 8, p.checksum.extractLsb' 24 8]
        ++ p.payload ∧ packetOfBytes (bytesOfPacket p) = p) ∧
  ∀ bs : List Byte, bs.length = 32 → (packetOfBytes bs).wf = true ∧ bytesOfPacket (packetOfBytes bs) = bs

/-- A word of spec/opcode_table.json placed by `State.withFetchWord` is what the next step runs: the command the decoder reads from it, the
queue behind it as before. The placing is the model's own, log entries 5 and 14. -/
def Obligations.TableWordRunsNext : Prop :=
  ∀ (s : State) (nbits w : Nat),
    (∀ i, decodeTableWord nbits w = some i → step (s.withFetchWord nbits w) = exec i s) ∧
    (decodeTableWord nbits w = none → step (s.withFetchWord nbits w) = execIllegal s)

/-- R87: the decoder accepts a command exactly where `legal(CW, OPND)` holds, and any other command is executed as an illegal one
whatever its opcode. -/
def Obligations.LegalityDecidesExecution : Prop :=
  (∀ c : Command, (∃ i, decode c = .ok i) ↔ LegalCommand c) ∧
  ∀ (s : State) (c : Command) (rest : List Stimulus), s.pending = .command c :: rest → ¬ LegalCommand c →
    step s = execIllegal (s.taken rest)

/-! ## The step -/

/-- A step whose pending stimulus is a command that decodes to `i` is `exec i` on the state with that stimulus taken. -/
def Obligations.StepRunsTheDecodedCommand : Prop :=
  ∀ (s : State) (c : Command) (rest : List Stimulus) (i : Instr), s.pending = .command c :: rest → decode c = .ok i →
    step s = exec i { s with pending := rest }

/-- R202: an illegal command sets ERR_ILLEGAL, responds ERR_ILLEGAL_CMD in 4 bytes with no DATA word, and writes nothing else; the
operand is discarded unread. Its corner cases, its example and its permanent mark are stated too. -/
def Obligations.IllegalCommandOnlyMarks : Prop :=
  (∀ (s : State) (c : Command) (rest : List Stimulus), s.pending = .command c :: rest → ¬ LegalCommand c →
    step s = .next { s with
      pending := rest
      err := { s.err with illegal := true }
      replies := s.replies ++ [⟨⟨0x00000080#32, none⟩, []⟩] }) ∧
  bytesOfResponse ⟨0x00000080#32, none⟩ = [0x80#8, 0x00#8, 0x00#8, 0x00#8] ∧
  (∀ (cw : Word) (opnd : List Byte), opnd.length ≠ specLen (cw.extractLsb' 0 8) → ¬ LegalCommand ⟨cw, opnd⟩) ∧
  (∀ (cw : Word) (opnd : List Byte), cw.extractLsb' 0 8 ≠ 0x40#8 → cw.extractLsb' 16 8 ≠ 0#8 → ¬ LegalCommand ⟨cw, opnd⟩) ∧
  (∀ (cw : Word) (opnd : List Byte), (cw.extractLsb' 8 8 ≠ 0#8 ∨ cw.extractLsb' 24 8 ≠ 0#8) → ¬ LegalCommand ⟨cw, opnd⟩) ∧
  (∀ s : State, s.pending = [.command ⟨0x000000FF#32, []⟩, .command ⟨0x00020040#32, []⟩] →
    ∃ t u v, step s = .next t ∧ step t = .next u ∧
      u.replies = s.replies ++ [⟨⟨0x00000080#32, none⟩, []⟩, ⟨⟨0x00000000#32, some v⟩, []⟩] ∧ v.getLsbD 1 = true) ∧
  ∀ s t : State, s.err.illegal = true → step s = .next t → (t.err.illegal = false ↔ s.pending.head? = some .reset)

/-- R260 and R261: the reset input sets every state element to its reset value, whatever the state before, with no event and no response.
The unspecified contents of A.WBUF and of free receiver slots are not stated. The parameters stay (R262). That the host's queue stays is the
model's choice, log entry 11. -/
def Obligations.ResetInputResetsEveryElement : Prop :=
  ∀ (s : State) (rest : List Stimulus), s.pending = .reset :: rest →
    ∃ t, step s = .next t ∧ t.par = s.par ∧ t.pending = rest ∧ t.replies = s.replies ∧
      t.a.windowfirst = 0 ∧ t.a.windowlast = s.par.w - 1 ∧ t.a.windowcount = 0 ∧ t.a.nextseqnum = 0 ∧
      t.a.ack = List.replicate s.par.w false ∧ t.a.wbuf.length = s.par.w ∧ t.tmrArmed = false ∧
      t.b.expectedseqnum = 0 ∧ t.b.nextackseq = s.par.ackSeqReset ∧ t.b.rbuf.length = s.par.w ∧
      (∀ k, (t.b.slot k).valid = false) ∧ t.cnt = ⟨0#32, 0#32, 0#32, 0#32, 0#32⟩ ∧ t.err = ⟨false, false, false⟩

/-- With nothing pending the block holds its state (60_exceptions.md R234, 70_reset_and_hazards.md R264). That a step exists there is the
model's choice, log entry 5. -/
def Obligations.IdleBlockHoldsItsState : Prop := ∀ s : State, s.pending = [] → step s = .next s

/-- "No condition in this core is fatal" (R221): every step goes on, takes at most the first pending stimulus, and leaves the parameters as
they are (R262). That an idle block steps at all, and that the host's queue is what it was but for the stimulus taken, across reset too, are the
model's choices, log entries 5 and 11. -/
def Obligations.EveryStepGoesOn : Prop :=
  ∀ s : State, ∃ t, step s = .next t ∧ t.pending = s.pending.tail ∧ t.par = s.par

/-- R89: every command, legal or illegal, produces exactly one response; RSP[31:16] is 0; DATA is there for a legal REG_READ or CHK_EVAL only
and is 0 with ERR_BAD_REG; the bytes are STATUS, COUNT, 0, 0, then DATA least significant byte first where there is one. -/
def Obligations.ExactlyOneResponsePerCommand : Prop :=
  ∀ (s : State) (c : Command) (rest : List Stimulus), s.pending = .command c :: rest →
    ∃ t r, step s = .next t ∧ t.replies = s.replies ++ [r] ∧
      r.response.rsp.extractLsb' 16 16 = 0#16 ∧
      (r.response.data.isSome = true ↔
        ∃ i, decode c = .ok i ∧ (instrOpcode i = .chkEval ∨ instrOpcode i = .regRead)) ∧
      (r.statusField = 0x81#8 → r.response.data = some 0#32) ∧
      (r.response.data = none → bytesOfResponse r.response = [r.statusField, r.countField, 0#8, 0#8]) ∧
      ∀ d, r.response.data = some d → bytesOfResponse r.response = [r.statusField, r.countField, 0#8, 0#8,
        d.extractLsb' 0 8, d.extractLsb' 8 8, d.extractLsb' 16 8, d.extractLsb' 24 8]

/-- The status codes each command can produce (R90); no other code is ever produced. -/
def Obligations.StatusCodesByCommand : Prop :=
  (∀ (s : State) (i : Instr), ∃ t r, exec i s = .next t ∧ t.replies = s.replies ++ [r] ∧
    r.statusField ∈ (match i with
      | .nop => [0x00#8]
      | .aInit => [0x00#8]
      | .aSubmit _ => [0x00#8, 0x01#8]
      | .aAckIn _ => [0x02#8, 0x03#8, 0x04#8]
      | .aTimeout => [0x00#8, 0x82#8]
      | .bInit => [0x00#8]
      | .bPktIn _ => [0x02#8, 0x05#8, 0x06#8, 0x07#8, 0x08#8]
      | .chkEval _ => [0x00#8, 0x02#8]
      | .regRead _ => [0x00#8, 0x81#8])) ∧
  ∀ s : State, ∃ t r, execIllegal s = .next t ∧ t.replies = s.replies ++ [r] ∧ r.statusField = 0x80#8

/-- R91: COUNT is the number of slots an ack's slide freed, of packets a timeout retransmitted, of payloads delivered, and 0 in every other
case; at most W + 1, which is at most 33, so it fits its 8 bits. -/
def Obligations.CountFieldCounts : Prop :=
  (∀ (s : State) (i : Instr), s.Inv → ∃ t r, exec i s = .next t ∧ t.replies = s.replies ++ [r] ∧
    r.countField.toNat ≤ s.par.w + 1 ∧ s.par.w + 1 ≤ 33 ∧
    r.countField.toNat = (match i with
      | .nop => 0
      | .aInit => 0
      | .aSubmit _ => 0
      | .aAckIn _ => s.a.windowcount - t.a.windowcount
      | .aTimeout => (sentByA r.events).length
      | .bInit => 0
      | .bPktIn _ => (deliveredPayloads r.events).length
      | .chkEval _ => 0
      | .regRead _ => 0)) ∧
  ∀ s : State, ∃ t r, execIllegal s = .next t ∧ t.replies = s.replies ++ [r] ∧ r.countField = 0#8

/-- The replies are a history (20_memory.md R70, the model's own record of it, log entry 6): every step keeps all earlier replies, so every
event of an earlier command precedes every event of a later one, and adds at most one. -/
def Obligations.EventsOfEarlierCommandsComeFirst : Prop :=
  ∀ s t : State, step s = .next t →
    (t.replies = s.replies ∧ t.emitted = s.emitted) ∨
      ∃ r, t.replies = s.replies ++ [r] ∧ t.emitted = s.emitted ++ r.events

/-! ## Checksum unit -/

/-- The integer sum of R110 narrowed to 32 bits is the 32-bit sum of the words and the extended bytes, and the checksum field does not
enter it. -/
def Obligations.ChecksumIsTheWrappingSum : Prop :=
  ∀ (par : Params) (p : Packet),
    checksum par p = p.seqnum + p.acknum +
      (p.payload.map (fun b => if par.chkByteSigned then b.signExtend 32 else b.zeroExtend 32)).sum ∧
    ∀ x, checksum par { p with checksum := x } = checksum par p

/-- R115: a valid packet changed in exactly one 32-bit field, in the checksum field alone, or in exactly one payload byte is corrupt; a
change whose contributions cancel modulo 2^32 is not seen, such as a reordering of the payload or seqnum + 1 with acknum − 1. -/
def Obligations.ChecksumDetectionLaw : Prop :=
  ∀ (par : Params) (p : Packet), corrupt par p = false →
    (∀ x, x ≠ p.seqnum → corrupt par { p with seqnum := x } = true) ∧
    (∀ x, x ≠ p.acknum → corrupt par { p with acknum := x } = true) ∧
    (∀ x, x ≠ p.checksum → corrupt par { p with checksum := x } = true) ∧
    (∀ l1 l2 b b', p.payload = l1 ++ b :: l2 → b' ≠ b → corrupt par { p with payload := l1 ++ b' :: l2 } = true) ∧
    (∀ q : Packet, q.checksum = p.checksum →
      (q.seqnum.toInt + q.acknum.toInt + (q.payload.map (byteval par.chkByteSigned)).sum) % 2 ^ 32 =
        (p.seqnum.toInt + p.acknum.toInt + (p.payload.map (byteval par.chkByteSigned)).sum) % 2 ^ 32 →
      corrupt par q = false) ∧
    (∀ d, d.Perm p.payload → corrupt par { p with payload := d } = false) ∧
    corrupt par { p with seqnum := p.seqnum + 1#32, acknum := p.acknum - 1#32 } = false

/-- CHK_EVAL completes: DATA is the checksum, the status the verdict, and nothing is written (R114). -/
def Obligations.ChkEvalReportsTheChecksum : Prop :=
  ∀ (s : State) (p : Packet), exec (.chkEval p) s =
    .next (s.answered (if p.checksum = checksum s.par p then 0x00000000#32 else 0x00000002#32) (some (checksum s.par p)))

/-- A corrupted packet is treated as if it never arrived: A_ACK_IN and B_PKT_IN respond CORRUPT and change nothing, with no ack, event or
counter (R220, R223). -/
def Obligations.CorruptedPacketsAreIgnored : Prop :=
  ∀ (s : State) (p : Packet), corrupt s.par p = true →
    exec (.aAckIn p) s = .next (s.answered 0x00000002#32 none) ∧
    exec (.bPktIn p) s = .next (s.answered 0x00000002#32 none)

/-! ## Sender engine A -/

/-- A_INIT completes: the five sender registers and every flag at their initial values, TMR_STOP if and only if the timer was armed, and
nothing else written (R130). -/
def Obligations.AInitResetsTheSender : Prop :=
  ∀ s : State, exec .aInit s = .next { s with
    a := ⟨s.a.wbuf, List.replicate s.par.w false, 0, s.par.w - 1, 0, 0⟩
    tmrArmed := false
    replies := s.replies ++ [⟨⟨0x00000000#32, none⟩, if s.tmrArmed then [.tmrStop] else []⟩] }

/-- A_SUBMIT on a full window completes: the message is dropped, CNT_WINDOW_FULL counts it, nothing else changes and no event is emitted
(R131). -/
def Obligations.SubmitToAFullWindowIsRejected : Prop :=
  ∀ (s : State) (m : Message), s.a.windowcount = s.par.w → exec (.aSubmit m) s = .next { s with
    cnt := { s.cnt with windowFull := s.cnt.windowFull + 1#32 }
    replies := s.replies ++ [⟨⟨0x00000001#32, none⟩, []⟩] }

/-- A_SUBMIT on a window with room completes: the packet R131 builds is stored unacked at the next circular slot and transmitted, the
timer is started if the window was empty, and every other slot keeps its packet and its flag. -/
def Obligations.SubmitStoresAndTransmits : Prop :=
  ∀ (s : State) (m : Message), s.a.windowcount ≠ s.par.w → 0 < s.par.w → s.a.wbuf.length = s.par.w → s.a.ack.length = s.par.w →
    ∃ t p, exec (.aSubmit m) s = .next t ∧
      p = ⟨BitVec.ofNat 32 s.a.nextseqnum, s.par.notInUse, checksum s.par p, m⟩ ∧
      t.a.windowlast = (s.a.windowlast + 1) % s.par.w ∧
      t.a.packet t.a.windowlast = p ∧ t.a.acked t.a.windowlast = false ∧
      (∀ k, k ≠ t.a.windowlast → t.a.packet k = s.a.packet k ∧ t.a.acked k = s.a.acked k) ∧
      t.a.windowfirst = s.a.windowfirst ∧ t.a.windowcount = s.a.windowcount + 1 ∧
      t.a.nextseqnum = (s.a.nextseqnum + 1) % s.par.s ∧
      t.tmrArmed = (s.tmrArmed || decide (s.a.windowcount = 0)) ∧
      t.replies = s.replies ++
        [⟨⟨0x00000000#32, none⟩, if s.a.windowcount = 0 then [.txA p, .tmrStart s.par.rtt] else [.txA p]⟩] ∧
      t.b = s.b ∧ t.cnt = s.cnt ∧ t.err = s.err ∧ t.par = s.par ∧ t.pending = s.pending

/-- The slot an accepted submission fills, `(A.windowlast + 1) mod W`, is `wslot(A.windowcount)`, and it is not live (R61). -/
def Obligations.NextInsertionSlotIsTheFirstFreeOne : Prop :=
  ∀ s : State, s.Inv → (s.a.windowlast + 1) % s.par.w = s.a.wslot s.par.w s.a.windowcount ∧
    (s.a.windowcount < s.par.w → s.a.live s.par.w ((s.a.windowlast + 1) % s.par.w) = false)

/-- R136: a valid ack that matches no unacked live entry completes and changes no protocol state. It writes CNT_ACKS_RX, and TMR_ARMED ends
with the value it had: the timer is stopped and restarted when the window is non-empty, and neither when it is empty. -/
def Obligations.AckMatchingNothingIsIdempotent : Prop :=
  ∀ (s : State) (p : Packet), s.Inv → corrupt s.par p = false →
    (∀ i, i < s.a.windowcount → s.a.acked (s.a.wslot s.par.w i) = false →
      (s.a.packet (s.a.wslot s.par.w i)).seqnum ≠ p.acknum) →
    exec (.aAckIn p) s = .next { s with
      cnt := { s.cnt with acksRx := s.cnt.acksRx + 1#32 }
      replies := s.replies ++
        [⟨⟨0x00000004#32, none⟩, if 0 < s.a.windowcount then [.tmrStop, .tmrStart s.par.rtt] else []⟩] }

/-- R133, the window-front-collapse law: an ack for an unacked live entry other than the front sets its flag and frees nothing; an ack for
the front frees exactly the longest run of acked entries from the front, clearing the flags of the slots it frees. Both complete. -/
def Obligations.WindowFrontCollapse : Prop :=
  ∀ (s : State) (p : Packet) (i : Nat), s.Inv → corrupt s.par p = false → i < s.a.windowcount →
    s.a.acked (s.a.wslot s.par.w i) = false → (s.a.packet (s.a.wslot s.par.w i)).seqnum = p.acknum →
    (0 < i → exec (.aAckIn p) s = .next { s with
      a := { s.a with ack := s.a.ack.set (s.a.wslot s.par.w i) true }
      cnt := { s.cnt with acksRx := s.cnt.acksRx + 1#32, newAcks := s.cnt.newAcks + 1#32 }
      replies := s.replies ++ [⟨⟨0x00000003#32, none⟩, [.tmrStop, .tmrStart s.par.rtt]⟩] }) ∧
    (i = 0 → ∃ n t, exec (.aAckIn p) s = .next t ∧
      0 < n ∧ n ≤ s.a.windowcount ∧
      (∀ j, 0 < j → j < n → s.a.acked (s.a.wslot s.par.w j) = true) ∧
      (n < s.a.windowcount → s.a.acked (s.a.wslot s.par.w n) = false) ∧
      t.a.windowcount = s.a.windowcount - n ∧ t.a.windowfirst = s.a.wslot s.par.w n ∧
      (∀ k, t.a.acked k = (s.a.acked k && decide (∀ j, j < n → k ≠ s.a.wslot s.par.w j))) ∧
      t.a.wbuf = s.a.wbuf ∧ t.a.windowlast = s.a.windowlast ∧ t.a.nextseqnum = s.a.nextseqnum ∧
      t.tmrArmed = decide (n < s.a.windowcount) ∧
      t.cnt = { s.cnt with acksRx := s.cnt.acksRx + 1#32, newAcks := s.cnt.newAcks + 1#32 } ∧
      t.replies = s.replies ++ [⟨⟨BitVec.ofNat 32 (256 * n + 3), none⟩,
        if n < s.a.windowcount then [.tmrStop, .tmrStart s.par.rtt] else [.tmrStop]⟩] ∧
      t.b = s.b ∧ t.err = s.err ∧ t.par = s.par ∧ t.pending = s.pending)

/-- An ack is new exactly where its acknum is, as a whole 32-bit word, the sequence number of a currently unacked live entry (R137). -/
def Obligations.AckIsNewExactlyOnAMatch : Prop :=
  ∀ (s : State) (p : Packet), corrupt s.par p = false →
    ∃ t r, exec (.aAckIn p) s = .next t ∧ t.replies = s.replies ++ [r] ∧
      (r.statusField = 0x03#8 ↔ ∃ i, i < s.a.windowcount ∧ s.a.acked (s.a.wslot s.par.w i) = false ∧
        (s.a.packet (s.a.wslot s.par.w i)).seqnum = p.acknum) ∧
      (r.statusField = 0x03#8 ∨ r.statusField = 0x04#8)

/-- What A_ACK_IN never writes (R132): A.WBUF, windowlast, nextseqnum, the receiver, the sticky bits and the other counters. -/
def Obligations.AckFrame : Prop :=
  ∀ (s t : State) (p : Packet), exec (.aAckIn p) s = .next t →
    t.a.wbuf = s.a.wbuf ∧ t.a.windowlast = s.a.windowlast ∧ t.a.nextseqnum = s.a.nextseqnum ∧
      t.b = s.b ∧ t.err = s.err ∧ t.par = s.par ∧ t.pending = s.pending ∧
      t.cnt.retx = s.cnt.retx ∧ t.cnt.delivered = s.cnt.delivered ∧ t.cnt.windowFull = s.cnt.windowFull

/-- Every valid ack that leaves the window non-empty, a duplicate too, stops the timer and starts it again (R267). -/
def Obligations.AckPostponesTheTimer : Prop :=
  ∀ (s t : State) (p : Packet), s.Inv → corrupt s.par p = false → exec (.aAckIn p) s = .next t → 0 < t.a.windowcount →
    ∃ r, t.replies = s.replies ++ [r] ∧ r.events = [.tmrStop, .tmrStart s.par.rtt] ∧ t.tmrArmed = true

/-- A_TIMEOUT with no timer start outstanding: ERR_TIMER_IDLE, the sticky bit ERR_TIMER, nothing else (R134, R222). -/
def Obligations.TimeoutOnAnIdleTimerOnlyMarks : Prop :=
  ∀ s : State, s.tmrArmed = false → exec .aTimeout s = .next { s with
    err := { s.err with timer := true }
    replies := s.replies ++ [⟨⟨0x00000082#32, none⟩, []⟩] }

/-- A_TIMEOUT with the timer armed completes: every unacked live entry's original packet in window order, then a timer start if the window
is non-empty; the window is not written (R134). The window has at most W ≤ 32 entries. -/
def Obligations.TimeoutRetransmitsUnackedEntries : Prop :=
  ∀ s : State, s.tmrArmed = true →
    ∃ sent, sent = ((List.range s.a.windowcount).filter (fun i => !s.a.acked ((s.a.windowfirst + i) % s.par.w))).map
        (fun i => s.a.packet ((s.a.windowfirst + i) % s.par.w)) ∧
      exec .aTimeout s = .next { s with
        tmrArmed := decide (0 < s.a.windowcount)
        cnt := { s.cnt with retx := s.cnt.retx + BitVec.ofNat 32 sent.length }
        replies := s.replies ++ [⟨⟨(0#16) ++ BitVec.ofNat 8 sent.length ++ 0x00#8, none⟩,
          sent.map (fun p => Event.txA p) ++ if 0 < s.a.windowcount then [.tmrStart s.par.rtt] else []⟩] }

/-- R135 with R130: every A_TIMEOUT executed with the timer armed retransmits at least one packet, the front entry first, and ends with the timer
armed. It leaves the window as it was, and no command but A_INIT and a valid ack for the front removes the front or disarms the timer, so
every later expiry retransmits it again. -/
def Obligations.ArmedTimeoutResendsTheFront : Prop :=
  (∀ s : State, s.Inv → s.tmrArmed = true →
    ∃ t r evs, exec .aTimeout s = .next t ∧ t.replies = s.replies ++ [r] ∧
      r.events = .txA (s.a.packet s.a.windowfirst) :: evs ∧ t.tmrArmed = true ∧ t.a = s.a) ∧
  ∀ (s t : State) (i : Instr), s.Inv → s.tmrArmed = true → i ≠ .aInit →
    (∀ p, i = .aAckIn p → corrupt s.par p = false → p.acknum ≠ (s.a.packet s.a.windowfirst).seqnum) →
    exec i s = .next t →
    t.tmrArmed = true ∧ t.a.windowfirst = s.a.windowfirst ∧
      t.a.packet t.a.windowfirst = s.a.packet s.a.windowfirst ∧ t.a.acked t.a.windowfirst = false

/-! ## Receiver engine B -/

/-- B_INIT completes: the cursor 0, nextackseq at its reset value, every valid bit cleared, nothing else written (R170). -/
def Obligations.BInitResetsTheReceiver : Prop :=
  ∀ s : State, ∃ t, exec .bInit s = .next t ∧
    t.b.expectedseqnum = 0 ∧ t.b.nextackseq = s.par.ackSeqReset ∧ t.b.rbuf.length = s.b.rbuf.length ∧
    (∀ k, (t.b.slot k).valid = false) ∧
    t.a = s.a ∧ t.tmrArmed = s.tmrArmed ∧ t.cnt = s.cnt ∧ t.err = s.err ∧ t.par = s.par ∧ t.pending = s.pending ∧
    t.replies = s.replies ++ [⟨⟨0x00000000#32, none⟩, []⟩]

/-- R172: every valid packet is acknowledged before anything else. The ack carries nextackseq before the toggle, the packet's seqnum and 20
bytes of ACK_FILL, is sealed, and is the only one; nextackseq toggles. With the default fill its checksum is q + n + 960. -/
def Obligations.EveryValidPacketIsAcknowledgedFirst : Prop :=
  ∀ (s : State) (p : Packet), corrupt s.par p = false →
    ∃ t r a evs, exec (.bPktIn p) s = .next t ∧ t.replies = s.replies ++ [r] ∧ r.events = .txB a :: evs ∧
      a.seqnum = s.b.nextackseq.zeroExtend 32 ∧ a.acknum = p.seqnum ∧ a.payload = List.replicate 20 s.par.ackFill ∧
      a.checksum = checksum s.par a ∧ (∀ x, Event.txB x ∉ evs) ∧ t.b.nextackseq = 1#1 - s.b.nextackseq ∧
      (s.par.ackFill = 0x30#8 → a.checksum = s.b.nextackseq.zeroExtend 32 + p.seqnum + 960#32)

/-- R175: a valid packet outside the receive window, its seqnum out of [0, S) or its offset W or more, changes nothing beyond the ack of
R172 and is answered RX_OUTSIDE. It completes. -/
def Obligations.OutsideTheWindowOnlyAcks : Prop :=
  ∀ (s : State) (p : Packet), s.par.Legal → corrupt s.par p = false →
    (p.seqnum.toInt < 0 ∨ (s.par.s : Int) ≤ p.seqnum.toInt ∨
      (s.par.w : Int) ≤ (p.seqnum.toInt - s.b.expectedseqnum + s.par.s) % s.par.s) →
    exec (.bPktIn p) s = .next { s with
      b := { s.b with nextackseq := 1#1 - s.b.nextackseq }
      replies := s.replies ++ [⟨⟨0x00000008#32, none⟩, [.txB (ackPacket s.par s.b.nextackseq p.seqnum)]⟩] }

/-- R174: a valid in-window packet that is not the expected one is stored in the lowest free slot and answered RX_BUFFERED, or dropped with
RX_DROP_FULL where no slot is free; only the ack is emitted and no counter changes. Both complete. -/
def Obligations.InWindowPacketIsStoredOrDropped : Prop :=
  ∀ (s : State) (p : Packet), s.b.rbuf.length = s.par.w → corrupt s.par p = false →
    0 ≤ p.seqnum.toInt → p.seqnum.toInt < s.par.s → p.seqnum.toInt ≠ s.b.expectedseqnum →
    (p.seqnum.toInt - s.b.expectedseqnum + s.par.s) % s.par.s < s.par.w →
    (∀ k, k < s.par.w → (s.b.slot k).valid = false → (∀ j, j < k → (s.b.slot j).valid = true) →
      exec (.bPktIn p) s = .next { s with
        b := ⟨s.b.expectedseqnum, 1#1 - s.b.nextackseq, s.b.rbuf.set k ⟨true, p.seqnum.toInt.toNat, p.payload⟩⟩
        replies := s.replies ++ [⟨⟨0x00000006#32, none⟩, [.txB (ackPacket s.par s.b.nextackseq p.seqnum)]⟩] }) ∧
    ((∀ k, k < s.par.w → (s.b.slot k).valid = true) →
      exec (.bPktIn p) s = .next { s with
        b := { s.b with nextackseq := 1#1 - s.b.nextackseq }
        replies := s.replies ++ [⟨⟨0x00000007#32, none⟩, [.txB (ackPacket s.par s.b.nextackseq p.seqnum)]⟩] })

/-- The drain obeys the loop of R173 exactly: it stops where no valid slot holds the cursor's number, and otherwise delivers the lowest such
slot, frees it, advances the cursor and goes on. The bound the definition counts down is never what ends it. That a
freed slot keeps its seq and payload, which nothing can observe, is log entry 4. -/
def Obligations.DrainFollowsTheLoop : Prop :=
  ∀ (s : Nat) (b : Receiver),
    ((∀ k, k < b.rbuf.length → (b.slot k).valid = true → (b.slot k).seq ≠ b.expectedseqnum) →
      Receiver.drain s b.rbuf.length b = (b, [])) ∧
    ∀ k, k < b.rbuf.length → (b.slot k).valid = true → (b.slot k).seq = b.expectedseqnum →
      (∀ j, j < k → (b.slot j).valid = true → (b.slot j).seq ≠ b.expectedseqnum) →
      ∃ b', b' = { b with
          expectedseqnum := (b.expectedseqnum + 1) % s
          rbuf := b.rbuf.set k { b.slot k with valid := false } } ∧
        Receiver.drain s b.rbuf.length b =
          ((Receiver.drain s b'.rbuf.length b').1, (b.slot k).payload :: (Receiver.drain s b'.rbuf.length b').2)

/-- An in-order packet completes (R173): its payload is delivered, then those of the drained slots, at most W of them, each the payload of a
valid slot with the number it is delivered as; the cursor and CNT_DELIVERED grow by that many; no slot with the new cursor's number is
left valid; slots change only by losing their valid bit, one for each drained payload. That a freed slot keeps its seq and payload, which
nothing can observe, is log entry 4. -/
def Obligations.InOrderPacketIsDeliveredAndDrained : Prop :=
  ∀ (s : State) (p : Packet), s.Inv → corrupt s.par p = false → p.seqnum.toInt = s.b.expectedseqnum →
    ∃ t ds, exec (.bPktIn p) s = .next t ∧ List.length ds ≤ s.par.w ∧
      t.replies = s.replies ++ [⟨⟨BitVec.ofNat 32 (256 * (ds.length + 1) + 5), none⟩,
        .txB (ackPacket s.par s.b.nextackseq p.seqnum) :: .deliver p.payload :: ds.map (fun d => Event.deliver d)⟩] ∧
      (∀ (j : Nat) (d : Payload), ds[j]? = some d → ∃ k, k < s.par.w ∧
        s.b.slot k = ⟨true, (s.b.expectedseqnum + 1 + j) % s.par.s, d⟩ ∧ (t.b.slot k).valid = false) ∧
      t.b.expectedseqnum = (s.b.expectedseqnum + 1 + ds.length) % s.par.s ∧
      (∀ k, k < s.par.w → (t.b.slot k).valid = true → (t.b.slot k).seq ≠ t.b.expectedseqnum) ∧
      (∀ k, t.b.slot k = s.b.slot k ∨
        (s.b.slot k).valid = true ∧ t.b.slot k = { s.b.slot k with valid := false }) ∧
      occupancy t.b + ds.length = occupancy s.b ∧ t.b.nextackseq = 1#1 - s.b.nextackseq ∧
      t.cnt = { s.cnt with delivered := s.cnt.delivered + BitVec.ofNat 32 (ds.length + 1) } ∧
      t.a = s.a ∧ t.tmrArmed = s.tmrArmed ∧ t.err = s.err ∧ t.par = s.par ∧ t.pending = s.pending

/-- What B_PKT_IN never writes: the sender, the timer record, the sticky bits and the sender's counters; and the number of slots stays. -/
def Obligations.PacketInFrame : Prop :=
  ∀ (s t : State) (p : Packet), exec (.bPktIn p) s = .next t →
    t.a = s.a ∧ t.tmrArmed = s.tmrArmed ∧ t.err = s.err ∧ t.par = s.par ∧ t.pending = s.pending ∧
      t.b.rbuf.length = s.b.rbuf.length ∧ t.cnt.acksRx = s.cnt.acksRx ∧ t.cnt.newAcks = s.cnt.newAcks ∧
      t.cnt.retx = s.cnt.retx ∧ t.cnt.windowFull = s.cnt.windowFull

/-- R18: with q and e in [0, S) the operand of the receive offset lies in [1, 2S − 1], so the truncating and the flooring remainder agree
with the one the block uses. -/
def Obligations.ReceiveOffsetHasOneReading : Prop :=
  ∀ (b : Receiver) (s : Nat) (q : Int), 0 ≤ q → q < s → b.expectedseqnum < s →
    1 ≤ q - b.expectedseqnum + s ∧ q - b.expectedseqnum + s ≤ 2 * s - 1 ∧
      b.offset s q = Int.tmod (q - b.expectedseqnum + s) s ∧ b.offset s q = Int.fmod (q - b.expectedseqnum + s) s

/-- R178: a valid packet whose number was delivered j payloads ago is ignored after its ack where S − j ≥ W, and otherwise stored as if it
were new wherever a slot is free, the hazard of R266. -/
def Obligations.RepeatOfADeliveredPacket : Prop :=
  ∀ (s : State) (p : Packet) (j : Nat), s.Inv → corrupt s.par p = false → 1 ≤ j → j < s.par.s →
    p.seqnum = BitVec.ofNat 32 ((s.b.expectedseqnum + s.par.s - j) % s.par.s) →
    ∃ t r, exec (.bPktIn p) s = .next t ∧ t.replies = s.replies ++ [r] ∧
      r.events = [.txB (ackPacket s.par s.b.nextackseq p.seqnum)] ∧
      (s.par.w ≤ s.par.s - j → r.statusField = 0x08#8 ∧ t.b.rbuf = s.b.rbuf) ∧
      (s.par.s - j < s.par.w → occupancy s.b < s.par.w →
        r.statusField = 0x06#8 ∧ occupancy t.b = occupancy s.b + 1 ∧
          ∃ k, k < s.par.w ∧ (s.b.slot k).valid = false ∧
            t.b.slot k = ⟨true, (s.b.expectedseqnum + s.par.s - j) % s.par.s, p.payload⟩)

/-- A second copy of a buffered number takes a second slot and the first copy stays (R179, R269). -/
def Obligations.SecondCopyTakesASecondSlot : Prop :=
  ∀ (s : State) (p : Packet) (k : Nat), s.Inv → corrupt s.par p = false → k < s.par.w → (s.b.slot k).valid = true →
    p.seqnum = BitVec.ofNat 32 (s.b.slot k).seq →
    1 ≤ s.b.seqOffset s.par.s (s.b.slot k).seq → s.b.seqOffset s.par.s (s.b.slot k).seq < s.par.w →
    occupancy s.b < s.par.w →
    ∃ t k', exec (.bPktIn p) s = .next t ∧ k' < s.par.w ∧ k' ≠ k ∧ t.b.slot k = s.b.slot k ∧
      t.b.slot k' = ⟨true, (s.b.slot k).seq, p.payload⟩

/-- R176: while every valid slot has an offset in [1, W − 1] and a distinct number, at most W − 1 slots are valid and RX_DROP_FULL cannot
happen; and every command keeps that, unless it is a packet whose number a valid slot already holds. -/
def Obligations.BufferCannotFillWithoutSecondCopies : Prop :=
  (∀ s : State, s.Inv → s.b.Fresh s.par.w s.par.s → occupancy s.b ≤ s.par.w - 1) ∧
  (∀ (s t : State) (p : Packet), s.Inv → s.b.Fresh s.par.w s.par.s → exec (.bPktIn p) s = .next t →
    ∀ r, t.replies = s.replies ++ [r] → r.statusField ≠ 0x07#8) ∧
  ∀ (s t : State) (i : Instr), s.Inv → s.b.Fresh s.par.w s.par.s → exec i s = .next t →
    (∀ p, i = .bPktIn p → corrupt s.par p = false →
      ∀ k, k < s.par.w → (s.b.slot k).valid = true → p.seqnum ≠ BitVec.ofNat 32 (s.b.slot k).seq) →
    t.b.Fresh t.par.w t.par.s

/-- R177, the in-order delivery law: from a receiver with no valid slot, let the valid packets numbered e, e + 1, …, e + m − 1 (mod S),
m ≤ W, each arrive exactly once, in any order, with no other packet and no B_INIT in between; any other commands may stand between them.
Then the payloads are delivered in sequence order, each once, no slot is left valid, and the cursor is e + m (mod S). -/
def Obligations.InOrderDeliveryLaw : Prop :=
  ∀ (s : State) (run : List Packet) (cmds : List Instr), s.Inv → occupancy s.b = 0 → run.length ≤ s.par.w →
    (∀ (j : Nat) (p : Packet), run[j]? = some p → p.seqnum = BitVec.ofNat 32 ((s.b.expectedseqnum + j) % s.par.s)) →
    (∀ p, p ∈ run → corrupt s.par p = false) → (packetsIn cmds).Perm run → Instr.bInit ∉ cmds →
    ∃ t, execAll cmds s = .next t ∧
      deliveredPayloads (newEvents s t) = run.map (fun p => p.payload) ∧ occupancy t.b = 0 ∧
      t.b.expectedseqnum = (s.b.expectedseqnum + run.length) % s.par.s

/-! ## Control commands -/

/-- NOP completes and changes nothing (R200). An all-zero command word with an operand is no NOP. -/
def Obligations.NopChangesNothing : Prop :=
  (∀ s : State, exec .nop s = .next (s.answered 0x00000000#32 none)) ∧ encode .nop = ⟨0x00000000#32, []⟩ ∧
    ∀ opnd, opnd ≠ [] → ¬ LegalCommand ⟨0x00000000#32, opnd⟩

/-- R36, the register map: every assigned index reads the value the table gives it, zero-extended, and reading it changes nothing; every
other index is unassigned; in a legal state the low half of a slot register is exactly the live entry's or valid slot's number. -/
def Obligations.RegisterMap : Prop :=
  ∀ s : State, s.par.w ≤ 32 →
    ReadsAs s 0x00#8 (BitVec.ofNat 32 s.par.w) ∧ ReadsAs s 0x01#8 (BitVec.ofNat 32 s.par.s) ∧
    ReadsAs s 0x02#8 ((0#28) ++ BitVec.ofBool s.err.timer ++ BitVec.ofBool s.err.badReg ++ BitVec.ofBool s.err.illegal ++
      BitVec.ofBool s.tmrArmed) ∧
    ReadsAs s 0x03#8 s.par.notInUse ∧ ReadsAs s 0x08#8 s.cnt.acksRx ∧ ReadsAs s 0x09#8 s.cnt.newAcks ∧
    ReadsAs s 0x0A#8 s.cnt.retx ∧ ReadsAs s 0x0B#8 s.cnt.delivered ∧ ReadsAs s 0x0C#8 s.cnt.windowFull ∧
    ReadsAs s 0x10#8 (BitVec.ofNat 32 s.a.windowfirst) ∧ ReadsAs s 0x11#8 (BitVec.ofNat 32 s.a.windowlast) ∧
    ReadsAs s 0x12#8 (BitVec.ofNat 32 s.a.windowcount) ∧ ReadsAs s 0x13#8 (BitVec.ofNat 32 s.a.nextseqnum) ∧
    (∃ v, ReadsAs s 0x14#8 v ∧ ∀ k, v.getLsbD k = (decide (k < s.par.w) && s.a.acked k)) ∧
    ReadsAs s 0x18#8 (BitVec.ofNat 32 s.b.expectedseqnum) ∧ ReadsAs s 0x19#8 (s.b.nextackseq.zeroExtend 32) ∧
    ReadsAs s 0x1A#8 (BitVec.ofNat 32 (s.b.rbuf.countP (fun sl => sl.valid))) ∧
    (∀ k, k < s.par.w → ∃ v live, ReadsAs s (BitVec.ofNat 8 (0x40 + k)) v ∧
      (live = true ↔ ((k : Int) - s.a.windowfirst) % s.par.w < s.a.windowcount) ∧
      v.getLsbD 31 = live ∧ v.getLsbD 30 = s.a.acked k ∧ v.extractLsb' 16 14 = 0#14 ∧
      v.extractLsb' 0 16 = (if live then (s.a.packet k).seqnum.extractLsb' 0 16 else 0#16) ∧
      (s.Inv → live = true → (v.extractLsb' 0 16).zeroExtend 32 = (s.a.packet k).seqnum)) ∧
    (∀ k, k < s.par.w → ∃ v, ReadsAs s (BitVec.ofNat 8 (0x60 + k)) v ∧
      v.getLsbD 31 = (s.b.slot k).valid ∧ v.extractLsb' 16 15 = 0#15 ∧
      v.extractLsb' 0 16 = (if (s.b.slot k).valid then BitVec.ofNat 16 (s.b.slot k).seq else 0#16) ∧
      (s.Inv → (s.b.slot k).valid = true → (v.extractLsb' 0 16).toNat = (s.b.slot k).seq)) ∧
    ∀ idx : Byte, ¬ AssignedIndex s.par.w idx.toNat → ∃ t r, exec (.regRead idx) s = .next t ∧
      t.replies = s.replies ++ [r] ∧ r.statusField = 0x81#8

/-- R35: STATUS reads TMR_ARMED in bit 0, ERR_ILLEGAL, ERR_BADREG and ERR_TIMER in bits 1 to 3, and 0 in bits 31 to 4. -/
def Obligations.StatusRegisterFields : Prop :=
  ∀ s : State, ∃ v, ReadsAs s 0x02#8 v ∧ v.getLsbD 0 = s.tmrArmed ∧ v.getLsbD 1 = s.err.illegal ∧
    v.getLsbD 2 = s.err.badReg ∧ v.getLsbD 3 = s.err.timer ∧ v.extractLsb' 4 28 = 0#28

/-- REG_READ of an unassigned index reports ERR_BAD_REG with DATA 0, sets ERR_BADREG and does nothing else; of an assigned one it sets
nothing (R201, R68). -/
def Obligations.UnassignedIndexOnlyMarks : Prop :=
  ∀ (s : State) (idx : Byte), s.par.w ≤ 32 →
    (AssignedIndex s.par.w idx.toNat → ∃ v, ReadsAs s idx v) ∧
    (¬ AssignedIndex s.par.w idx.toNat → exec (.regRead idx) s = .next { s with
      err := { s.err with badReg := true }
      replies := s.replies ++ [⟨⟨0x00000081#32, some 0#32⟩, []⟩] })

/-- The pseudo-commands of R96 build what the engines build: `DATA s, msg` the packet A_SUBMIT builds, `ACK n, q` the acknowledgment B_PKT_IN
builds when nextackseq is q; BADDATA and BADACK build corrupt packets; INIT is A_INIT then B_INIT. -/
def Obligations.PseudoCommandsBuildTheEnginesPackets : Prop :=
  ∀ (par : Params) (s : Nat) (m : Message) (n : Int) (q : BitVec 1),
    assemble par (.data s m) = [.bPktIn (dataPacket par s m)] ∧
    assemble par (.ackOf n q.toNat) = [.aAckIn (ackPacket par q (BitVec.ofInt 32 n))] ∧
    (∃ p, assemble par (.badData s m) = [.bPktIn p] ∧ corrupt par p = true) ∧
    (∃ p, assemble par (.badAck n) = [.aAckIn p] ∧ corrupt par p = true) ∧
    assemble par .init = [.aInit, .bInit]

/-! ## Reset and the whole machine -/

/-- R38, the reset values at a glance, for any parameters; the unspecified contents are not stated. That the machine's own reset state takes
the default parameters is the model's choice, log entry 1. -/
def Obligations.ResetValues : Prop :=
  (∀ p : Params, (State.resetWith p).a.windowfirst = 0 ∧ (State.resetWith p).a.windowlast = p.w - 1 ∧
    (State.resetWith p).a.windowcount = 0 ∧ (State.resetWith p).a.nextseqnum = 0 ∧
    (∀ k, (State.resetWith p).a.acked k = false) ∧ (State.resetWith p).tmrArmed = false ∧
    (State.resetWith p).b.expectedseqnum = 0 ∧ (State.resetWith p).b.nextackseq = p.ackSeqReset ∧
    (∀ k, ((State.resetWith p).b.slot k).valid = false) ∧
    (State.resetWith p).cnt = ⟨0#32, 0#32, 0#32, 0#32, 0#32⟩ ∧
    ReadsAs (State.resetWith p) 0x02#8 0#32) ∧
  State.reset = State.resetWith Params.specDefault

/-- The reset state meets the invariants, for every legal choice of the parameters, the defaults among them. -/
def Obligations.ResetStateMeetsTheInvariants : Prop :=
  (∀ p : Params, p.Legal → (State.resetWith p).Inv ∧ (State.resetWith p).PayloadsOk) ∧ State.reset.Inv

/-- R27 and R33, with R29: every step keeps the sender, timer and receiver invariants, from every state that meets them; so live entries
carry pairwise distinct numbers and at most W receiver slots are valid. -/
def Obligations.EveryStepKeepsTheInvariants : Prop :=
  ∀ s t : State, s.Inv → step s = .next t → t.Inv ∧
    (∀ i j, i < j → j < t.a.windowcount →
      (t.a.packet (t.a.wslot t.par.w i)).seqnum ≠ (t.a.packet (t.a.wslot t.par.w j)).seqnum) ∧
    occupancy t.b ≤ t.par.w

/-- R29: after every command TMR_ARMED is 1 if and only if the window is non-empty, and no command emits TMR_START while the timer runs (nor
TMR_STOP while it does not): the events of the command drive the timer from TMR_ARMED before it, which A_TIMEOUT consumes, to TMR_ARMED
after it (R28). -/
def Obligations.TimerRecordFollowsTheEvents : Prop :=
  ∀ (s : State) (i : Instr), s.Inv → ∃ t r, exec i s = .next t ∧ t.replies = s.replies ++ [r] ∧
    (t.tmrArmed = true ↔ 0 < t.a.windowcount) ∧
    timerAfter (s.tmrArmed && decide (i ≠ .aTimeout)) r.events = some t.tmrArmed

/-- Every step keeps every stored payload at 20 bytes, and every event it emits carries 32, 20 or no bytes after its tag (R67). -/
def Obligations.EveryEventHasItsSize : Prop :=
  ∀ s t : State, s.PayloadsOk → step s = .next t → t.PayloadsOk ∧
    ∀ r, t.replies = s.replies ++ [r] → ∀ e, e ∈ r.events →
      (bytesOfEvent e).length = (match e with
        | .txA _ => 33
        | .txB _ => 33
        | .deliver _ => 21
        | .tmrStart _ => 1
        | .tmrStop => 1)

/-- R34: every counter grows by exactly what it counts, wrapping from 0xFFFFFFFF to 0, no command clears one, and hardware reset sets all
five to 0. -/
def Obligations.CountersCountTheirEvents : Prop :=
  (∀ (s : State) (i : Instr), ∃ t r, exec i s = .next t ∧ t.replies = s.replies ++ [r] ∧
    t.cnt = (match i with
      | .nop => s.cnt
      | .aInit => s.cnt
      | .aSubmit _ => if s.a.windowcount = s.par.w then { s.cnt with windowFull := s.cnt.windowFull + 1#32 } else s.cnt
      | .aAckIn p => if corrupt s.par p then s.cnt else { s.cnt with
          acksRx := s.cnt.acksRx + 1#32
          newAcks := s.cnt.newAcks + if (List.range s.a.windowcount).any (fun i => !s.a.acked (s.a.wslot s.par.w i) &&
            (s.a.packet (s.a.wslot s.par.w i)).seqnum == p.acknum) then 1#32 else 0#32 }
      | .aTimeout => { s.cnt with retx := s.cnt.retx + BitVec.ofNat 32 (sentByA r.events).length }
      | .bInit => s.cnt
      | .bPktIn _ => { s.cnt with delivered := s.cnt.delivered + BitVec.ofNat 32 (deliveredPayloads r.events).length }
      | .chkEval _ => s.cnt
      | .regRead _ => s.cnt)) ∧
  (∀ s : State, ∃ t, execIllegal s = .next t ∧ t.cnt = s.cnt) ∧ 0xFFFFFFFF#32 + 1#32 = 0#32 ∧
  ∀ s : State, s.hardReset.cnt = ⟨0#32, 0#32, 0#32, 0#32, 0#32⟩

/-- A sticky bit, once set, stays set until hardware reset: no command, legal or illegal, clears one (R222, R225), and a step that sets one
answers its status code. -/
def Obligations.StickyBitsStayUntilReset : Prop :=
  ∀ (s t : State) (c : Command) (rest : List Stimulus), s.pending = .command c :: rest → step s = .next t →
    ∃ r, t.replies = s.replies ++ [r] ∧
      t.err.illegal = (s.err.illegal || decide (r.statusField = 0x80#8)) ∧
      t.err.badReg = (s.err.badReg || decide (r.statusField = 0x81#8)) ∧
      t.err.timer = (s.err.timer || decide (r.statusField = 0x82#8))

/-- The two engines share no state (20_memory.md R69, R232): a sender command neither writes the receiver's state nor depends on it, and a
receiver command neither writes the sender's state nor depends on it. -/
def Obligations.EnginesShareNoState : Prop :=
  (∀ (s t : State) (i : Instr), senderCommand i = true → exec i s = .next t →
    t.b = s.b ∧ t.cnt.delivered = s.cnt.delivered ∧
      ∀ b', exec i { s with b := b' } = .next { t with b := b' }) ∧
  ∀ (s t : State) (i : Instr), receiverCommand i = true → exec i s = .next t →
    t.a = s.a ∧ t.tmrArmed = s.tmrArmed ∧ t.err = s.err ∧
      t.cnt = { s.cnt with delivered := t.cnt.delivered } ∧
      ∀ a' armed', exec i { s with a := a', tmrArmed := armed' } = .next { t with a := a', tmrArmed := armed' }

/-- R263: hardware reset against A_INIT and B_INIT, row by row of the table. -/
def Obligations.ResetAgainstInit : Prop :=
  ∀ s : State, s.b.rbuf.length = s.par.w → ∃ h a b : State, step (s.offer .reset) = .next h ∧ exec .aInit s = .next a ∧ exec .bInit s = .next b ∧
    (h.a.windowfirst = 0 ∧ h.a.windowlast = s.par.w - 1 ∧ h.a.windowcount = 0 ∧ h.a.nextseqnum = 0 ∧
      h.a.ack = List.replicate s.par.w false) ∧
    (a.a.windowfirst = 0 ∧ a.a.windowlast = s.par.w - 1 ∧ a.a.windowcount = 0 ∧ a.a.nextseqnum = 0 ∧
      a.a.ack = List.replicate s.par.w false) ∧ b.a = s.a ∧
    h.tmrArmed = false ∧ a.tmrArmed = false ∧ b.tmrArmed = s.tmrArmed ∧
    (h.b.expectedseqnum = 0 ∧ h.b.nextackseq = s.par.ackSeqReset ∧ ∀ k, (h.b.slot k).valid = false) ∧ a.b = s.b ∧
    (b.b.expectedseqnum = 0 ∧ b.b.nextackseq = s.par.ackSeqReset ∧ ∀ k, (b.b.slot k).valid = false) ∧
    h.cnt = ⟨0#32, 0#32, 0#32, 0#32, 0#32⟩ ∧ a.cnt = s.cnt ∧ b.cnt = s.cnt ∧
    h.err = ⟨false, false, false⟩ ∧ a.err = s.err ∧ b.err = s.err ∧
    h.replies = s.replies ∧
    a.replies = s.replies ++ [⟨⟨0x00000000#32, none⟩, if s.tmrArmed then [.tmrStop] else []⟩] ∧
    b.replies = s.replies ++ [⟨⟨0x00000000#32, none⟩, []⟩]

/-- The contents the spec calls unobservable are so (R21, R32, decisions D17, D27): two legal states that agree on everything but the
packets of dead sender slots and the seq and payload of free receiver slots step to states that agree likewise, replies included. -/
def Obligations.DeadContentsAreUnobservable : Prop :=
  ∀ s s' : State, s.Inv → s'.Inv → s.observed = s'.observed →
    ∃ t t', step s = .next t ∧ step s' = .next t' ∧ t.observed = t'.observed

/-- The block in its surroundings, the host and the collaborators keeping the duties of R231: a timer start is outstanding exactly where
TMR_ARMED says so and a running timer runs for that start, every dutiful move keeps that and the block's invariants, and none makes the
block record ERR_TIMER, wherever the host's queue stands. The agents and their moves are the model's rendering of R230 and R231, log
entries 12, 13 and 19; that a stale expiry's TMR_START replaces the start a running timer has is the model's choice, log entry 20. -/
def Obligations.DutifulHostNeverMeetsAnIdleTimer : Prop :=
  (∀ p : Params, p.Legal → (World.boot p).block.Inv ∧ (World.boot p).TimerAgrees) ∧
  ∀ (w w' : World) (m : Move), w.block.Inv → w.TimerAgrees → w.dutiful m = true → w.move m = some w' →
    w'.block.Inv ∧ w'.TimerAgrees ∧ (w.block.err.timer = false → w'.block.err.timer = false)

/-- Hardware reset emits no event and no response, not TMR_STOP where the timer was armed and no DELIVER of buffered payloads; packets stay
in the channels, and a running timer keeps running and may still expire, but where the host resets them too (70_reset_and_hazards.md R261,
R262). An expiry that then reaches the block before a submission is ERR_TIMER_IDLE (60_exceptions.md R231). The agents are the model's
rendering, log entries 12 and 13; that the host keeps its queue across the reset is the model's choice, log entry 19. -/
def Obligations.ResetLeavesWhatTheHostDoesNotReset : Prop :=
  (∀ (w : World) (timer channels application : Bool), ∃ w', w.move (.reset timer channels application) = some w' ∧
    w'.block.tmrArmed = false ∧ w'.block.a.windowcount = 0 ∧ occupancy w'.block.b = 0 ∧
    w'.block.replies = w.block.replies ∧ w'.block.emitted = w.block.emitted ∧ w'.block.pending = w.block.pending ∧
    w'.chanAB = (if channels then [] else w.chanAB) ∧ w'.chanBA = (if channels then [] else w.chanBA) ∧
    w'.timer = (if timer then none else w.timer) ∧ w'.received = (if application then [] else w.received)) ∧
  ∀ w : World, w.timer.isSome = true → ∃ w' r,
    World.run [.reset false false false, .expire, .issue w.block.pending.length] w = some w' ∧
      w'.block.replies = w.block.replies ++ [r] ∧ r.statusField = 0x82#8 ∧ w'.block.err.timer = true
end

