-- ==== Sys2Proof/Laws/Checksum.lean ====
section
/-! SUPPORT. The checksum in 32-bit words: each payload byte's share, and what corruption means (40_integrity.md R110, R111). -/

namespace Sys2Proof.Machine

/-- A payload byte's share of the checksum as a 32-bit word. -/
def byteWord (signed : Bool) (b : Byte) : Word := if signed then b.signExtend 32 else b.zeroExtend 32

theorem ofInt_byteval (signed : Bool) (b : Byte) : BitVec.ofInt 32 (byteval signed b) = byteWord signed b := by
  cases signed
  · apply BitVec.eq_of_toNat_eq
    simp [byteval, byteWord]
  · rfl

/-- Distinct bytes have distinct shares, in either reading. -/
theorem byteWord_inj {signed : Bool} {b c : Byte} (h : byteWord signed b = byteWord signed c) : b = c := by
  cases signed
  · have h2 := congrArg (fun w : Word => w.setWidth 8) h
    simpa [byteWord] using h2
  · have h2 := congrArg BitVec.toInt h
    simp only [byteWord, ↓reduceIte] at h2
    rw [BitVec.toInt_signExtend_of_le (by norm_num), BitVec.toInt_signExtend_of_le (by norm_num)] at h2
    exact BitVec.eq_of_toInt_eq h2

theorem ofInt_list_sum (l : List Int) : BitVec.ofInt 32 l.sum = (l.map (BitVec.ofInt 32)).sum := by
  induction l with
  | nil => rfl
  | cons x l ih => simp only [List.sum_cons, List.map_cons, BitVec.ofInt_add, ih]

theorem corrupt_eq_false {par : Params} {p : Packet} : corrupt par p = false ↔ p.checksum = checksum par p := by
  simp [corrupt]

theorem corrupt_eq_true {par : Params} {p : Packet} : corrupt par p = true ↔ p.checksum ≠ checksum par p := by
  simp [corrupt]

/-- A sealed packet is never corrupt (R113). -/
theorem corrupt_sealPacket (par : Params) (p : Packet) : corrupt par (sealPacket par p) = false := corrupt_eq_false.2 rfl

/-- A checksum off by one is corrupt, as BADDATA and BADACK make it (30_encoding.md R96). -/
theorem corrupt_off_by_one (par : Params) (p : Packet) : corrupt par { p with checksum := checksum par p + 1#32 } = true := by
  rw [corrupt_eq_true]
  show checksum par p + 1#32 ≠ checksum par p
  intro h
  have := BitVec.add_right_eq_self.1 h
  exact absurd this (by decide)

end Sys2Proof.Machine
end

