-- ==== Sys2Proof/Laws/Window.lean ====
section
/-! SUPPORT. The sender's window: slot arithmetic, and one lemma for each shared operation over the window that says everything it can
do. -/

namespace Sys2Proof.Machine

/-! ## Small moduli -/

theorem mod_of_lt_two {x w : Nat} (h : x < 2 * w) : x % w = if x < w then x else x - w := by
  split_ifs with hx
  · exact Nat.mod_eq_of_lt hx
  · rw [Nat.mod_eq_sub_mod (by omega), Nat.mod_eq_of_lt (by omega)]

theorem mod_of_lt_three {x w : Nat} (h : x < 3 * w) :
    x % w = if x < w then x else if x < 2 * w then x - w else x - 2 * w := by
  split_ifs with hx h2
  · exact Nat.mod_eq_of_lt hx
  · rw [Nat.mod_eq_sub_mod (by omega), Nat.mod_eq_of_lt (by omega)]
  · rw [Nat.mod_eq_sub_mod (by omega), Nat.mod_eq_sub_mod (by omega), Nat.mod_eq_of_lt (by omega)]
    omega

/-- A sum modulo S of a number below S and an offset below S. -/
theorem add_sub_mod {a b s : Nat} (ha : a < s) (hb : b < s) : (a + s - b) % s = if b ≤ a then a - b else a + s - b := by
  rw [mod_of_lt_two (by omega)]
  split_ifs <;> omega

/-! ## Slots -/

theorem Sender.wslot_eq {a : Sender} {w i : Nat} (hf : a.windowfirst < w) (hi : i ≤ w) :
    a.wslot w i = if a.windowfirst + i < w then a.windowfirst + i else a.windowfirst + i - w :=
  mod_of_lt_two (by omega)

theorem Sender.wslot_lt {a : Sender} {w : Nat} (hw : 0 < w) (i : Nat) : a.wslot w i < w := Nat.mod_lt _ hw

theorem Sender.wslot_zero {a : Sender} {w : Nat} (hf : a.windowfirst < w) : a.wslot w 0 = a.windowfirst := by
  rw [Sender.wslot_eq hf (by omega), Nat.add_zero, if_pos hf]

/-- Live slots are pairwise distinct (R27). -/
theorem Sender.wslot_inj {a : Sender} {w i j : Nat} (hf : a.windowfirst < w) (hi : i < w) (hj : j < w)
    (h : a.wslot w i = a.wslot w j) : i = j := by
  rw [Sender.wslot_eq hf hi.le, Sender.wslot_eq hf hj.le] at h
  split_ifs at h <;> omega

/-- LIVE as R36 computes it, without integers. -/
theorem Sender.live_iff {a : Sender} {w k : Nat} (hf : a.windowfirst < w) (hk : k < w) :
    a.live w k = true ↔ (if a.windowfirst ≤ k then k - a.windowfirst else k + w - a.windowfirst) < a.windowcount := by
  unfold Sender.live
  rw [decide_eq_true_iff]
  split_ifs with h
  · rw [Int.emod_eq_of_lt (by omega) (by omega)]; omega
  · rw [← Int.add_emod_right, Int.emod_eq_of_lt (by omega) (by omega)]; omega

/-- A slot is live exactly when it is `wslot(i)` of some i below windowcount (00_scope.md glossary, R36). -/
theorem Sender.live_iff_wslot {a : Sender} {w k : Nat} (hf : a.windowfirst < w) (hc : a.windowcount ≤ w) (hk : k < w) :
    a.live w k = true ↔ ∃ i, i < a.windowcount ∧ k = a.wslot w i := by
  rw [Sender.live_iff hf hk]
  constructor
  · intro h
    refine ⟨_, h, ?_⟩
    rw [Sender.wslot_eq hf (by omega)]
    split_ifs <;> omega
  · rintro ⟨i, hi, rfl⟩
    rw [Sender.wslot_eq hf (by omega)]
    split_ifs <;> omega

theorem Sender.mem_liveSlots {a : Sender} {w k : Nat} :
    k ∈ a.liveSlots w ↔ ∃ i, i < a.windowcount ∧ a.wslot w i = k := by
  simp [Sender.liveSlots]

theorem Sender.mem_unackedSlots {a : Sender} {w k : Nat} :
    k ∈ a.unackedSlots w ↔ (∃ i, i < a.windowcount ∧ a.wslot w i = k) ∧ a.acked k = false := by
  simp [Sender.unackedSlots, Sender.mem_liveSlots]

/-- An unacked live entry remains, as A_ACK_IN tests it (R132). -/
theorem Sender.unackedSlots_isEmpty {a : Sender} {w : Nat} :
    (a.unackedSlots w).isEmpty = false ↔ ∃ i, i < a.windowcount ∧ a.acked (a.wslot w i) = false := by
  rw [List.isEmpty_eq_false_iff_exists_mem]
  constructor
  · rintro ⟨k, hk⟩
    obtain ⟨⟨i, hi, rfl⟩, ha⟩ := Sender.mem_unackedSlots.1 hk
    exact ⟨i, hi, ha⟩
  · rintro ⟨i, hi, ha⟩
    exact ⟨_, Sender.mem_unackedSlots.2 ⟨⟨i, hi, rfl⟩, ha⟩⟩

/-! ## Flags and packets after a write -/

theorem getD_set {α : Type} (l : List α) (j k : Nat) (x d : α) :
    (l.set j x).getD k d = if k = j ∧ j < l.length then x else l.getD k d := by
  simp only [List.getD_eq_getElem?_getD, List.getElem?_set]
  split_ifs <;> first | rfl | simp_all

theorem Sender.acked_of_set {a b : Sender} {j : Nat} {x : Bool} (h : b.ack = a.ack.set j x) (k : Nat) :
    b.acked k = if k = j ∧ j < a.ack.length then x else a.acked k := by
  unfold Sender.acked
  rw [h, getD_set]

/-! ## The scan (R132) -/

/-- What the scan finds: an unacked live entry with the ack's number. -/
theorem Sender.findUnacked_some {a : Sender} {w k : Nat} {n : Word} (h : a.findUnacked w n = some k) :
    ∃ i, i < a.windowcount ∧ k = a.wslot w i ∧ a.acked k = false ∧ (a.packet k).seqnum = n := by
  have hp := List.find?_some h
  obtain ⟨i, hi, hk⟩ := Sender.mem_liveSlots.1 (List.mem_of_find?_eq_some h)
  simp at hp
  exact ⟨i, hi, hk.symm, hp.1, hp.2⟩

/-- The scan finds nothing exactly when no unacked live entry has the ack's number. -/
theorem Sender.findUnacked_none {a : Sender} {w : Nat} {n : Word} :
    a.findUnacked w n = none ↔
      ∀ i, i < a.windowcount → a.acked (a.wslot w i) = false → (a.packet (a.wslot w i)).seqnum ≠ n := by
  unfold Sender.findUnacked
  rw [List.find?_eq_none]
  constructor
  · intro h i hi ha hs
    have := h _ (Sender.mem_liveSlots.2 ⟨i, hi, rfl⟩)
    simp [ha, hs] at this
  · intro h k hk
    obtain ⟨i, hi, rfl⟩ := Sender.mem_liveSlots.1 hk
    simp only [Bool.and_eq_true, Bool.not_eq_true', beq_iff_eq, not_and]
    exact h i hi

/-! ## The invariant without its last clause

`slide` starts where the front may be acked, and ends where it is not. -/

/-- The sender invariants of R27 but for "the front is unacked". -/
abbrev Sender.PreInv (a : Sender) (w s : Nat) : Prop := a.RangesOk w s ∧ a.LastOk w ∧ a.SeqsOk w s ∧ a.DeadUnacked w

theorem Sender.inv_pre {a : Sender} {w s : Nat} (h : a.Inv w s) : a.PreInv w s := ⟨h.1, h.2.1, h.2.2.1, h.2.2.2.1⟩

/-- Live entries carry distinct sequence numbers (R27), so the scan finds the one entry an ack names. -/
theorem Sender.seq_inj {a : Sender} {w s i j : Nat} (h : a.PreInv w s) (hws : w < s) (hs : s ≤ 65536)
    (hi : i < a.windowcount) (hj : j < a.windowcount)
    (he : (a.packet (a.wslot w i)).seqnum = (a.packet (a.wslot w j)).seqnum) : i = j := by
  obtain ⟨⟨-, -, -, -, hc, hn⟩, -, hseq, -⟩ := h
  rw [hseq i hi, hseq j hj] at he
  have hlt : ∀ x, a.liveSeq s x < s := fun x => Nat.mod_lt _ (by omega)
  have h1 := hlt i
  have h2 := hlt j
  have he' := congrArg BitVec.toNat he
  simp only [BitVec.toNat_ofNat] at he'
  rw [Nat.mod_eq_of_lt (by omega), Nat.mod_eq_of_lt (by omega)] at he'
  unfold Sender.liveSeq at he'
  rw [mod_of_lt_two (by omega), mod_of_lt_two (by omega)] at he'
  split_ifs at he' <;> omega

/-- The scan finds the entry an ack names (R132, R137). -/
theorem Sender.findUnacked_eq {a : Sender} {w s i : Nat} {n : Word} (h : a.PreInv w s) (hws : w < s) (hs : s ≤ 65536)
    (hi : i < a.windowcount) (ha : a.acked (a.wslot w i) = false) (hn : (a.packet (a.wslot w i)).seqnum = n) :
    a.findUnacked w n = some (a.wslot w i) := by
  cases hf : a.findUnacked w n with
  | none => exact absurd hn (Sender.findUnacked_none.1 hf i hi ha)
  | some k =>
    obtain ⟨j, hj, rfl, -, hs'⟩ := Sender.findUnacked_some hf
    rw [Sender.seq_inj h hws hs hj hi (hs'.trans hn.symm)]

theorem Sender.markAcked_pre {a : Sender} {w s i : Nat} (h : a.PreInv w s) (hi : i < a.windowcount) :
    (a.markAcked (a.wslot w i)).PreInv w s := by
  obtain ⟨⟨h1, h2, h3, h4, h5, h6⟩, hl, hseq, hd⟩ := h
  refine ⟨⟨h1, by simpa [Sender.markAcked] using h2, h3, h4, h5, h6⟩, hl, hseq, ?_⟩
  intro k hk hlive
  have hlive' : a.live w k = false := hlive
  have hne : k ≠ a.wslot w i := by
    rintro rfl
    rw [(Sender.live_iff_wslot h3 h5 hk).2 ⟨i, hi, rfl⟩] at hlive'
    exact absurd hlive' (by simp)
  rw [Sender.acked_of_set (a := a) (j := a.wslot w i) (x := true) rfl, if_neg (fun h => hne h.1)]
  exact hd k hk hlive'

/-! ## The slide (R132, R133) -/

/-- One pass of the slide. -/
def Sender.freeFront (a : Sender) (w : Nat) : Sender :=
  { a with
    ack := a.ack.set a.windowfirst false
    windowfirst := (a.windowfirst + 1) % w
    windowcount := a.windowcount - 1 }

theorem Sender.slide_succ (w n : Nat) (a : Sender) : Sender.slide w (n + 1) a =
    if 0 < a.windowcount ∧ a.acked a.windowfirst = true then
      ((Sender.slide w n (a.freeFront w)).1, (Sender.slide w n (a.freeFront w)).2 + 1)
    else (a, 0) := rfl

theorem Sender.freeFront_pre {a : Sender} {w s : Nat} (h : a.PreInv w s) (hws : w < s) (hc : 0 < a.windowcount) :
    (a.freeFront w).PreInv w s := by
  obtain ⟨⟨h1, h2, h3, h4, h5, h6⟩, hl, hseq, hd⟩ := h
  have hf : (a.freeFront w).windowfirst = if a.windowfirst + 1 < w then a.windowfirst + 1 else a.windowfirst + 1 - w :=
    mod_of_lt_two (by omega)
  have hf' : (a.freeFront w).windowfirst < w := Nat.mod_lt _ (by omega)
  have hslot : ∀ i, i + 1 ≤ w → (a.freeFront w).wslot w i = a.wslot w (i + 1) := by
    intro i hi
    rw [Sender.wslot_eq hf' (by omega), Sender.wslot_eq h3 hi, hf]
    split_ifs <;> omega
  refine ⟨⟨h1, by simpa [Sender.freeFront] using h2, hf', h4, ?_, h6⟩, ?_, ?_, ?_⟩
  · show a.windowcount - 1 ≤ w
    omega
  · show a.windowlast = ((a.freeFront w).windowfirst + (a.windowcount - 1) + w - 1) % w
    rw [hl, hf, mod_of_lt_three (by omega), mod_of_lt_three (by split_ifs <;> omega)]
    split_ifs <;> omega
  · intro i hi
    have hi' : i + 1 < a.windowcount := by
      change i < a.windowcount - 1 at hi
      omega
    rw [hslot i (by omega)]
    show (a.packet (a.wslot w (i + 1))).seqnum = _
    rw [hseq (i + 1) hi']
    congr 1
    unfold Sender.liveSeq
    show (a.nextseqnum + s - a.windowcount + (i + 1)) % s = (a.nextseqnum + s - (a.windowcount - 1) + i) % s
    congr 1
    omega
  · intro k hk hlive
    rw [Sender.acked_of_set (a := a) (j := a.windowfirst) (x := false) rfl]
    split_ifs with hkf
    · rfl
    · apply hd k hk
      rw [← Bool.not_eq_true] at hlive ⊢
      rw [Sender.live_iff hf' hk] at hlive
      rw [Sender.live_iff h3 hk]
      rw [hf] at hlive
      change ¬ _ < a.windowcount - 1 at hlive
      have hne : k ≠ a.windowfirst := fun h => hkf ⟨h, by omega⟩
      split_ifs at hlive ⊢ <;> omega

/-- The slide keeps what R27 says of the window and leaves its front unacked. -/
theorem Sender.slide_inv {w s : Nat} (hws : w < s) : ∀ {n : Nat} {a : Sender}, a.windowcount ≤ n → a.PreInv w s →
    (Sender.slide w n a).1.Inv w s
  | 0, a, hn, h => ⟨h.1, h.2.1, h.2.2.1, h.2.2.2, fun hc => by simp [Sender.slide] at hc; omega⟩
  | n + 1, a, hn, h => by
    rw [Sender.slide_succ]
    split_ifs with hc
    · exact Sender.slide_inv hws (by show a.windowcount - 1 ≤ n; omega) (Sender.freeFront_pre h hws hc.1)
    · refine ⟨h.1, h.2.1, h.2.2.1, h.2.2.2, fun hp => ?_⟩
      rw [not_and] at hc
      simpa using hc hp

/-- What the slide never writes, in any state (R132), and how many slots it frees. -/
theorem Sender.slide_frame {w : Nat} : ∀ {n : Nat} {a : Sender}, (Sender.slide w n a).1.wbuf = a.wbuf ∧
    (Sender.slide w n a).1.windowlast = a.windowlast ∧ (Sender.slide w n a).1.nextseqnum = a.nextseqnum ∧
    (Sender.slide w n a).1.windowcount + (Sender.slide w n a).2 = a.windowcount
  | 0, a => ⟨rfl, rfl, rfl, rfl⟩
  | n + 1, a => by
    rw [Sender.slide_succ]
    split_ifs with hc
    · obtain ⟨h1, h2, h3, h4⟩ := Sender.slide_frame (w := w) (n := n) (a := a.freeFront w)
      refine ⟨h1, h2, h3, ?_⟩
      have : (a.freeFront w).windowcount = a.windowcount - 1 := rfl
      simp only
      omega
    · exact ⟨rfl, rfl, rfl, rfl⟩

/-- A window whose front is unacked does not slide (90_conflicts.md C10). -/
theorem Sender.slide_of_front_unacked {w n : Nat} {a : Sender} (h : 0 < a.windowcount → a.acked a.windowfirst = false) :
    Sender.slide w n a = (a, 0) := by
  cases n with
  | zero => rfl
  | succ n =>
    rw [Sender.slide_succ, if_neg]
    rintro ⟨hc, ha⟩
    rw [h hc] at ha
    exact absurd ha (by simp)

/-- The slide frees exactly the longest run of acked entries from the front, clearing their flags (R133). -/
theorem Sender.slide_spec {w : Nat} : ∀ {n : Nat} {a : Sender}, a.windowcount ≤ n → a.windowfirst < w → a.windowcount ≤ w →
    a.ack.length = w →
    (∀ j, j < (Sender.slide w n a).2 → a.acked (a.wslot w j) = true) ∧
    ((Sender.slide w n a).2 < a.windowcount → a.acked (a.wslot w (Sender.slide w n a).2) = false) ∧
    (Sender.slide w n a).1.windowfirst = a.wslot w (Sender.slide w n a).2 ∧
    (∀ k, (Sender.slide w n a).1.acked k =
      (a.acked k && decide (∀ j, j < (Sender.slide w n a).2 → k ≠ a.wslot w j)))
  | 0, a, hn, hf, hc, hl => by
    refine ⟨fun j hj => absurd hj (by simp [Sender.slide]), fun h => ?_, ?_, fun k => ?_⟩
    · simp only [Sender.slide] at h; omega
    · exact (Sender.wslot_zero hf).symm
    · simp [Sender.slide]
  | n + 1, a, hn, hf, hc, hl => by
    rw [Sender.slide_succ]
    split_ifs with hcond
    · have hf' : (a.freeFront w).windowfirst < w := Nat.mod_lt _ (by omega)
      have hcount : (a.freeFront w).windowcount = a.windowcount - 1 := rfl
      have hfr := Sender.slide_frame (w := w) (n := n) (a := a.freeFront w)
      obtain ⟨i1, i2, i3, i4⟩ := Sender.slide_spec (w := w) (n := n) (a := a.freeFront w) (by omega) hf' (by omega)
        (by simpa [Sender.freeFront] using hl)
      have hff : (a.freeFront w).windowfirst =
          if a.windowfirst + 1 < w then a.windowfirst + 1 else a.windowfirst + 1 - w := mod_of_lt_two (by omega)
      have hslot : ∀ i, i + 1 ≤ w → (a.freeFront w).wslot w i = a.wslot w (i + 1) := by
        intro i hi
        rw [Sender.wslot_eq hf' (by omega), Sender.wslot_eq hf hi, hff]
        split_ifs <;> omega
      have hack : ∀ k, (a.freeFront w).acked k = if k = a.windowfirst then false else a.acked k := by
        intro k
        rw [Sender.acked_of_set (a := a) (j := a.windowfirst) (x := false) rfl, hl]
        simp [hf]
      have hz := Sender.wslot_zero hf
      generalize Sender.slide w n (a.freeFront w) = r at *
      have hr : r.2 + 1 ≤ a.windowcount := by omega
      have hne : ∀ j, 0 < j → j < a.windowcount → a.wslot w j ≠ a.windowfirst := by
        intro j hj hjc he
        have := Sender.wslot_inj hf (i := j) (j := 0) (by omega) (by omega) (he.trans hz.symm)
        omega
      refine ⟨?_, ?_, ?_, ?_⟩
      · intro j hj
        cases j with
        | zero => rw [hz]; exact hcond.2
        | succ j =>
          have := i1 j (by simpa using hj)
          rw [hslot j (by simp only at hj; omega), hack] at this
          split_ifs at this with h
          exact this
      · intro h
        have := i2 (by simp only at h; omega)
        rw [hslot _ (by simp only at h; omega), hack] at this
        split_ifs at this with h'
        · exact absurd h' (hne _ (by omega) (by simpa using h))
        · exact this
      · rw [i3, hslot _ (by omega)]
      · intro k
        rw [i4, hack]
        by_cases hk : k = a.windowfirst
        · subst hk
          simp only [↓reduceIte, Bool.false_and]
          symm
          rw [Bool.and_eq_false_iff]
          right
          rw [decide_eq_false_iff_not]
          intro h
          exact h 0 (by simp) hz.symm
        · rw [if_neg hk]
          congr 1
          rw [decide_eq_decide]
          constructor
          · intro h j hj
            cases j with
            | zero => rw [hz]; exact hk
            | succ j =>
              rw [← hslot j (by simp only at hj; omega)]
              exact h j (by simpa using hj)
          · intro h j hj
            rw [hslot j (by omega)]
            exact h (j + 1) (by simpa using hj)
    · refine ⟨fun j hj => absurd hj (by simp), fun h => ?_, (Sender.wslot_zero hf).symm, fun k => by simp⟩
      rw [Sender.wslot_zero hf]
      rw [not_and] at hcond
      simpa using hcond h

/-! ## The insertion (R131) -/

/-- The next insertion slot is `wslot(windowcount)` (R61). -/
theorem Sender.insert_slot {a : Sender} {w s : Nat} (h : a.PreInv w s) :
    (a.windowlast + 1) % w = a.wslot w a.windowcount := by
  obtain ⟨⟨-, -, h3, h4, h5, -⟩, hl, -, -⟩ := h
  rw [Sender.wslot_eq h3 h5, mod_of_lt_two (by omega), hl, mod_of_lt_three (by omega)]
  split_ifs <;> omega

/-- Inserting a packet numbered nextseqnum into a window with room keeps the invariants (R27, R131). -/
theorem Sender.insert_inv {a : Sender} {w s : Nat} {p : Packet} (h : a.Inv w s) (hws : w < s) (hc : a.windowcount < w)
    (hp : p.seqnum = BitVec.ofNat 32 a.nextseqnum) : (a.insert w s p).Inv w s := by
  have hslot0 := Sender.insert_slot (Sender.inv_pre h)
  obtain ⟨⟨h1, h2, h3, h4, h5, h6⟩, hl, hseq, hd, hfr⟩ := h
  have hlast : (a.insert w s p).windowlast = a.wslot w a.windowcount := hslot0
  have hslot : ∀ i, (a.insert w s p).wslot w i = a.wslot w i := fun _ => rfl
  have hlt := Sender.wslot_lt (a := a) (w := w) (by omega) a.windowcount
  have hpk : ∀ k, (a.insert w s p).packet k = if k = a.wslot w a.windowcount then p else a.packet k := by
    intro k
    show (a.wbuf.set ((a.windowlast + 1) % w) p).getD k _ = _
    rw [getD_set, hslot0]
    simp [h1, hlt, Sender.packet]
  have hak : ∀ k, (a.insert w s p).acked k = if k = a.wslot w a.windowcount then false else a.acked k := by
    intro k
    rw [Sender.acked_of_set (a := a) (j := (a.windowlast + 1) % w) (x := false) rfl, hslot0]
    simp [h2, hlt]
  have hns : (a.insert w s p).nextseqnum = if a.nextseqnum + 1 < s then a.nextseqnum + 1 else a.nextseqnum + 1 - s :=
    mod_of_lt_two (by omega)
  have hcount : (a.insert w s p).windowcount = a.windowcount + 1 := rfl
  have hne : ∀ i, i < a.windowcount → a.wslot w i ≠ a.wslot w a.windowcount := by
    intro i hi he
    have := Sender.wslot_inj h3 (by omega) hc he
    omega
  refine ⟨⟨?_, ?_, h3, ?_, ?_, ?_⟩, ?_, ?_, ?_, ?_⟩
  · simpa [Sender.insert] using h1
  · simpa [Sender.insert] using h2
  · rw [hlast]; exact hlt
  · omega
  · rw [hns]; split_ifs <;> omega
  · show (a.insert w s p).windowlast = (a.windowfirst + (a.windowcount + 1) + w - 1) % w
    rw [hlast, Sender.wslot_eq h3 h5, mod_of_lt_three (by omega)]
    split_ifs <;> omega
  · intro i hi
    rw [hslot, hpk]
    rw [hcount] at hi
    split_ifs with he
    · have : i = a.windowcount := Sender.wslot_inj h3 (by omega) hc he
      subst this
      rw [hp]
      congr 1
      unfold Sender.liveSeq
      rw [hns, hcount, mod_of_lt_two (by split_ifs <;> omega)]
      split_ifs <;> omega
    · have hlt' : i < a.windowcount := by
        rcases Nat.lt_or_ge i a.windowcount with h | h
        · exact h
        · exact absurd (show a.wslot w i = a.wslot w a.windowcount by rw [show i = a.windowcount by omega]) he
      rw [hseq i hlt']
      congr 1
      unfold Sender.liveSeq
      rw [hns, hcount, mod_of_lt_two (by omega), mod_of_lt_two (by split_ifs <;> omega)]
      split_ifs <;> omega
  · intro k hk hlive
    rw [hak]
    split_ifs with he
    · rfl
    · apply hd k hk
      rw [← Bool.not_eq_true] at hlive ⊢
      intro hl'
      apply hlive
      rw [Sender.live_iff_wslot h3 h5 hk] at hl'
      rw [Sender.live_iff_wslot (a := a.insert w s p) h3 (by omega) hk]
      obtain ⟨i, hi, hk'⟩ := hl'
      exact ⟨i, by omega, hk'⟩
  · intro _
    rw [hak]
    split_ifs with he
    · rfl
    · apply hfr
      rcases Nat.eq_zero_or_pos a.windowcount with h0 | h0
      · exact absurd (show a.windowfirst = a.wslot w a.windowcount by rw [h0, Sender.wslot_zero h3]) he
      · exact h0

end Sys2Proof.Machine
end

