-- ==== Sys2Proof/Laws/Reorder.lean ====
section
/-! SUPPORT. The receiver's reorder buffer: one lemma for each shared operation over it that says everything it can do. -/

namespace Sys2Proof.Machine

/-! ## Slots after a write -/

theorem Receiver.slot_set {b : Receiver} {j : Nat} {x : Slot} {e : Nat} {n : BitVec 1} (k : Nat) :
    Receiver.slot ⟨e, n, b.rbuf.set j x⟩ k = if k = j ∧ j < b.rbuf.length then x else b.slot k := by
  simp only [Receiver.slot, getD_set]

theorem Receiver.slot_of_length_le {b : Receiver} {k : Nat} (h : b.rbuf.length ≤ k) : b.slot k = Slot.empty := by
  simp [Receiver.slot, h]

theorem Receiver.slot_eq_getElem {b : Receiver} {k : Nat} (h : k < b.rbuf.length) : b.slot k = b.rbuf[k] := by
  simp [Receiver.slot, h]

theorem Receiver.lt_length_of_valid {b : Receiver} {k : Nat} (h : (b.slot k).valid = true) : k < b.rbuf.length := by
  rcases Nat.lt_or_ge k b.rbuf.length with h' | h'
  · exact h'
  · rw [Receiver.slot_of_length_le h'] at h
    exact absurd h (by simp [Slot.empty])

/-! ## Searches (decision D26: the lowest index that qualifies) -/

theorem Receiver.findFree_some {b : Receiver} {k : Nat} : b.findFree = some k ↔
    k < b.rbuf.length ∧ (b.slot k).valid = false ∧ ∀ j, j < k → (b.slot j).valid = true := by
  unfold Receiver.findFree
  rw [List.findIdx?_eq_some_iff_getElem]
  constructor
  · rintro ⟨h, h1, h2⟩
    refine ⟨h, by simpa [Receiver.slot_eq_getElem h] using h1, fun j hj => ?_⟩
    simpa [Receiver.slot_eq_getElem (show j < b.rbuf.length by omega)] using h2 j hj
  · rintro ⟨h, h1, h2⟩
    refine ⟨h, by simpa [Receiver.slot_eq_getElem h] using h1, fun j hj => ?_⟩
    simpa [Receiver.slot_eq_getElem (show j < b.rbuf.length by omega)] using h2 j hj

theorem Receiver.findFree_none {b : Receiver} :
    b.findFree = none ↔ ∀ k, k < b.rbuf.length → (b.slot k).valid = true := by
  unfold Receiver.findFree
  rw [List.findIdx?_eq_none_iff]
  constructor
  · intro h k hk
    simpa [Receiver.slot_eq_getElem hk] using h _ (List.getElem_mem hk)
  · intro h x hx
    obtain ⟨k, hk, rfl⟩ := List.getElem_of_mem hx
    simpa [Receiver.slot_eq_getElem hk] using h k hk

theorem Receiver.findExpected_some {b : Receiver} {k : Nat} : b.findExpected = some k ↔
    (b.slot k).valid = true ∧ (b.slot k).seq = b.expectedseqnum ∧
      ∀ j, j < k → (b.slot j).valid = true → (b.slot j).seq ≠ b.expectedseqnum := by
  unfold Receiver.findExpected
  rw [List.findIdx?_eq_some_iff_getElem]
  constructor
  · rintro ⟨h, h1, h2⟩
    have h1' : (b.slot k).valid = true ∧ (b.slot k).seq = b.expectedseqnum := by
      simpa [Receiver.slot_eq_getElem h] using h1
    refine ⟨h1'.1, h1'.2, fun j hj => ?_⟩
    simpa [Receiver.slot_eq_getElem (show j < b.rbuf.length by omega)] using h2 j hj
  · rintro ⟨hv, hs, h2⟩
    have h := Receiver.lt_length_of_valid hv
    refine ⟨h, by simp [← Receiver.slot_eq_getElem h, hv, hs], fun j hj => ?_⟩
    simpa [Receiver.slot_eq_getElem (show j < b.rbuf.length by omega)] using h2 j hj

theorem Receiver.findExpected_none {b : Receiver} : b.findExpected = none ↔
    ∀ k, (b.slot k).valid = true → (b.slot k).seq ≠ b.expectedseqnum := by
  unfold Receiver.findExpected
  rw [List.findIdx?_eq_none_iff]
  constructor
  · intro h k hv
    have hk := Receiver.lt_length_of_valid hv
    have := h _ (List.getElem_mem hk)
    rw [← Receiver.slot_eq_getElem hk] at this
    simpa [hv] using this
  · intro h x hx
    obtain ⟨k, hk, rfl⟩ := List.getElem_of_mem hx
    rw [← Receiver.slot_eq_getElem hk]
    simpa using h k

/-! ## Occupancy -/

theorem countP_set_valid {l : List Slot} {k : Nat} (hk : k < l.length) (x : Slot) :
    (l.set k x).countP (fun sl => sl.valid) + (if l[k].valid then 1 else 0) =
      l.countP (fun sl => sl.valid) + (if x.valid then 1 else 0) := by
  rw [List.countP_set hk]
  have : l[k].valid = true → 1 ≤ l.countP (fun sl => sl.valid) := by
    intro h
    exact List.countP_pos_iff.2 ⟨_, List.getElem_mem hk, h⟩
  split_ifs with h1 h2 <;> first | omega | (have := this h1; omega)

theorem occupancy_le_length (b : Receiver) : occupancy b ≤ b.rbuf.length := List.countP_le_length

theorem occupancy_eq_zero {b : Receiver} : occupancy b = 0 ↔ ∀ k, (b.slot k).valid = false := by
  unfold occupancy
  rw [List.countP_eq_zero]
  constructor
  · intro h k
    rcases Nat.lt_or_ge k b.rbuf.length with hk | hk
    · rw [Receiver.slot_eq_getElem hk]
      simpa using h _ (List.getElem_mem hk)
    · rw [Receiver.slot_of_length_le hk]; rfl
  · intro h x hx
    obtain ⟨k, hk, rfl⟩ := List.getElem_of_mem hx
    simpa [Receiver.slot_eq_getElem hk] using h k

/-- A slot is free exactly where occupancy is below the number of slots. -/
theorem findFree_isSome {b : Receiver} : (∃ k, b.findFree = some k) ↔ occupancy b < b.rbuf.length := by
  have hall : (∀ k, k < b.rbuf.length → (b.slot k).valid = true) ↔ occupancy b = b.rbuf.length := by
    unfold occupancy
    rw [List.countP_eq_length]
    constructor
    · intro h x hx
      obtain ⟨k, hk, rfl⟩ := List.getElem_of_mem hx
      simpa [Receiver.slot_eq_getElem hk] using h k hk
    · intro h k hk
      simpa [Receiver.slot_eq_getElem hk] using h _ (List.getElem_mem hk)
  have hle := occupancy_le_length b
  constructor
  · rintro ⟨k, hk⟩
    rcases Nat.lt_or_ge (occupancy b) b.rbuf.length with h | h
    · exact h
    · have := hall.2 (by omega) k (Receiver.findFree_some.1 hk).1
      rw [(Receiver.findFree_some.1 hk).2.1] at this
      exact absurd this (by simp)
  · intro h
    cases hf : b.findFree with
    | some k => exact ⟨k, rfl⟩
    | none =>
      have := hall.1 (Receiver.findFree_none.1 hf)
      omega

/-! ## The store (R174) -/

theorem occupancy_store {b : Receiver} {k seq : Nat} {d : Payload} (h : b.findFree = some k) :
    occupancy (b.store k seq d) = occupancy b + 1 := by
  obtain ⟨hk, hv, -⟩ := Receiver.findFree_some.1 h
  have := countP_set_valid hk ⟨true, seq, d⟩
  rw [← Receiver.slot_eq_getElem hk, hv] at this
  simpa [occupancy, Receiver.store] using this

theorem Receiver.store_inv {b : Receiver} {w s k seq : Nat} {d : Payload} (h : b.Inv w s) (hs : seq < s) :
    (b.store k seq d).Inv w s := by
  obtain ⟨h1, h2, h3⟩ := h
  refine ⟨by simpa [Receiver.store] using h1, h2, fun j hj hv => ?_⟩
  rw [Receiver.store, Receiver.slot_set] at hv ⊢
  split_ifs at hv ⊢ with hc
  · exact hs
  · exact h3 j hj hv

/-! ## One pass of the drain (R173) -/

/-- Freeing a slot and advancing the cursor. -/
def Receiver.pop (b : Receiver) (s k : Nat) : Receiver := (b.free k).advance s

theorem Receiver.pop_slot {b : Receiver} {s k : Nat} (j : Nat) :
    (b.pop s k).slot j = if j = k ∧ k < b.rbuf.length then { b.slot k with valid := false } else b.slot j :=
  Receiver.slot_set j

theorem Receiver.pop_length {b : Receiver} {s k : Nat} : (b.pop s k).rbuf.length = b.rbuf.length := by
  simp [Receiver.pop, Receiver.free, Receiver.advance]

theorem Receiver.pop_occupancy {b : Receiver} {s k : Nat} (hv : (b.slot k).valid = true) :
    occupancy (b.pop s k) + 1 = occupancy b := by
  have hk := Receiver.lt_length_of_valid hv
  have := countP_set_valid hk { b.slot k with valid := false }
  rw [← Receiver.slot_eq_getElem hk, hv] at this
  simpa [occupancy, Receiver.pop, Receiver.free, Receiver.advance] using this

theorem Receiver.advance_inv {b : Receiver} {w s : Nat} (h : b.Inv w s) (hs : 0 < s) : (b.advance s).Inv w s :=
  ⟨h.1, Nat.mod_lt _ hs, h.2.2⟩

theorem Receiver.pop_inv {b : Receiver} {w s k : Nat} (h : b.Inv w s) (hs : 0 < s) : (b.pop s k).Inv w s := by
  refine ⟨by rw [Receiver.pop_length]; exact h.1, Nat.mod_lt _ hs, fun j hj hv => ?_⟩
  rw [Receiver.pop_slot] at hv ⊢
  split_ifs at hv ⊢ with hc
  · exact h.2.2 j hj hv

/-! ## The drain (R173) -/

theorem Receiver.drain_succ (s n : Nat) (b : Receiver) : Receiver.drain s (n + 1) b =
    match b.findExpected with
    | none => (b, [])
    | some k => ((Receiver.drain s n (b.pop s k)).1, (b.slot k).payload :: (Receiver.drain s n (b.pop s k)).2) := rfl

theorem Receiver.drain_of_none {s n : Nat} {b : Receiver} (h : b.findExpected = none) : Receiver.drain s n b = (b, []) := by
  cases n with
  | zero => rfl
  | succ n => rw [Receiver.drain_succ, h]

theorem Receiver.drain_of_some {s n k : Nat} {b : Receiver} (h : b.findExpected = some k) : Receiver.drain s (n + 1) b =
    ((Receiver.drain s n (b.pop s k)).1, (b.slot k).payload :: (Receiver.drain s n (b.pop s k)).2) := by
  rw [Receiver.drain_succ, h]

/-- A bound of at least the occupancy never ends the drain, so any two such bounds give the same drain. -/
theorem Receiver.drain_bound {s : Nat} : ∀ {n m : Nat} {b : Receiver}, occupancy b ≤ n → occupancy b ≤ m →
    Receiver.drain s n b = Receiver.drain s m b
  | n, m, b, hn, hm => by
    cases h : b.findExpected with
    | none => rw [Receiver.drain_of_none h, Receiver.drain_of_none h]
    | some k =>
      have hp := Receiver.pop_occupancy (s := s) (Receiver.findExpected_some.1 h).1
      obtain ⟨n, rfl⟩ := Nat.exists_eq_add_of_lt (show 0 < n by omega)
      obtain ⟨m, rfl⟩ := Nat.exists_eq_add_of_lt (show 0 < m by omega)
      rw [Receiver.drain_of_some h, Receiver.drain_of_some h,
        Receiver.drain_bound (n := 0 + n) (m := 0 + m) (b := b.pop s k) (by omega) (by omega)]

/-- What a drain can do, for any bound: slots only lose their valid bit, one for each payload delivered; the ack bit stays; the cursor moves
one for each. -/
theorem Receiver.drain_frame {s : Nat} : ∀ {n : Nat} {b : Receiver},
    (Receiver.drain s n b).1.nextackseq = b.nextackseq ∧
    (Receiver.drain s n b).1.rbuf.length = b.rbuf.length ∧
    occupancy (Receiver.drain s n b).1 + (Receiver.drain s n b).2.length = occupancy b ∧
    (∀ k, (Receiver.drain s n b).1.slot k = b.slot k ∨
      (b.slot k).valid = true ∧ (Receiver.drain s n b).1.slot k = { b.slot k with valid := false })
  | 0, b => ⟨rfl, rfl, rfl, fun _ => .inl rfl⟩
  | n + 1, b => by
    cases h : b.findExpected with
    | none => rw [Receiver.drain_of_none h]; exact ⟨rfl, rfl, rfl, fun _ => .inl rfl⟩
    | some k =>
      rw [Receiver.drain_of_some h]
      have hv := (Receiver.findExpected_some.1 h).1
      have hp := Receiver.pop_occupancy (s := s) hv
      obtain ⟨h1, h2, h3, h4⟩ := Receiver.drain_frame (s := s) (n := n) (b := b.pop s k)
      refine ⟨h1, h2.trans Receiver.pop_length, ?_, fun j => ?_⟩
      · simp only [List.length_cons]; omega
      · have hj := Receiver.pop_slot (b := b) (s := s) (k := k) j
        by_cases hjk : j = k
        · subst hjk
          rw [if_pos ⟨rfl, Receiver.lt_length_of_valid hv⟩] at hj
          rcases h4 j with h | ⟨hv', -⟩
          · exact .inr ⟨hv, h.trans hj⟩
          · rw [hj] at hv'
            exact absurd hv' (by simp)
        · rw [if_neg (fun h => hjk h.1)] at hj
          rw [← hj]
          exact h4 j

/-- A drain keeps the receiver invariants (R30, R33). -/
theorem Receiver.drain_inv {w s : Nat} (hs : 0 < s) : ∀ {n : Nat} {b : Receiver}, b.Inv w s →
    (Receiver.drain s n b).1.Inv w s
  | 0, _, h => h
  | n + 1, b, h => by
    cases hf : b.findExpected with
    | none => rw [Receiver.drain_of_none hf]; exact h
    | some k => rw [Receiver.drain_of_some hf]; exact Receiver.drain_inv hs (Receiver.pop_inv h hs)

/-- A drain whose bound suffices: it ends where no valid slot holds the cursor's number; the j-th payload is that of a slot that was valid
with the cursor's j-th successor, and is freed. -/
theorem Receiver.drain_spec {s : Nat} : ∀ {n : Nat} {b : Receiver}, occupancy b ≤ n → b.expectedseqnum < s →
    (Receiver.drain s n b).1.findExpected = none ∧
    (Receiver.drain s n b).1.expectedseqnum = (b.expectedseqnum + (Receiver.drain s n b).2.length) % s ∧
    ∀ (j : Nat) (d : Payload), (Receiver.drain s n b).2[j]? = some d →
      ∃ k, b.slot k = ⟨true, (b.expectedseqnum + j) % s, d⟩ ∧ ((Receiver.drain s n b).1.slot k).valid = false
  | n, b, hn, he => by
    cases h : b.findExpected with
    | none =>
      rw [Receiver.drain_of_none h]
      exact ⟨h, by simp [Nat.mod_eq_of_lt he], fun j d hd => absurd hd (by simp)⟩
    | some k =>
      obtain ⟨hv, hs, -⟩ := Receiver.findExpected_some.1 h
      have hp := Receiver.pop_occupancy (s := s) hv
      obtain ⟨n, rfl⟩ := Nat.exists_eq_add_of_lt (show 0 < n by omega)
      rw [Receiver.drain_of_some h]
      obtain ⟨h1, h2, h3⟩ := Receiver.drain_spec (s := s) (n := 0 + n) (b := b.pop s k) (by omega) (Nat.mod_lt _ (by omega))
      have hfr := Receiver.drain_frame (s := s) (n := 0 + n) (b := b.pop s k)
      have hex : (b.pop s k).expectedseqnum = (b.expectedseqnum + 1) % s := rfl
      have hkl := Receiver.lt_length_of_valid hv
      have hkp := Receiver.pop_slot (b := b) (s := s) (k := k) k
      rw [if_pos ⟨rfl, hkl⟩] at hkp
      refine ⟨h1, ?_, ?_⟩
      · rw [h2, hex, Nat.mod_add_mod, List.length_cons]
        congr 1
        omega
      · intro j d hd
        cases j with
        | zero =>
          simp only [List.getElem?_cons_zero, Option.some.injEq] at hd
          subst hd
          refine ⟨k, ?_, ?_⟩
          · rw [Nat.add_zero, Nat.mod_eq_of_lt he, ← hs, ← hv]
          · rcases hfr.2.2.2 k with h | ⟨-, h⟩
            · rw [h, hkp]
            · rw [h]
        | succ j =>
          obtain ⟨k', hk', hf'⟩ := h3 j d (by simpa using hd)
          rw [Receiver.pop_slot] at hk'
          split_ifs at hk' with hc
          · simp at hk'
          · refine ⟨k', ?_, hf'⟩
            rw [hk', hex, Nat.mod_add_mod]
            congr 2
            omega

end Sys2Proof.Machine
end

