-- ==== Sys2Proof/Laws/State.lean ====
section
/-! SUPPORT. One lemma per field for every update of the state, true by rfl, so that no later proof unfolds a record update; and the fields
of a response word and of STATUS. -/

namespace Sys2Proof.Machine

/-! ## `State.respond` -/

@[simp] theorem State.respond_par (s : State) (st : Status) (n : Nat) (d : Option Word) (evs : List Event) :
    (s.respond st n d evs).par = s.par := rfl
@[simp] theorem State.respond_a (s : State) (st : Status) (n : Nat) (d : Option Word) (evs : List Event) :
    (s.respond st n d evs).a = s.a := rfl
@[simp] theorem State.respond_tmrArmed (s : State) (st : Status) (n : Nat) (d : Option Word) (evs : List Event) :
    (s.respond st n d evs).tmrArmed = s.tmrArmed := rfl
@[simp] theorem State.respond_b (s : State) (st : Status) (n : Nat) (d : Option Word) (evs : List Event) :
    (s.respond st n d evs).b = s.b := rfl
@[simp] theorem State.respond_cnt (s : State) (st : Status) (n : Nat) (d : Option Word) (evs : List Event) :
    (s.respond st n d evs).cnt = s.cnt := rfl
@[simp] theorem State.respond_err (s : State) (st : Status) (n : Nat) (d : Option Word) (evs : List Event) :
    (s.respond st n d evs).err = s.err := rfl
@[simp] theorem State.respond_pending (s : State) (st : Status) (n : Nat) (d : Option Word) (evs : List Event) :
    (s.respond st n d evs).pending = s.pending := rfl
@[simp] theorem State.respond_replies (s : State) (st : Status) (n : Nat) (d : Option Word) (evs : List Event) :
    (s.respond st n d evs).replies = s.replies ++ [⟨⟨responseWord st n, d⟩, evs⟩] := rfl

/-! ## `State.raise` -/

@[simp] theorem State.raise_par (s : State) (x : IfError) (d : Option Word) :
    (s.raise x d).par = s.par := rfl
@[simp] theorem State.raise_a (s : State) (x : IfError) (d : Option Word) :
    (s.raise x d).a = s.a := rfl
@[simp] theorem State.raise_tmrArmed (s : State) (x : IfError) (d : Option Word) :
    (s.raise x d).tmrArmed = s.tmrArmed := rfl
@[simp] theorem State.raise_b (s : State) (x : IfError) (d : Option Word) :
    (s.raise x d).b = s.b := rfl
@[simp] theorem State.raise_cnt (s : State) (x : IfError) (d : Option Word) :
    (s.raise x d).cnt = s.cnt := rfl
@[simp] theorem State.raise_err (s : State) (x : IfError) (d : Option Word) :
    (s.raise x d).err = setSticky x s.err := rfl
@[simp] theorem State.raise_pending (s : State) (x : IfError) (d : Option Word) :
    (s.raise x d).pending = s.pending := rfl
@[simp] theorem State.raise_replies (s : State) (x : IfError) (d : Option Word) :
    (s.raise x d).replies = s.replies ++ [⟨⟨responseWord (errorStatus x) 0, d⟩, []⟩] := rfl

/-! ## `State.offer` -/

@[simp] theorem State.offer_par (s : State) (x : Stimulus) :
    (s.offer x).par = s.par := rfl
@[simp] theorem State.offer_a (s : State) (x : Stimulus) :
    (s.offer x).a = s.a := rfl
@[simp] theorem State.offer_tmrArmed (s : State) (x : Stimulus) :
    (s.offer x).tmrArmed = s.tmrArmed := rfl
@[simp] theorem State.offer_b (s : State) (x : Stimulus) :
    (s.offer x).b = s.b := rfl
@[simp] theorem State.offer_cnt (s : State) (x : Stimulus) :
    (s.offer x).cnt = s.cnt := rfl
@[simp] theorem State.offer_err (s : State) (x : Stimulus) :
    (s.offer x).err = s.err := rfl
@[simp] theorem State.offer_pending (s : State) (x : Stimulus) :
    (s.offer x).pending = x :: s.pending := rfl
@[simp] theorem State.offer_replies (s : State) (x : Stimulus) :
    (s.offer x).replies = s.replies := rfl

/-! ## `State.taken` -/

@[simp] theorem State.taken_par (s : State) (rest : List Stimulus) :
    (s.taken rest).par = s.par := rfl
@[simp] theorem State.taken_a (s : State) (rest : List Stimulus) :
    (s.taken rest).a = s.a := rfl
@[simp] theorem State.taken_tmrArmed (s : State) (rest : List Stimulus) :
    (s.taken rest).tmrArmed = s.tmrArmed := rfl
@[simp] theorem State.taken_b (s : State) (rest : List Stimulus) :
    (s.taken rest).b = s.b := rfl
@[simp] theorem State.taken_cnt (s : State) (rest : List Stimulus) :
    (s.taken rest).cnt = s.cnt := rfl
@[simp] theorem State.taken_err (s : State) (rest : List Stimulus) :
    (s.taken rest).err = s.err := rfl
@[simp] theorem State.taken_pending (s : State) (rest : List Stimulus) :
    (s.taken rest).pending = rest := rfl
@[simp] theorem State.taken_replies (s : State) (rest : List Stimulus) :
    (s.taken rest).replies = s.replies := rfl

/-! ## `State.answered` -/

@[simp] theorem State.answered_par (s : State) (rsp : Word) (d : Option Word) :
    (s.answered rsp d).par = s.par := rfl
@[simp] theorem State.answered_a (s : State) (rsp : Word) (d : Option Word) :
    (s.answered rsp d).a = s.a := rfl
@[simp] theorem State.answered_tmrArmed (s : State) (rsp : Word) (d : Option Word) :
    (s.answered rsp d).tmrArmed = s.tmrArmed := rfl
@[simp] theorem State.answered_b (s : State) (rsp : Word) (d : Option Word) :
    (s.answered rsp d).b = s.b := rfl
@[simp] theorem State.answered_cnt (s : State) (rsp : Word) (d : Option Word) :
    (s.answered rsp d).cnt = s.cnt := rfl
@[simp] theorem State.answered_err (s : State) (rsp : Word) (d : Option Word) :
    (s.answered rsp d).err = s.err := rfl
@[simp] theorem State.answered_pending (s : State) (rsp : Word) (d : Option Word) :
    (s.answered rsp d).pending = s.pending := rfl
@[simp] theorem State.answered_replies (s : State) (rsp : Word) (d : Option Word) :
    (s.answered rsp d).replies = s.replies ++ [⟨⟨rsp, d⟩, []⟩] := rfl

/-! ## `State.hardReset` -/

@[simp] theorem State.hardReset_par (s : State) :
    (s.hardReset).par = s.par := rfl
@[simp] theorem State.hardReset_a (s : State) :
    (s.hardReset).a = Sender.reset s.par := rfl
@[simp] theorem State.hardReset_tmrArmed (s : State) :
    (s.hardReset).tmrArmed = false := rfl
@[simp] theorem State.hardReset_b (s : State) :
    (s.hardReset).b = Receiver.reset s.par := rfl
@[simp] theorem State.hardReset_cnt (s : State) :
    (s.hardReset).cnt = Counters.zero := rfl
@[simp] theorem State.hardReset_err (s : State) :
    (s.hardReset).err = Sticky.clear := rfl
@[simp] theorem State.hardReset_pending (s : State) :
    (s.hardReset).pending = s.pending := rfl
@[simp] theorem State.hardReset_replies (s : State) :
    (s.hardReset).replies = s.replies := rfl

/-! ## Response words (30_encoding.md R89) -/

/-- RSP[7:0] is the status code. -/
@[simp] theorem responseWord_status (st : Status) (n : Nat) : (responseWord st n).extractLsb' 0 8 = statusCode st := by
  apply BitVec.eq_of_getLsbD_eq
  intro i hi
  simp only [responseWord, BitVec.getLsbD_append, BitVec.getLsbD_extractLsb']
  split_ifs <;> first | omega | (rw [decide_eq_true hi, Bool.true_and]; congr 1; omega)

/-- RSP[15:8] is the count. -/
@[simp] theorem responseWord_count (st : Status) (n : Nat) : (responseWord st n).extractLsb' 8 8 = BitVec.ofNat 8 n := by
  apply BitVec.eq_of_getLsbD_eq
  intro i hi
  simp only [responseWord, BitVec.getLsbD_append, BitVec.getLsbD_extractLsb']
  split_ifs <;> first | omega | (rw [decide_eq_true hi, Bool.true_and]; congr 1; omega)

/-- RSP[31:16] is 0. -/
@[simp] theorem responseWord_upper (st : Status) (n : Nat) : (responseWord st n).extractLsb' 16 16 = 0#16 := by
  apply BitVec.eq_of_getLsbD_eq
  intro i hi
  simp only [responseWord, BitVec.getLsbD_append, BitVec.getLsbD_extractLsb']
  split_ifs <;> first | omega | simp

/-- The response word as a number. -/
theorem responseWord_eq_ofNat (st : Status) {n : Nat} (h : n < 256) :
    responseWord st n = BitVec.ofNat 32 (256 * n + (statusCode st).toNat) := by
  apply BitVec.eq_of_toNat_eq
  have hs := (statusCode st).isLt
  simp only [responseWord, BitVec.toNat_append, BitVec.toNat_ofNat]
  rw [Nat.zero_mod, Nat.zero_shiftLeft, Nat.zero_or, Nat.shiftLeft_eq, Nat.mod_eq_of_lt (show n < 2 ^ 8 by omega), Nat.mul_comm n,
    ← Nat.two_pow_add_eq_or_of_lt hs, Nat.mod_eq_of_lt (by omega)]

/-- No two statuses share a code (R90). -/
theorem statusCode_injective {x y : Status} (h : statusCode x = statusCode y) : x = y := by
  revert h
  cases x <;> cases y <;> decide

/-! ## STATUS (10_state.md R35) -/

/-- The fields of STATUS. -/
theorem statusReg_fields (armed : Bool) (e : Sticky) :
    (statusReg armed e).getLsbD 0 = armed ∧ (statusReg armed e).getLsbD 1 = e.illegal ∧
    (statusReg armed e).getLsbD 2 = e.badReg ∧ (statusReg armed e).getLsbD 3 = e.timer ∧
    (statusReg armed e).extractLsb' 4 28 = 0#28 := by
  obtain ⟨x, y, z⟩ := e
  revert armed x y z
  decide

end Sys2Proof.Machine
end

