-- ==== Sys2Proof/Laws/Exec.lean ====
section
/-! SUPPORT. What a command can do, said once: every command answers a next state that is some state of the engines with one reply added;
and the outcomes of A_SUBMIT, A_ACK_IN, A_TIMEOUT and B_PKT_IN, case by case. -/

namespace Sys2Proof.Machine

/-- Every command goes on, adds one reply, and leaves the parameters and the queue. -/
theorem exec_reply (i : Instr) (s : State) : ∃ t st n d evs, exec i s = .next t ∧
    t.replies = s.replies ++ [⟨⟨responseWord st n, d⟩, evs⟩] ∧ t.par = s.par ∧ t.pending = s.pending := by
  cases i with
  | nop => exact ⟨_, _, _, _, _, rfl, rfl, rfl, rfl⟩
  | aInit => exact ⟨_, _, _, _, _, rfl, rfl, rfl, rfl⟩
  | aSubmit m =>
    simp only [exec, execASubmit]
    split_ifs <;> exact ⟨_, _, _, _, _, rfl, rfl, rfl, rfl⟩
  | aAckIn p =>
    simp only [exec, execAAckIn]
    cases corrupt s.par p <;> exact ⟨_, _, _, _, _, rfl, rfl, rfl, rfl⟩
  | aTimeout =>
    simp only [exec, execATimeout]
    split_ifs <;> exact ⟨_, _, _, _, _, rfl, rfl, rfl, rfl⟩
  | bInit => exact ⟨_, _, _, _, _, rfl, rfl, rfl, rfl⟩
  | bPktIn p =>
    simp only [exec, execBPktIn]
    split_ifs
    · exact ⟨_, _, _, _, _, rfl, rfl, rfl, rfl⟩
    · exact ⟨_, _, _, _, _, rfl, rfl, rfl, rfl⟩
    · exact ⟨_, _, _, _, _, rfl, rfl, rfl, rfl⟩
    · split <;> exact ⟨_, _, _, _, _, rfl, rfl, rfl, rfl⟩
    · exact ⟨_, _, _, _, _, rfl, rfl, rfl, rfl⟩
  | chkEval p => exact ⟨_, _, _, _, _, rfl, rfl, rfl, rfl⟩
  | regRead idx =>
    simp only [exec, execRegRead]
    split <;> exact ⟨_, _, _, _, _, rfl, rfl, rfl, rfl⟩

/-- The sender after A_ACK_IN's mark. -/
def Sender.marked (a : Sender) (w : Nat) (n : Word) : Sender :=
  match a.findUnacked w n with
  | some k => a.markAcked k
  | none => a

/-- The sender and the number of freed slots after A_ACK_IN's mark and slide. -/
def Sender.afterAck (a : Sender) (w : Nat) (n : Word) : Sender × Nat :=
  Sender.slide w (a.marked w n).windowcount (a.marked w n)

/-- A valid A_ACK_IN (R132). -/
theorem exec_aAckIn_valid {s : State} {p : Packet} (h : corrupt s.par p = false) :
    exec (.aAckIn p) s = .next ({ s with
      a := (s.a.afterAck s.par.w p.acknum).1
      tmrArmed := !((s.a.afterAck s.par.w p.acknum).1.unackedSlots s.par.w).isEmpty
      cnt := { s.cnt with
        acksRx := s.cnt.acksRx + 1#32
        newAcks := if (s.a.findUnacked s.par.w p.acknum).isSome then s.cnt.newAcks + 1#32 else s.cnt.newAcks } }.respond
      (if (s.a.findUnacked s.par.w p.acknum).isSome then .ackNew else .ackDup) (s.a.afterAck s.par.w p.acknum).2 none
      (stopEvents s.tmrArmed ++
        startEvents s.par (!((s.a.afterAck s.par.w p.acknum).1.unackedSlots s.par.w).isEmpty))) := by
  simp only [exec, execAAckIn, h, Sender.afterAck, Sender.marked]
  rfl

/-- A corrupted A_ACK_IN or B_PKT_IN (R113). -/
theorem exec_aAckIn_corrupt {s : State} {p : Packet} (h : corrupt s.par p = true) :
    exec (.aAckIn p) s = .next (s.respond .corrupt 0 none []) := by
  simp only [exec, execAAckIn, h]; rfl

theorem exec_bPktIn_corrupt {s : State} {p : Packet} (h : corrupt s.par p = true) :
    exec (.bPktIn p) s = .next (s.respond .corrupt 0 none []) := by
  simp only [exec, execBPktIn, h]; rfl

/-! ## The window A_ACK_IN leaves -/

/-- The mark keeps every sender invariant but the front's. -/
theorem Sender.marked_pre {a : Sender} {w s : Nat} {n : Word} (h : a.PreInv w s) : (a.marked w n).PreInv w s := by
  unfold Sender.marked
  cases hf : a.findUnacked w n with
  | none => exact h
  | some k =>
    obtain ⟨i, hi, rfl, -⟩ := Sender.findUnacked_some hf
    exact Sender.markAcked_pre h hi

/-- What the mark never writes. -/
theorem Sender.marked_frame (a : Sender) (w : Nat) (n : Word) : (a.marked w n).wbuf = a.wbuf ∧ (a.marked w n).windowlast = a.windowlast ∧
    (a.marked w n).nextseqnum = a.nextseqnum ∧ (a.marked w n).windowcount = a.windowcount ∧ (a.marked w n).windowfirst = a.windowfirst := by
  unfold Sender.marked; cases a.findUnacked w n <;> exact ⟨rfl, rfl, rfl, rfl, rfl⟩

/-- The slide restores them all (R27). -/
theorem Sender.afterAck_inv {a : Sender} {w s : Nat} {n : Word} (h : a.Inv w s) (hws : w < s) : (a.afterAck w n).1.Inv w s :=
  Sender.slide_inv hws (le_refl _) (Sender.marked_pre (Sender.inv_pre h))

/-- What A_ACK_IN never writes in the sender, and how many slots it frees. -/
theorem Sender.afterAck_frame (a : Sender) (w : Nat) (n : Word) : (a.afterAck w n).1.wbuf = a.wbuf ∧ (a.afterAck w n).1.windowlast = a.windowlast ∧
    (a.afterAck w n).1.nextseqnum = a.nextseqnum ∧ (a.afterAck w n).1.windowcount + (a.afterAck w n).2 = a.windowcount := by
  obtain ⟨h1, h2, h3, h4⟩ := Sender.slide_frame (w := w) (n := (a.marked w n).windowcount) (a := a.marked w n)
  obtain ⟨g1, g2, g3, g4, -⟩ := Sender.marked_frame a w n
  exact ⟨h1.trans g1, h2.trans g2, h3.trans g3, h4.trans g4⟩

/-- In a legal state an unacked live entry remains exactly where the window is not empty (R29, R132). -/
theorem Sender.unackedSlots_of_inv {a : Sender} {w s : Nat} (h : a.Inv w s) :
    (!(a.unackedSlots w).isEmpty) = decide (0 < a.windowcount) := by
  rcases Nat.eq_zero_or_pos a.windowcount with hc | hc
  · simp [Sender.unackedSlots, Sender.liveSlots, hc]
  · have : (a.unackedSlots w).isEmpty = false :=
      Sender.unackedSlots_isEmpty.2 ⟨0, hc, by rw [Sender.wslot_zero h.1.2.2.1]; exact h.2.2.2.2 hc⟩
    simp [this, hc]

/-- In a legal state TMR_ARMED is whether the window is non-empty (R29). -/
theorem State.tmrArmed_eq {s : State} (h : s.TimerOk) : s.tmrArmed = decide (0 < s.a.windowcount) := by
  by_cases hc : 0 < s.a.windowcount
  · simp [hc, h.2 hc]
  · have : s.tmrArmed ≠ true := fun ha => hc (h.1 ha)
    simp [hc, this]

/-! ## Reply fields -/

theorem Reply.statusField_mk (st : Status) (n : Nat) (d evs) : Reply.statusField ⟨⟨responseWord st n, d⟩, evs⟩ = statusCode st := responseWord_status st n

theorem Reply.countField_mk (st : Status) (n : Nat) (d evs) : Reply.countField ⟨⟨responseWord st n, d⟩, evs⟩ = BitVec.ofNat 8 n := responseWord_count st n

/-- The packets a timeout sends (R134). -/
theorem sentByA_retransmission (f : Nat → Packet) (l : List Nat) (b : Bool) (par : Params) : sentByA (l.map (fun k => Event.txA (f k)) ++ startEvents par b) = l.map f := by
  induction l with
  | nil => cases b <;> rfl
  | cons x l ih => exact congrArg (f x :: ·) ih

/-- The payloads an in-order packet delivers (R173). -/
theorem deliveredPayloads_ack_cons (x : Packet) (l : List Payload) : deliveredPayloads (.txB x :: l.map Event.deliver) = l := by
  unfold deliveredPayloads
  rw [List.filterMap_cons, List.filterMap_map]
  exact List.filterMap_some

theorem Sender.unackedSlots_length_le (a : Sender) (w : Nat) : (a.unackedSlots w).length ≤ a.windowcount := by
  unfold Sender.unackedSlots
  refine (List.length_filter_le _ _).trans ?_
  simp [Sender.liveSlots]

/-! ## A_SUBMIT and A_TIMEOUT -/

/-- A_SUBMIT on a full window (R131). -/
theorem exec_aSubmit_full {s : State} {m : Message} (hc : s.a.windowcount = s.par.w) : exec (.aSubmit m) s = .next ({ s with cnt := { s.cnt with windowFull := s.cnt.windowFull + 1#32 } }.respond .windowFull 0 none []) := by
  simp only [exec, execASubmit, hc, ↓reduceIte]

/-- A_TIMEOUT with the timer armed (R134). -/
theorem exec_aTimeout_armed {s : State} (h : s.tmrArmed = true) : exec .aTimeout s = .next ({ s with
      tmrArmed := decide (0 < s.a.windowcount)
      cnt := { s.cnt with retx := s.cnt.retx + BitVec.ofNat 32 (s.a.unackedSlots s.par.w).length } }.respond .ok (s.a.unackedSlots s.par.w).length none
        ((s.a.unackedSlots s.par.w).map (fun k => Event.txA (s.a.packet k)) ++ startEvents s.par (decide (0 < s.a.windowcount)))) := by
  show execATimeout s = _
  unfold execATimeout
  rw [if_neg (by simp [h])]

/-- A_TIMEOUT with no timer start outstanding (R134). -/
theorem exec_aTimeout_idle {s : State} (h : s.tmrArmed = false) : exec .aTimeout s = .next (s.raise .timerIdle none) := by
  show execATimeout s = _
  unfold execATimeout
  rw [if_pos h]

/-! ## B_PKT_IN -/

/-- The receiver with its ack bit toggled (R172). -/
def Receiver.toggled (b : Receiver) : Receiver := { b with nextackseq := ~~~b.nextackseq }

/-- B_PKT_IN with its tests on the receiver before the toggle, which they do not see (R172 to R175). -/
theorem exec_bPktIn_eq (s : State) (p : Packet) : exec (.bPktIn p) s =
    if corrupt s.par p then .next (s.respond .corrupt 0 none [])
    else if p.seqnum.toInt < 0 ∨ (s.par.s : Int) ≤ p.seqnum.toInt then
      .next ({ s with b := s.b.toggled }.respond .rxOutside 0 none [.txB (ackPacket s.par s.b.nextackseq p.seqnum)])
    else if p.seqnum.toInt = s.b.expectedseqnum then
      .next ({ s with
        b := (s.b.toggled.deliverAndDrain s.par.s p.payload).1
        cnt := { s.cnt with
          delivered := s.cnt.delivered + BitVec.ofNat 32 (s.b.toggled.deliverAndDrain s.par.s p.payload).2.length } }.respond
        .rxDelivered (s.b.toggled.deliverAndDrain s.par.s p.payload).2.length none
        (.txB (ackPacket s.par s.b.nextackseq p.seqnum) ::
          (s.b.toggled.deliverAndDrain s.par.s p.payload).2.map Event.deliver))
    else if s.b.offset s.par.s p.seqnum.toInt < s.par.w then
      match s.b.findFree with
      | some k => .next ({ s with b := s.b.toggled.store k p.seqnum.toInt.toNat p.payload }.respond .rxBuffered 0 none
          [.txB (ackPacket s.par s.b.nextackseq p.seqnum)])
      | none => .next ({ s with b := s.b.toggled }.respond .rxDropFull 0 none
          [.txB (ackPacket s.par s.b.nextackseq p.seqnum)])
    else .next ({ s with b := s.b.toggled }.respond .rxOutside 0 none
      [.txB (ackPacket s.par s.b.nextackseq p.seqnum)]) := rfl

/-- A valid B_PKT_IN whose number is out of range or outside the window (R175). -/
theorem exec_bPktIn_outside {s : State} {p : Packet} (h : corrupt s.par p = false)
    (ho : (p.seqnum.toInt < 0 ∨ (s.par.s : Int) ≤ p.seqnum.toInt) ∨
      p.seqnum.toInt ≠ s.b.expectedseqnum ∧ ¬ s.b.offset s.par.s p.seqnum.toInt < s.par.w) :
    exec (.bPktIn p) s = .next ({ s with b := s.b.toggled }.respond .rxOutside 0 none
      [.txB (ackPacket s.par s.b.nextackseq p.seqnum)]) := by
  rw [exec_bPktIn_eq, if_neg (by simp [h])]
  by_cases hr : p.seqnum.toInt < 0 ∨ (s.par.s : Int) ≤ p.seqnum.toInt
  · rw [if_pos hr]
  · obtain ⟨h1, h2⟩ := ho.resolve_left hr
    rw [if_neg hr, if_neg h1, if_neg h2]

/-- A valid in-order B_PKT_IN (R173). -/
theorem exec_bPktIn_expected {s : State} {p : Packet} (h : corrupt s.par p = false)
    (hr : ¬ (p.seqnum.toInt < 0 ∨ (s.par.s : Int) ≤ p.seqnum.toInt)) (he : p.seqnum.toInt = s.b.expectedseqnum) :
    exec (.bPktIn p) s = .next ({ s with
      b := (s.b.toggled.deliverAndDrain s.par.s p.payload).1
      cnt := { s.cnt with
        delivered := s.cnt.delivered + BitVec.ofNat 32 (s.b.toggled.deliverAndDrain s.par.s p.payload).2.length } }.respond
      .rxDelivered (s.b.toggled.deliverAndDrain s.par.s p.payload).2.length none
      (.txB (ackPacket s.par s.b.nextackseq p.seqnum) ::
        (s.b.toggled.deliverAndDrain s.par.s p.payload).2.map Event.deliver)) := by
  rw [exec_bPktIn_eq, if_neg (by simp [h]), if_neg hr, if_pos he]

/-- A valid in-window B_PKT_IN with a free slot (R174). -/
theorem exec_bPktIn_store {s : State} {p : Packet} {k : Nat} (h : corrupt s.par p = false)
    (hr : ¬ (p.seqnum.toInt < 0 ∨ (s.par.s : Int) ≤ p.seqnum.toInt)) (he : p.seqnum.toInt ≠ s.b.expectedseqnum)
    (ho : s.b.offset s.par.s p.seqnum.toInt < s.par.w) (hk : s.b.findFree = some k) :
    exec (.bPktIn p) s = .next ({ s with b := s.b.toggled.store k p.seqnum.toInt.toNat p.payload }.respond .rxBuffered 0 none
      [.txB (ackPacket s.par s.b.nextackseq p.seqnum)]) := by
  rw [exec_bPktIn_eq, if_neg (by simp [h]), if_neg hr, if_neg he, if_pos ho, hk]

/-- A valid in-window B_PKT_IN without a free slot (R174). -/
theorem exec_bPktIn_drop {s : State} {p : Packet} (h : corrupt s.par p = false)
    (hr : ¬ (p.seqnum.toInt < 0 ∨ (s.par.s : Int) ≤ p.seqnum.toInt)) (he : p.seqnum.toInt ≠ s.b.expectedseqnum)
    (ho : s.b.offset s.par.s p.seqnum.toInt < s.par.w) (hk : s.b.findFree = none) :
    exec (.bPktIn p) s = .next ({ s with b := s.b.toggled }.respond .rxDropFull 0 none
      [.txB (ackPacket s.par s.b.nextackseq p.seqnum)]) := by
  rw [exec_bPktIn_eq, if_neg (by simp [h]), if_neg hr, if_neg he, if_pos ho, hk]

/-- Which of the five a B_PKT_IN is. -/
theorem bPktIn_cases (s : State) (p : Packet) : corrupt s.par p = true ∨ corrupt s.par p = false ∧
    (((p.seqnum.toInt < 0 ∨ (s.par.s : Int) ≤ p.seqnum.toInt) ∨
        p.seqnum.toInt ≠ s.b.expectedseqnum ∧ ¬ s.b.offset s.par.s p.seqnum.toInt < s.par.w) ∨
      ¬ (p.seqnum.toInt < 0 ∨ (s.par.s : Int) ≤ p.seqnum.toInt) ∧ (p.seqnum.toInt = s.b.expectedseqnum ∨
        p.seqnum.toInt ≠ s.b.expectedseqnum ∧ s.b.offset s.par.s p.seqnum.toInt < s.par.w ∧
          (s.b.findFree = none ∨ ∃ k, s.b.findFree = some k))) := by
  have hf : s.b.findFree = none ∨ ∃ k, s.b.findFree = some k := by cases s.b.findFree <;> simp
  cases corrupt s.par p
  · right
    tauto
  · left; rfl

/-- What a step can do: nothing with nothing pending, reset, a legal command, an illegal one. -/
theorem step_cases (s : State) :
    (s.pending = [] ∧ step s = .next s) ∨
    (∃ rest, s.pending = .reset :: rest ∧ step s = .next (s.taken rest).hardReset) ∨
    (∃ c rest i, s.pending = .command c :: rest ∧ decode c = .ok i ∧ step s = exec i (s.taken rest)) ∨
    (∃ c rest e, s.pending = .command c :: rest ∧ decode c = .error e ∧
      step s = .next ((s.taken rest).raise .illegalCmd none)) := by
  unfold step
  rcases h : s.pending with _ | ⟨x, rest⟩
  · exact .inl ⟨rfl, rfl⟩
  · cases x with
    | reset => exact .inr (.inl ⟨rest, rfl, rfl⟩)
    | command c =>
      cases hd : decode c with
      | ok i => exact .inr (.inr (.inl ⟨c, rest, i, rfl, hd, by simp [runStimulus, runCommand, hd]⟩))
      | error e =>
        exact .inr (.inr (.inr ⟨c, rest, e, rfl, hd, by simp [runStimulus, runCommand, hd, execIllegal, goOn]⟩))

end Sys2Proof.Machine
end

