-- ==== Sys2Proof/Laws/Fresh.lean ====
section
/-! SUPPORT. Receive offsets, which slots a drain frees, and how the condition of 42_receiver.md R176 (every valid slot at an offset from 1 to
W − 1, no number twice) moves through the receiver's operations. -/

namespace Sys2Proof.Machine

/-! ## Numbers -/

theorem toInt_ofNat_small {n : Nat} (h : n < 65536) : (BitVec.ofNat 32 n).toInt = n := by
  rw [BitVec.toInt_eq_toNat_cond]
  simp only [BitVec.toNat_ofNat]
  rw [Nat.mod_eq_of_lt (by omega), if_pos (by omega)]

/-- A word that reads as a natural number below 2^31 is that number. -/
theorem word_of_toInt {n : Nat} {v : Word} (h : v.toInt = (n : Int)) : v = BitVec.ofNat 32 n := by
  have : BitVec.ofInt 32 v.toInt = BitVec.ofInt 32 n := by rw [h]
  rw [BitVec.ofInt_toInt] at this
  rw [this]; simp

theorem add_mod_inj {e i j s : Nat} (hi : i < s) (hj : j < s) (h : (e + i) % s = (e + j) % s) : i = j := by
  have : i ≡ j [MOD s] := Nat.ModEq.add_left_cancel' e h
  rw [Nat.ModEq, Nat.mod_eq_of_lt hi, Nat.mod_eq_of_lt hj] at this
  exact this

/-! ## Offsets -/

/-- The receive offset of R171 on a number in [0, S), without integers. -/
theorem Receiver.offset_eq_seqOffset {b : Receiver} {s n : Nat} (hb : b.expectedseqnum < s) (hn : n < s) :
    b.offset s (n : Int) = (b.seqOffset s n : Nat) := by
  unfold Receiver.offset Receiver.seqOffset
  rw [add_sub_mod hn hb]
  split_ifs with h
  · rw [Int.add_emod_right, Int.emod_eq_of_lt (by omega) (by omega)]; omega
  · rw [Int.emod_eq_of_lt (by omega) (by omega)]; omega

theorem Receiver.seqOffset_inj {b : Receiver} {s x y : Nat} (hb : b.expectedseqnum < s) (hx : x < s) (hy : y < s)
    (h : b.seqOffset s x = b.seqOffset s y) : x = y := by
  unfold Receiver.seqOffset at h
  rw [add_sub_mod hx hb, add_sub_mod hy hb] at h
  split_ifs at h <;> omega

theorem Receiver.seqOffset_pos {b : Receiver} {s x : Nat} (hb : b.expectedseqnum < s) (hx : x < s) (h : x ≠ b.expectedseqnum) : 1 ≤ b.seqOffset s x := by
  unfold Receiver.seqOffset
  rw [add_sub_mod hx hb]
  split_ifs <;> omega

theorem Receiver.seqOffset_cursor {b : Receiver} {s : Nat} : b.seqOffset s b.expectedseqnum = 0 := by
  unfold Receiver.seqOffset
  simp

/-- Advancing the cursor brings every other number one closer. -/
theorem Receiver.seqOffset_advance {b : Receiver} {s x : Nat} (hb : b.expectedseqnum < s) (hx : x < s) (h1 : 1 ≤ b.seqOffset s x) :
    (b.advance s).seqOffset s x + 1 = b.seqOffset s x := by
  have hb' : (b.advance s).expectedseqnum < s := Nat.mod_lt _ (by omega)
  have he : (b.advance s).expectedseqnum = if b.expectedseqnum + 1 < s then b.expectedseqnum + 1 else b.expectedseqnum + 1 - s :=
    mod_of_lt_two (by omega)
  unfold Receiver.seqOffset at *
  rw [add_sub_mod hx hb] at h1 ⊢
  rw [add_sub_mod hx hb']
  split_ifs at h1 he ⊢ <;> omega

/-! ## Which slots a drain frees -/

/-- A slot that a drain frees held one of the numbers it delivered. -/
theorem Receiver.drain_freed {s : Nat} (hs : 0 < s) : ∀ {n : Nat} {b : Receiver} {k : Nat}, b.expectedseqnum < s → (b.slot k).valid = true → ((Receiver.drain s n b).1.slot k).valid = false →
    ∃ i, i < (Receiver.drain s n b).2.length ∧ (b.slot k).seq = (b.expectedseqnum + i) % s
  | 0, b, k, hb, h, h' => by rw [Receiver.drain, h] at h'; cases h'
  | n + 1, b, k, hb, h, h' => by
    cases hf : b.findExpected with
    | none => rw [Receiver.drain_of_none hf, h] at h'; cases h'
    | some k' =>
      rw [Receiver.drain_of_some hf] at h' ⊢
      obtain ⟨hkv, hke, -⟩ := Receiver.findExpected_some.1 hf
      by_cases hk : k = k'
      · subst hk
        exact ⟨0, by simp, by rw [hke, Nat.add_zero, Nat.mod_eq_of_lt hb]⟩
      · have hsl : (b.pop s k').slot k = b.slot k := by rw [Receiver.pop_slot, if_neg (fun h => hk h.1)]
        obtain ⟨i, hi, he⟩ := Receiver.drain_freed hs (n := n) (b := b.pop s k') (k := k) (Nat.mod_lt _ hs) (by rw [hsl]; exact h) h'
        refine ⟨i + 1, by simpa using hi, ?_⟩
        rw [hsl] at he
        rw [he]
        show ((b.expectedseqnum + 1) % s + i) % s = _
        rw [Nat.mod_add_mod, Nat.add_assoc, Nat.add_comm 1 i]

/-! ## Occupancy as a number of slots -/

theorem occupancy_eq_card (b : Receiver) : occupancy b = ((Finset.range b.rbuf.length).filter (fun k => (b.slot k).valid = true)).card := by
  obtain ⟨e, n, l⟩ := b
  unfold occupancy
  simp only
  induction l using List.reverseRecOn with
  | nil => simp
  | append_singleton l x ih =>
    rw [List.countP_append, ih, List.length_append, List.length_singleton, Finset.range_add_one, Finset.filter_insert]
    have hx : (Receiver.slot ⟨e, n, l ++ [x]⟩ l.length) = x := by simp [Receiver.slot]
    have hrest : (Finset.range l.length).filter (fun k => (Receiver.slot ⟨e, n, l ++ [x]⟩ k).valid = true) =
        (Finset.range l.length).filter (fun k => (Receiver.slot ⟨e, n, l⟩ k).valid = true) := by
      apply Finset.filter_congr
      intro k hk
      rw [Finset.mem_range] at hk
      simp [Receiver.slot, List.getD_eq_getElem?_getD, List.getElem?_append_left hk]
    rw [hx, hrest]
    by_cases hv : x.valid = true
    · rw [if_pos hv, Finset.card_insert_of_notMem (by simp)]; simp [hv]
    · rw [if_neg hv]; simp [hv]

/-! ## R176 -/

/-- Under R176 a number is in at most one valid slot. -/
theorem Receiver.Fresh.slot_unique {b : Receiver} {w s : Nat} (hf : b.Fresh w s) {k j : Nat} (hk : k < w) (hj : j < w)
    (hkv : (b.slot k).valid = true) (hjv : (b.slot j).valid = true) (he : (b.slot k).seq = (b.slot j).seq) : k = j := by
  rcases Nat.lt_trichotomy k j with h | h | h
  · exact absurd he.symm (hf.2 j hj k h hjv hkv)
  · exact h
  · exact absurd he (hf.2 k hk j h hkv hjv)

/-- R176 with offset 0 allowed: what holds inside a drain. -/
def Receiver.NearFresh (b : Receiver) (w s : Nat) : Prop :=
  (∀ k, k < w → (b.slot k).valid = true → b.seqOffset s (b.slot k).seq + 1 ≤ w) ∧
    ∀ k, k < w → ∀ j, j < w → (b.slot k).valid = true → (b.slot j).valid = true → (b.slot k).seq = (b.slot j).seq → k = j

theorem Receiver.advance_nearFresh {b : Receiver} {w s : Nat} (h : b.Inv w s) (hf : b.Fresh w s) : Receiver.NearFresh (b.advance s) w s := by
  refine ⟨fun k hk hv => ?_, fun k hk j hj hkv hjv he => Receiver.Fresh.slot_unique hf hk hj hkv hjv he⟩
  have hv' : (b.slot k).valid = true := hv
  have := hf.1 k hk hv'
  have h2 := Receiver.seqOffset_advance h.2.1 (h.2.2 k hk hv') this.1
  show (b.advance s).seqOffset s (b.slot k).seq + 1 ≤ w
  omega

theorem Receiver.pop_nearFresh {b : Receiver} {w s k : Nat} (h : b.Inv w s) (hf : Receiver.NearFresh b w s) (hk : b.findExpected = some k) : Receiver.NearFresh (b.pop s k) w s := by
  obtain ⟨hkv, hke, -⟩ := Receiver.findExpected_some.1 hk
  have hkl := Receiver.lt_length_of_valid hkv
  have hs : ∀ j, ((b.pop s k).slot j).valid = true → j ≠ k ∧ (b.pop s k).slot j = b.slot j := by
    intro j hj
    rw [Receiver.pop_slot] at hj ⊢
    split_ifs at hj ⊢ with hc
    · refine ⟨fun he => hc ⟨he, hkl⟩, rfl⟩
  refine ⟨fun j hj hv => ?_, fun i hi j hj hiv hjv he => ?_⟩
  · obtain ⟨hne, hsl⟩ := hs j hv
    rw [hsl] at hv ⊢
    have hne' : (b.slot j).seq ≠ b.expectedseqnum := fun hh => hne (hf.2 j hj k (by rw [← h.1]; exact hkl) hv hkv (hh.trans hke.symm))
    have h1 := Receiver.seqOffset_pos h.2.1 (h.2.2 j hj hv) hne'
    have h2 := Receiver.seqOffset_advance h.2.1 (h.2.2 j hj hv) h1
    have h3 := hf.1 j hj hv
    show (b.advance s).seqOffset s (b.slot j).seq + 1 ≤ w
    omega
  · obtain ⟨-, hi2⟩ := hs i hiv
    obtain ⟨-, hj2⟩ := hs j hjv
    rw [hi2] at hiv he; rw [hj2] at hjv he
    exact hf.2 i hi j hj hiv hjv he

theorem Receiver.drain_nearFresh {w s : Nat} (hs : 0 < s) : ∀ {n : Nat} {b : Receiver}, b.Inv w s → Receiver.NearFresh b w s → Receiver.NearFresh (Receiver.drain s n b).1 w s
  | 0, _, _, h => h
  | n + 1, b, hi, h => by
    cases hf : b.findExpected with
    | none => rw [Receiver.drain_of_none hf]; exact h
    | some k => rw [Receiver.drain_of_some hf]; exact Receiver.drain_nearFresh hs (Receiver.pop_inv hi hs) (Receiver.pop_nearFresh hi h hf)

theorem Receiver.deliverAndDrain_fresh {b : Receiver} {w s : Nat} (d : Payload) (h : b.Inv w s) (hf : b.Fresh w s) (hs : 0 < s) :
    (b.deliverAndDrain s d).1.Fresh w s := by
  have h1 := Receiver.advance_inv h hs
  have h2 : Receiver.NearFresh (b.deliverAndDrain s d).1 w s := Receiver.drain_nearFresh hs h1 (Receiver.advance_nearFresh h hf)
  have h3 : (b.deliverAndDrain s d).1.Inv w s := Receiver.drain_inv hs h1
  have h4 : (b.deliverAndDrain s d).1.findExpected = none :=
    (Receiver.drain_spec (s := s) (n := b.rbuf.length) (b := b.advance s) (occupancy_le_length (b.advance s)) h1.2.1).1
  refine ⟨fun k hk hv => ⟨Receiver.seqOffset_pos h3.2.1 (h3.2.2 k hk hv) (Receiver.findExpected_none.1 h4 k hv), by have := h2.1 k hk hv; omega⟩, ?_⟩
  intro k hk j hj hkv hjv he
  have := h2.2 k hk j (by omega) hkv hjv he
  omega

theorem Receiver.store_fresh {b : Receiver} {w s k q : Nat} {d : Payload} (hf : b.Fresh w s)
    (h1 : 1 ≤ b.seqOffset s q) (h2 : b.seqOffset s q ≤ w - 1) (hd : ∀ j, j < w → (b.slot j).valid = true → q ≠ (b.slot j).seq) :
    (b.store k q d).Fresh w s := by
  have hsl : ∀ j, (b.store k q d).slot j = if j = k ∧ k < b.rbuf.length then ⟨true, q, d⟩ else b.slot j := fun j => Receiver.slot_set j
  constructor
  · intro j hj hv
    rw [hsl] at hv ⊢
    split_ifs at hv ⊢ with hc
    · exact ⟨h1, h2⟩
    · exact hf.1 j hj hv
  · intro j hj i hi hjv hiv
    rw [hsl] at hjv hiv ⊢
    rw [hsl]
    split_ifs at hjv hiv ⊢ with hc hc2 hc2
    · omega
    · exact hd i (by omega) hiv
    · exact (hd j hj hjv).symm
    · exact hf.2 j hj i hi hjv hiv

end Sys2Proof.Machine
end

