-- ==== Sys2Proof/Laws/Words.lean ====
section
/-! SUPPORT. Words and bytes: the little-endian layout loses nothing (20_memory.md R62, R64), and the command word's fields. -/

namespace Sys2Proof

@[simp] theorem wordOfBytes_byteOfWord (w : Word) :
    wordOfBytes (byteOfWord w 0) (byteOfWord w 1) (byteOfWord w 2) (byteOfWord w 3) = w := by
  apply BitVec.eq_of_getLsbD_eq
  intro i hi
  simp only [wordOfBytes, byteOfWord, BitVec.getLsbD_append, BitVec.getLsbD_extractLsb']
  split_ifs <;> (rw [decide_eq_true (by omega), Bool.true_and]; congr 1; omega)

@[simp] theorem byteOfWord_zero (b0 b1 b2 b3 : Byte) : byteOfWord (wordOfBytes b0 b1 b2 b3) 0 = b0 := by
  apply BitVec.eq_of_getLsbD_eq
  intro i hi
  simp only [wordOfBytes, byteOfWord, BitVec.getLsbD_append, BitVec.getLsbD_extractLsb']
  split_ifs <;> first | omega | (rw [decide_eq_true hi, Bool.true_and]; congr 1; omega)

@[simp] theorem byteOfWord_one (b0 b1 b2 b3 : Byte) : byteOfWord (wordOfBytes b0 b1 b2 b3) 1 = b1 := by
  apply BitVec.eq_of_getLsbD_eq
  intro i hi
  simp only [wordOfBytes, byteOfWord, BitVec.getLsbD_append, BitVec.getLsbD_extractLsb']
  split_ifs <;> first | omega | (rw [decide_eq_true hi, Bool.true_and]; congr 1; omega)

@[simp] theorem byteOfWord_two (b0 b1 b2 b3 : Byte) : byteOfWord (wordOfBytes b0 b1 b2 b3) 2 = b2 := by
  apply BitVec.eq_of_getLsbD_eq
  intro i hi
  simp only [wordOfBytes, byteOfWord, BitVec.getLsbD_append, BitVec.getLsbD_extractLsb']
  split_ifs <;> first | omega | (rw [decide_eq_true hi, Bool.true_and]; congr 1; omega)

@[simp] theorem byteOfWord_three (b0 b1 b2 b3 : Byte) : byteOfWord (wordOfBytes b0 b1 b2 b3) 3 = b3 := by
  apply BitVec.eq_of_getLsbD_eq
  intro i hi
  simp only [wordOfBytes, byteOfWord, BitVec.getLsbD_append, BitVec.getLsbD_extractLsb']
  split_ifs <;> first | omega | (rw [decide_eq_true hi, Bool.true_and]; congr 1; omega)

@[simp] theorem bytesOfWord_length (w : Word) : (bytesOfWord w).length = 4 := rfl

@[simp] theorem bytesOfPacket_length (p : Packet) : (bytesOfPacket p).length = 12 + p.payload.length := by
  simp [bytesOfPacket]
  omega

/-- A packet survives its layout (R62). -/
@[simp] theorem packetOfBytes_bytesOfPacket (p : Packet) : packetOfBytes (bytesOfPacket p) = p := by
  simp [packetOfBytes, bytesOfPacket, bytesOfWord, wordAt]

/-- Every byte string of at least 12 bytes is the layout of the packet it spells (R62). -/
theorem bytesOfPacket_packetOfBytes {bs : List Byte} (h : 12 ≤ bs.length) : bytesOfPacket (packetOfBytes bs) = bs := by
  rcases bs with _ | ⟨b0, _ | ⟨b1, _ | ⟨b2, _ | ⟨b3, _ | ⟨b4, _ | ⟨b5, _ | ⟨b6, _ | ⟨b7, _ | ⟨b8, _ | ⟨b9, _ | ⟨b10, _ | ⟨b11, rest⟩⟩⟩⟩⟩⟩⟩⟩⟩⟩⟩⟩
  all_goals first
    | (simp at h; done)
    | (simp at h; omega)
    | simp [bytesOfPacket, packetOfBytes, wordAt, bytesOfWord]

/-! ## Command word fields (R81) -/

@[simp] theorem cwOpc_mkCw (opc reg : Byte) : cwOpc (mkCw opc reg) = opc := byteOfWord_zero opc 0#8 reg 0#8
@[simp] theorem cwRsv0_mkCw (opc reg : Byte) : cwRsv0 (mkCw opc reg) = 0#8 := byteOfWord_one opc 0#8 reg 0#8
@[simp] theorem cwReg_mkCw (opc reg : Byte) : cwReg (mkCw opc reg) = reg := byteOfWord_two opc 0#8 reg 0#8
@[simp] theorem cwRsv1_mkCw (opc reg : Byte) : cwRsv1 (mkCw opc reg) = 0#8 := byteOfWord_three opc 0#8 reg 0#8

/-- A command word whose reserved fields are 0 is its opcode and its register index. -/
theorem mkCw_of_fields {cw : Word} (h0 : cwRsv0 cw = 0#8) (h1 : cwRsv1 cw = 0#8) : mkCw (cwOpc cw) (cwReg cw) = cw := by
  have h := wordOfBytes_byteOfWord cw
  rw [show byteOfWord cw 1 = 0#8 from h0, show byteOfWord cw 3 = 0#8 from h1] at h
  exact h

/-! ## Opcodes (R82) -/

/-- The opcode of an assigned code is found, and only its own code names it. -/
theorem opcodeOf_eq_some {b : Byte} {o : Opcode} : opcodeOf b = some o ↔ opcodeCode o = b := by
  constructor
  · intro h
    simpa using List.find?_some h
  · rintro rfl
    cases o <;> rfl

/-- A command transaction survives its bytes (R81). -/
@[simp] theorem commandOfBytes_bytesOfCommand (c : Command) : commandOfBytes (bytesOfCommand c) = some c := by
  simp [bytesOfCommand, bytesOfWord, commandOfBytes]

/-- What the decoder accepts, said once (R87). -/
theorem decode_eq_ok {c : Command} {i : Instr} :
    decode c = .ok i ↔ ∃ o, opcodeCode o = cwOpc c.cw ∧ cwRsv0 c.cw = 0#8 ∧ cwRsv1 c.cw = 0#8 ∧
      (o = .regRead ∨ cwReg c.cw = 0#8) ∧ c.opnd.length = opcodeLen o ∧ i = buildInstr o (cwReg c.cw) c.opnd := by
  unfold decode
  cases h : opcodeOf (cwOpc c.cw) with
  | none =>
    simp only [reduceCtorEq, false_iff, not_exists]
    rintro o ⟨ho, -⟩
    rw [opcodeOf_eq_some.2 ho] at h
    exact absurd h (by simp)
  | some o =>
    have ho := opcodeOf_eq_some.1 h
    constructor
    · intro hd
      refine ⟨o, ho, ?_⟩
      dsimp only at hd
      split_ifs at hd with h0 h1 h2 h3
      simp only [ne_eq, not_not] at h0 h1 h3
      refine ⟨h0, h1, ?_, h3, (Except.ok.inj hd).symm⟩
      by_cases hr : o = .regRead
      · exact .inl hr
      · exact .inr (by simpa [hr] using h2)
    · rintro ⟨o', ho', h0, h1, hr, hl, rfl⟩
      have : o' = o := by
        have := opcodeOf_eq_some.2 ho'
        rw [h] at this
        exact (Option.some.inj this).symm
      subst this
      rcases hr with rfl | hr
      · simp [h0, h1, hl]
      · simp [h0, h1, hr, hl]

end Sys2Proof
end

