-- ==== Sys2Proof/Laws/PerInstr.lean ====
section
/-! SUPPORT. Statements for all commands, one lemma per constructor: the family Legal, that the encoding of a well-formed command is legal as
30_encoding.md R87 writes legality. -/

open Sys2Proof Sys2Proof.Machine

/-- A command word with reserved fields 0 is legal where its opcode is assigned, REG is 0 unless it is REG_READ, and the operand fits. -/
theorem Sys2Proof.Machine.legalCommand_mkCw {o : Opcode} {reg : Byte} {opnd : List Byte} (hr : o = .regRead ∨ reg = 0#8)
    (hl : opnd.length = opcodeLen o) : LegalCommand ⟨mkCw (opcodeCode o) reg, opnd⟩ := by
  have h0 : (mkCw (opcodeCode o) reg).extractLsb' 0 8 = opcodeCode o := cwOpc_mkCw _ _
  have h2 : (mkCw (opcodeCode o) reg).extractLsb' 16 8 = reg := cwReg_mkCw _ _
  refine ⟨?_, cwRsv0_mkCw _ _, cwRsv1_mkCw _ _, ?_, ?_⟩
  · simp only [h0]
    cases o <;> decide
  · simp only [h0, h2]
    rcases hr with rfl | hr
    · exact .inl rfl
    · exact .inr hr
  · simp only [h0, hl]
    cases o <;> rfl

/-- The encoding of a well-formed command satisfies `legal(CW, OPND)` (R87). -/
def Sys2Proof.Laws.Legal.Statement (i : Instr) : Prop := i.wf = true → LegalCommand (encode i)

theorem Sys2Proof.Laws.Legal.nop : Sys2Proof.Laws.Legal.Statement .nop := fun _ => legalCommand_mkCw (.inr rfl) rfl

theorem Sys2Proof.Laws.Legal.aInit : Sys2Proof.Laws.Legal.Statement .aInit := fun _ => legalCommand_mkCw (.inr rfl) rfl

theorem Sys2Proof.Laws.Legal.aSubmit (m : Message) : Sys2Proof.Laws.Legal.Statement (.aSubmit m) := fun h =>
  legalCommand_mkCw (.inr rfl) (beq_iff_eq.1 h)

theorem Sys2Proof.Laws.Legal.aAckIn (p : Packet) : Sys2Proof.Laws.Legal.Statement (.aAckIn p) := fun h =>
  legalCommand_mkCw (.inr rfl) ((bytesOfPacket_length p).trans (congrArg (12 + ·) (beq_iff_eq.1 h)))

theorem Sys2Proof.Laws.Legal.aTimeout : Sys2Proof.Laws.Legal.Statement .aTimeout := fun _ => legalCommand_mkCw (.inr rfl) rfl

theorem Sys2Proof.Laws.Legal.bInit : Sys2Proof.Laws.Legal.Statement .bInit := fun _ => legalCommand_mkCw (.inr rfl) rfl

theorem Sys2Proof.Laws.Legal.bPktIn (p : Packet) : Sys2Proof.Laws.Legal.Statement (.bPktIn p) := fun h =>
  legalCommand_mkCw (.inr rfl) ((bytesOfPacket_length p).trans (congrArg (12 + ·) (beq_iff_eq.1 h)))

theorem Sys2Proof.Laws.Legal.chkEval (p : Packet) : Sys2Proof.Laws.Legal.Statement (.chkEval p) := fun h =>
  legalCommand_mkCw (.inr rfl) ((bytesOfPacket_length p).trans (congrArg (12 + ·) (beq_iff_eq.1 h)))

theorem Sys2Proof.Laws.Legal.regRead (idx : Byte) : Sys2Proof.Laws.Legal.Statement (.regRead idx) := fun _ =>
  legalCommand_mkCw (.inl rfl) rfl
end

