-- ==== Sys2Proof/Laws/Registers.lean ====
section
/-! SUPPORT. The registers that are not stored as they read: A_ACKSTATUS and the slot registers, field by field (10_state.md R36). -/

namespace Sys2Proof.Machine

/-- A_ACKSTATUS bit by bit. -/
theorem ackStatusReg_getLsbD (a : Sender) (w k : Nat) (hk : k < 32) :
    (ackStatusReg a w).getLsbD k = (decide (k < w) && a.acked k) := by
  unfold ackStatusReg
  have gen : ∀ l : List Nat, (l.foldr (fun k v => (if a.acked k then BitVec.twoPow 32 k else 0#32) ||| v) 0#32).getLsbD k = (decide (k ∈ l) && a.acked k) := by
    intro l
    induction l with
    | nil => simp
    | cons x l ih =>
      rw [List.foldr_cons, BitVec.getLsbD_or, ih]
      by_cases hx : k = x
      · subst hx
        cases hf : a.acked k <;> simp [hk]
      · have : (if a.acked x = true then BitVec.twoPow 32 x else 0#32).getLsbD k = false := by
          split_ifs
          · simp [BitVec.getLsbD_twoPow, Ne.symm hx]
          · simp
        simp [this, hx]
  rw [gen]; simp

/-- A_SLOT[k] field by field. -/
theorem aSlotReg_fields (a : Sender) (w k : Nat) : (aSlotReg a w k).getLsbD 31 = a.live w k ∧ (aSlotReg a w k).getLsbD 30 = a.acked k ∧
    (aSlotReg a w k).extractLsb' 16 14 = 0#14 ∧
    (aSlotReg a w k).extractLsb' 0 16 = if a.live w k then (a.packet k).seqnum.extractLsb' 0 16 else 0#16 := by
  unfold aSlotReg
  generalize (if a.live w k = true then (a.packet k).seqnum.extractLsb' 0 16 else 0#16) = x
  refine ⟨?_, ?_, ?_, ?_⟩
  · simp only [BitVec.getLsbD_append]; simp
  · simp only [BitVec.getLsbD_append]; simp
  · apply BitVec.eq_of_getLsbD_eq; intro i hi
    simp only [BitVec.getLsbD_extractLsb', BitVec.getLsbD_append]
    simp [hi, show ¬ (16 + i < 16) by omega]
  · apply BitVec.eq_of_getLsbD_eq; intro i hi
    simp only [BitVec.getLsbD_extractLsb', BitVec.getLsbD_append]
    simp [hi]

/-- B_SLOT[k] field by field. -/
theorem bSlotReg_fields (b : Receiver) (k : Nat) : (bSlotReg b k).getLsbD 31 = (b.slot k).valid ∧
    (bSlotReg b k).extractLsb' 16 15 = 0#15 ∧
    (bSlotReg b k).extractLsb' 0 16 = if (b.slot k).valid then BitVec.ofNat 16 (b.slot k).seq else 0#16 := by
  unfold bSlotReg
  generalize (if (b.slot k).valid = true then BitVec.ofNat 16 (b.slot k).seq else 0#16) = x
  refine ⟨?_, ?_, ?_⟩
  · simp only [BitVec.getLsbD_append]; simp
  · apply BitVec.eq_of_getLsbD_eq; intro i hi
    simp only [BitVec.getLsbD_extractLsb', BitVec.getLsbD_append]
    simp [hi, show ¬ (16 + i < 16) by omega]
  · apply BitVec.eq_of_getLsbD_eq; intro i hi
    simp only [BitVec.getLsbD_extractLsb', BitVec.getLsbD_append]
    simp [hi]

theorem regValue_aSlot {s : State} {k : Nat} (hw : s.par.w ≤ 32) (hk : k < s.par.w) :
    regValue s (0x40 + k) = some (aSlotReg s.a s.par.w k) := by
  have h := hk.trans_le hw
  unfold regValue
  split <;> first | omega | skip
  rw [if_pos (by omega)]
  congr; omega

theorem regValue_bSlot {s : State} {k : Nat} (hw : s.par.w ≤ 32) (hk : k < s.par.w) :
    regValue s (0x60 + k) = some (bSlotReg s.b k) := by
  have h := hk.trans_le hw
  unfold regValue
  split <;> first | omega | skip
  rw [if_neg (by omega), if_pos (by omega)]
  congr; omega

end Sys2Proof.Machine
end

