-- ==== Sys2Proof/Laws/World.lean ====
section
/-! SUPPORT. The block's surroundings: what absorbing events changes, and what a hardware reset and an issued stimulus are (60_exceptions.md
R230, R231, 70_reset_and_hazards.md R261). -/

namespace Sys2Proof.Machine

@[simp] theorem World.handHost_block (w : World) (x : Stimulus) :
    (w.handHost x).block = { w.block with pending := w.block.pending ++ [x] } := rfl
@[simp] theorem World.handHost_timer (w : World) (x : Stimulus) : (w.handHost x).timer = w.timer := rfl
@[simp] theorem World.handHost_outstanding (w : World) (x : Stimulus) : (w.handHost x).outstanding = w.outstanding := rfl

@[simp] theorem World.resetCollaborators_block (w : World) (t c a : Bool) : (w.resetCollaborators t c a).block = w.block := rfl
@[simp] theorem World.resetCollaborators_timer (w : World) (t c a : Bool) :
    (w.resetCollaborators t c a).timer = if t then none else w.timer := rfl
@[simp] theorem World.resetCollaborators_outstanding (w : World) (t c a : Bool) :
    (w.resetCollaborators t c a).outstanding = if t then none else w.outstanding := rfl
@[simp] theorem World.resetCollaborators_chanAB (w : World) (t c a : Bool) :
    (w.resetCollaborators t c a).chanAB = if c then [] else w.chanAB := rfl
@[simp] theorem World.resetCollaborators_chanBA (w : World) (t c a : Bool) :
    (w.resetCollaborators t c a).chanBA = if c then [] else w.chanBA := rfl
@[simp] theorem World.resetCollaborators_received (w : World) (t c a : Bool) :
    (w.resetCollaborators t c a).received = if a then [] else w.received := rfl

/-- Hardware reset changes the block only (R261). -/
theorem World.resetBlock_eq (w : World) : w.resetBlock = some { w with block := w.block.hardReset } := rfl

/-- No collaborator writes the block. -/
@[simp] theorem absorb_foldl_block (evs : List Event) : ∀ w : World, (evs.foldl absorb w).block = w.block := by
  induction evs with
  | nil => intro w; rfl
  | cons e es ih => intro w; rw [List.foldl_cons, ih]; cases e <;> rfl

/-- The outstanding start after a command's events is what the events make of the timer record (R226, R229). -/
theorem absorb_foldl_outstanding : ∀ (evs : List Event) (w : World) (b : Bool), timerAfter w.outstanding.isSome evs = some b →
    (evs.foldl absorb w).outstanding.isSome = b
  | [], w, b, h => by simpa [timerAfter] using h
  | e :: es, w, b, h => by
    rw [List.foldl_cons]
    apply absorb_foldl_outstanding es
    cases e with
    | txA p => exact h
    | txB p => exact h
    | deliver d => exact h
    | tmrStart n =>
      simp only [timerAfter] at h
      split_ifs at h
      exact h
    | tmrStop =>
      simp only [timerAfter] at h
      split_ifs at h
      exact h

/-- Events keep a running timer running for the outstanding start. A start on a running timer replaces it, log entry 20. -/
theorem absorb_foldl_timer : ∀ (evs : List Event) (w : World), w.timer = none ∨ w.timer = w.outstanding →
    (evs.foldl absorb w).timer = none ∨ (evs.foldl absorb w).timer = (evs.foldl absorb w).outstanding
  | [], _, h => h
  | e :: es, w, h => by
    rw [List.foldl_cons]
    apply absorb_foldl_timer es
    cases e with
    | txA p => exact h
    | txB p => exact h
    | deliver d => exact h
    | tmrStart n => exact .inr rfl
    | tmrStop => exact .inl rfl

/-- Whatever stood before a timer start, it makes the timer run for the outstanding start. -/
theorem absorb_foldl_timer_of_start (evs : List Event) (n : Nat) (w : World) :
    ((evs ++ [Event.tmrStart n]).foldl absorb w).timer = ((evs ++ [Event.tmrStart n]).foldl absorb w).outstanding := by
  rw [List.foldl_append]; rfl

/-- Issuing a stimulus that goes on with the events `evs` (R231). -/
theorem World.issueNext_eq {w : World} {x : Stimulus} {rest : List Stimulus} {t : State}
    (h : step ((w.block.taken rest).offer x) = .next t) :
    w.issueNext x rest = some ((newEvents w.block t).foldl absorb
      { w with block := t, outstanding := if isTimeout x then none else w.outstanding }) := by
  unfold World.issueNext
  rw [h]

end Sys2Proof.Machine
end

