-- ==== Sys2Proof/Tests/Slice0.lean ====
section
/-! SUPPORT. The model's own tests. Expected values come from spec/95_test_vectors.md and from the rules' own examples, named at each
test; then the witnesses that the hypotheses of each statement can be met, one for each clause at the edge of its range. -/

open Sys2Proof Sys2Proof.Machine

namespace Sys2Proof.Tests

set_option Elab.async false

/-! ## Small states -/

/-- The default parameters with a numeral for RTT, which the spec leaves open. -/
def par : Params := { Params.specDefault with rtt := 100 }

/-- W = 1, S = 2: the smallest window and sequence space. -/
def parMin : Params := { par with w := 1, s := 2 }

/-- W = 2, S = 4: a sequence space of 2W. -/
def parHalf : Params := { par with w := 2, s := 4 }

/-- `rep('c')`. -/
def rep (c : Byte) : Message := List.replicate 20 c

/-- `DATA n, rep('c')` and `ACK n, q` as packets (R96). -/
def dat (n : Nat) (c : Byte) : Packet := dataPacket par n (rep c)
def ack (q : BitVec 1) (n : Word) : Packet := ackPacket par q n

/-- A packet with its checksum off by one. -/
def spoil (p : Packet) : Packet := { p with checksum := p.checksum + 1#32 }

/-- The state a list of commands leaves. -/
def after (cmds : List Instr) (s : State) : State :=
  match execAll cmds s with
  | .next t => t
  | .fault _ => s
  | .refused _ => s

/-- The response word of the last command, its DATA, and its events. -/
def lastRsp (s : State) : Option Word := s.replies.getLast?.map (fun r => r.response.rsp)
def lastData (s : State) : Option Word := s.replies.getLast?.bind (fun r => r.response.data)
def lastEvents (s : State) : List Event := (s.replies.getLast?.map (fun r => r.events)).getD []

/-- Reset; three messages outstanding; entry 1 acked; a full window. -/
def base : State := State.resetWith par
def s3 : State := after [.aSubmit (rep 0x61#8), .aSubmit (rep 0x62#8), .aSubmit (rep 0x63#8)] base
def s3mid : State := after [.aAckIn (ack 0#1 1#32)] s3
def full : State := after [.aSubmit (rep 0x64#8), .aSubmit (rep 0x65#8), .aSubmit (rep 0x66#8)] s3

/-- Packet 2 buffered; packets 1 and 2 buffered; packet 0 delivered; every slot valid. -/
def r2 : State := after [.bPktIn (dat 2 0x63#8)] base
def r12 : State := after [.bPktIn (dat 1 0x62#8)] r2
def r0 : State := after [.bPktIn (dat 0 0x61#8)] base
def rfull : State := after (List.replicate 6 (.bPktIn (dat 1 0x62#8))) base

/-- Five outstanding; packets 0 and 1 delivered; packets 1 to 5 buffered. -/
def s5 : State := after [.aSubmit (rep 0x64#8), .aSubmit (rep 0x65#8)] s3
def r01 : State := after [.bPktIn (dat 1 0x62#8)] r0
def r15 : State := after [.bPktIn (dat 3 0x64#8), .bPktIn (dat 4 0x65#8), .bPktIn (dat 5 0x66#8)] r12

/-- `s3` with other contents in a dead sender slot and a free receiver slot. -/
def s3other : State := { s3 with
  a := { s3.a with wbuf := s3.a.wbuf.set 5 (dat 3 0x64#8) }
  b := { s3.b with rbuf := s3.b.rbuf.set 0 ⟨false, 3, rep 0x64#8⟩ } }

/-- The world with one packet on its way. -/
def world1 : World := (World.run [.originate (rep 0x61#8), .submit, .issue 0] (World.boot par)).getD (World.boot par)

/-- That timer has expired, and its A_TIMEOUT waits in the host. -/
def world2 : World := (world1.move .expire).getD world1

/-- A state with one command pending, and the state after one step. -/
def asked (c : Command) (s : State) : State := s.offer (.command c)
def stepped (s : State) : State :=
  match step s with
  | .next t => t
  | .fault _ => s
  | .refused _ => s

/-! ## Well-formed commands -/

/-- A message of 19 bytes, and packets with 21 and 0 payload bytes, are refused (R62, R63). -/
theorem test_short_message_ill_formed : (Instr.aSubmit (List.replicate 19 0x61#8)).wf = false := by decide
theorem test_long_ack_ill_formed : (Instr.aAckIn ⟨0#32, 0#32, 0#32, List.replicate 21 0x30#8⟩).wf = false := by decide
theorem test_bare_packet_ill_formed : (Instr.bPktIn ⟨0#32, 0#32, 0#32, []⟩).wf = false := by decide
theorem test_bare_check_ill_formed : (Instr.chkEval ⟨0#32, 0#32, 0#32, []⟩).wf = false := by decide

/-! ## Words written out from R81 to R85 and R62, one per constructor -/

theorem test_decode_nop : decodeBytes [0x00#8, 0#8, 0#8, 0#8] = .ok .nop := by decide
theorem test_decode_aInit : decodeBytes [0x10#8, 0#8, 0#8, 0#8] = .ok .aInit := by decide

/-- 95_test_vectors.md 2.2.1 row 2. -/
theorem test_decode_aSubmit :
    decodeBytes ([0x11#8, 0#8, 0#8, 0#8] ++ List.replicate 20 0x61#8) = .ok (.aSubmit (rep 0x61#8)) := by decide

/-- 95_test_vectors.md 2.2.2 row 4: acknum −6. -/
theorem test_decode_aAckIn :
    decodeBytes ([0x12#8, 0#8, 0#8, 0#8, 0x00#8, 0#8, 0#8, 0#8, 0xFA#8, 0xFF#8, 0xFF#8, 0xFF#8, 0xBA#8, 0x03#8, 0#8, 0#8] ++
      List.replicate 20 0x30#8) = .ok (.aAckIn ⟨0x00000000#32, 0xFFFFFFFA#32, 0x000003BA#32, List.replicate 20 0x30#8⟩) := by decide

theorem test_decode_aTimeout : decodeBytes [0x13#8, 0#8, 0#8, 0#8] = .ok .aTimeout := by decide
theorem test_decode_bInit : decodeBytes [0x20#8, 0#8, 0#8, 0#8] = .ok .bInit := by decide

/-- 95_test_vectors.md 2.3.1 row 3. -/
theorem test_decode_bPktIn :
    decodeBytes ([0x21#8, 0#8, 0#8, 0#8, 0x06#8, 0#8, 0#8, 0#8, 0xFF#8, 0xFF#8, 0xFF#8, 0xFF#8, 0x11#8, 0x08#8, 0#8, 0#8] ++
      List.replicate 20 0x67#8) = .ok (.bPktIn ⟨0x00000006#32, 0xFFFFFFFF#32, 0x00000811#32, List.replicate 20 0x67#8⟩) := by decide

/-- 95_test_vectors.md 2.1 row 7: seqnum 0x7FFFFFFF, checksum 0x80000000. -/
theorem test_decode_chkEval :
    decodeBytes ([0x30#8, 0#8, 0#8, 0#8, 0xFF#8, 0xFF#8, 0xFF#8, 0x7F#8, 0x01#8, 0#8, 0#8, 0#8, 0#8, 0#8, 0#8, 0x80#8] ++
      List.replicate 20 0x00#8) = .ok (.chkEval ⟨0x7FFFFFFF#32, 0x00000001#32, 0x80000000#32, List.replicate 20 0x00#8⟩) := by decide

/-- 43_control.md R201's example: `CW = 0x00130040` is REG_READ A_NEXTSEQNUM. -/
theorem test_decode_regRead : decodeBytes [0x40#8, 0x00#8, 0x13#8, 0x00#8] = .ok (.regRead 0x13#8) := by decide

/-- The reasons a command is illegal (R87, R88). -/
theorem test_decode_rejects :
    decodeBytes [0x22#8, 0#8, 0#8, 0#8] = .error .unassignedOpcode ∧ decodeBytes [0x00#8, 0x01#8, 0#8, 0#8] = .error .reservedRsv0 ∧
    decodeBytes [0x40#8, 0#8, 0x13#8, 0x80#8] = .error .reservedRsv1 ∧ decodeBytes [0x13#8, 0#8, 0x01#8, 0#8] = .error .regNotZero ∧
    decodeBytes [0x10#8, 0#8, 0#8, 0#8, 0#8] = .error .operandLength ∧ decodeBytes [0x00#8, 0#8, 0#8] = .error .shortFrame := by decide

/-- The table's words: REG_READ of index 0x13; A_SUBMIT whose operand is zeros; A_SUBMIT with its first operand byte at bits 39..32. -/
theorem test_table_word :
    decodeTableWord 32 0x00130040 = some (.regRead 0x13#8) ∧ decodeTableWord 32 0x11 = some (.aSubmit (List.replicate 20 0#8)) ∧
    decodeTableWord 192 (0x61 * 2 ^ 32 + 0x11) = some (.aSubmit (0x61#8 :: List.replicate 19 0#8)) ∧
    decodeTableWord 32 0x22 = none := by decide

/-- After reset the next step runs the placed word: A_TIMEOUT on an idle timer sets STATUS bit 3 (R134). -/
theorem test_table_word_runs :
    lastRsp (stepped (State.reset.withFetchWord 32 0x13)) = some 0x00000082#32 ∧
    (stepped (State.reset.withFetchWord 32 0x13)).err.timer = true ∧
    (stepped (State.reset.withFetchWord 32 0x13)).pending = [] := by decide

/-! ## One step at a time -/

/-- NOP: `RSP = 0x00000000` (R200's example). -/
theorem test_nop : lastRsp (after [.nop] base) = some 0x00000000#32 ∧ lastEvents (after [.nop] base) = [] := by decide

/-- 95_test_vectors.md 2.2.1 row 4: TMR_STOP, windowlast to 5. -/
theorem test_aInit : lastEvents (after [.aInit] s3) = [.tmrStop] ∧ (after [.aInit] s3).a.windowlast = 5 ∧
    (after [.aInit] s3).a.windowcount = 0 := by decide +kernel

/-- 95_test_vectors.md 1.1 row 1, and R131's example. -/
theorem test_aSubmit : lastEvents (after [.aSubmit (rep 0x61#8)] base) =
    [.txA ⟨0#32, 0xFFFFFFFF#32, 0x00000793#32, rep 0x61#8⟩, .tmrStart 100] ∧
    (after [.aSubmit (rep 0x61#8)] base).a.windowlast = 0 := by decide +kernel

/-- 95_test_vectors.md 1.1 row 7: the seventh message is rejected and counted. -/
theorem test_aSubmit_full : lastRsp (after [.aSubmit (rep 0x67#8)] full) = some 0x00000001#32 ∧
    (after [.aSubmit (rep 0x67#8)] full).cnt.windowFull = 1#32 := by decide +kernel

/-- 95_test_vectors.md 1.5 row 6 with entry 1 acked alone: two slots freed, the timer started again. -/
theorem test_aAckIn_front : lastRsp (after [.aAckIn (ack 0#1 0#32)] s3mid) = some 0x00000203#32 ∧
    lastEvents (after [.aAckIn (ack 0#1 0#32)] s3mid) = [.tmrStop, .tmrStart 100] ∧
    (after [.aAckIn (ack 0#1 0#32)] s3mid).a.windowfirst = 2 := by decide +kernel

/-- 95_test_vectors.md 2.2.2 rows 1 and 3. -/
theorem test_aAckIn_corrupt_and_unknown : lastRsp (after [.aAckIn (spoil (ack 0#1 1#32))] s3) = some 0x00000002#32 ∧
    lastRsp (after [.aAckIn (ack 0#1 7#32)] s3) = some 0x00000004#32 := by decide +kernel

/-- 41_sender.md R134's example: only seq 1 acked, 0 and 2 are sent again, then TMR_START. -/
theorem test_aTimeout : lastRsp (after [.aTimeout] s3mid) = some 0x00000200#32 ∧ lastEvents (after [.aTimeout] s3mid) =
    [.txA (dat 0 0x61#8), .txA (dat 2 0x63#8), .tmrStart 100] := by decide +kernel

/-- 95_test_vectors.md 2.2.3 row 8. -/
theorem test_aTimeout_idle : lastRsp (after [.aTimeout] base) = some 0x00000082#32 := by decide

/-- 95_test_vectors.md 2.3.1 row 12. -/
theorem test_bInit : occupancy (after [.bInit] r12).b = 0 ∧ (after [.bInit] r12).b.nextackseq = 1#1 ∧
    lastEvents (after [.bInit] r12) = [] := by decide +kernel

/-- 95_test_vectors.md 1.2 row 3, with nextackseq as it stands after two packets: three payloads in order. -/
theorem test_bPktIn_drains : lastRsp (after [.bPktIn (dat 0 0x61#8)] r12) = some 0x00000305#32 ∧
    lastEvents (after [.bPktIn (dat 0 0x61#8)] r12) = [.txB ⟨1#32, 0#32, 0x000003C1#32, List.replicate 20 0x30#8⟩,
      .deliver (rep 0x61#8), .deliver (rep 0x62#8), .deliver (rep 0x63#8)] := by decide +kernel

/-- 95_test_vectors.md 2.3.1 row 4: a repeat of the last delivered number is acknowledged and ignored. -/
theorem test_bPktIn_outside : lastRsp (after [.bPktIn (dat 0 0x61#8)] r0) = some 0x00000008#32 ∧
    lastEvents (after [.bPktIn (dat 0 0x61#8)] r0) = [.txB (ack 0#1 0#32)] := by decide +kernel

/-- 95_test_vectors.md 2.1 row 3, and row 6 with CHK_BYTE_SIGNED = 1. -/
theorem test_chkEval : lastData (after [.chkEval ⟨0#32, 0xFFFFFFFF#32, 0x794#32, rep 0x61#8⟩] base) = some 0x00000793#32 ∧
    lastRsp (after [.chkEval ⟨0#32, 0xFFFFFFFF#32, 0x794#32, rep 0x61#8⟩] base) = some 0x00000002#32 := by decide
theorem test_chkEval_signed : lastData (after [.chkEval ⟨0#32, 0#32, 0x13EC#32, rep 0xFF#8⟩]
    (State.resetWith { par with chkByteSigned := true })) = some 0xFFFFFFEC#32 := by decide

/-- 95_test_vectors.md 1.5: A_SLOT[1] after `ACK 1`, and A_ACKSTATUS. -/
theorem test_regRead : lastData (after [.regRead 0x41#8] s3mid) = some 0xC0000001#32 ∧
    lastData (after [.regRead 0x14#8] s3mid) = some 0x00000002#32 := by decide +kernel

/-- R201: an unassigned index, the first above A_SLOT[5]. -/
theorem test_regRead_unassigned : lastRsp (after [.regRead 0x46#8] base) = some 0x00000081#32 ∧
    lastData (after [.regRead 0x46#8] base) = some 0#32 := by decide

/-- R202's example: after `CW = 0x000000FF`, STATUS reads 0x00000002. -/
theorem test_illegal : lastRsp (stepped (asked ⟨0x000000FF#32, []⟩ base)) = some 0x00000080#32 ∧
    lastData (after [.regRead 0x02#8] (stepped (asked ⟨0x000000FF#32, []⟩ base))) = some 0x00000002#32 := by decide

/-- The reset input, with an error recorded and the timer armed (R260). -/
theorem test_reset : (stepped ((after [.regRead 0xFF#8] s3).offer .reset)).err = Sticky.clear ∧
    (stepped ((after [.regRead 0xFF#8] s3).offer .reset)).tmrArmed = false ∧
    (stepped ((after [.regRead 0xFF#8] s3).offer .reset)).a.windowlast = 5 := by decide +kernel

/-- Event bytes (R93): the tags, and a packet's layout behind its tag. -/
theorem test_event_bytes : (bytesOfEvent (.txA (dat 0 0x61#8))).take 13 =
    [0x01#8, 0#8, 0#8, 0#8, 0#8, 0xFF#8, 0xFF#8, 0xFF#8, 0xFF#8, 0x93#8, 0x07#8, 0#8, 0#8] ∧
    bytesOfEvent (.tmrStart 100) = [0x04#8] ∧ bytesOfEvent .tmrStop = [0x05#8] ∧
    (bytesOfEvent (.deliver (rep 0x61#8))).head? = some 0x03#8 := by decide

/-! ## Command syntax (R95, R96) -/

theorem test_parse_submit : parseLine "A_SUBMIT rep('a') ; one".toList = some [.aSubmit (rep 0x61#8)] := by decide +kernel
theorem test_parse_slot : parseLine "REG_READ B_SLOT[31]".toList = some [.regRead 0x7F#8] := by decide +kernel
theorem test_parse_packet : parseLine ("CHK_EVAL ".toList ++ [Char.ofNat 123] ++ "seq=-1, ack=NOTINUSE, chk=0x10, pay=fill".toList ++
    [Char.ofNat 125]) = some [.chkEval ⟨-1, .notInUse, .value 16, .fill⟩] := by decide +kernel
theorem test_parse_rejects : parseLine "A_SUBMIT \"short\"".toList = none ∧ parseLine "HALT".toList = none := by decide +kernel

/-! ## The small states are legal -/

theorem base_inv : base.Inv := by decide +kernel
theorem s3_inv : s3.Inv := by decide +kernel
theorem s3mid_inv : s3mid.Inv := by decide +kernel
theorem s3other_inv : s3other.Inv := by decide +kernel
theorem full_inv : full.Inv := by decide +kernel
theorem r2_inv : r2.Inv := by decide +kernel
theorem r12_inv : r12.Inv := by decide +kernel
theorem r01_inv : r01.Inv := by decide +kernel
theorem r15_inv : r15.Inv := by decide +kernel
theorem rfull_inv : rfull.Inv := by decide +kernel

/-! ## Witnesses: encoding and decoding -/

theorem witness_DecodeOfEncodeIsIdentity : (Instr.aSubmit (rep 0xFF#8)).wf = true ∧ (Instr.bPktIn (dat 6 0x67#8)).wf = true ∧
    (Instr.regRead 0xFF#8).wf = true := by decide
theorem witness_EncodeOfDecodeIsIdentity : decode ⟨0x00FF0040#32, []⟩ = .ok (.regRead 0xFF#8) := by decide
theorem witness_PacketLayout : (List.replicate 32 0xFF#8).length = 32 := by decide
theorem witness_TableWordRunsNext : decodeTableWord 32 0x13 = some .aTimeout ∧ decodeTableWord 32 0x01 = none := by decide
theorem witness_LegalityDecidesExecution : (asked ⟨0x00000022#32, []⟩ base).pending = .command ⟨0x00000022#32, []⟩ :: [] ∧
    ¬ LegalCommand ⟨0x00000022#32, []⟩ ∧ LegalCommand ⟨0x00FF0040#32, []⟩ := by decide

/-! ## Witnesses: the step -/

theorem witness_StepRunsTheDecodedCommand : (asked ⟨0x00000010#32, []⟩ s3).pending = .command ⟨0x00000010#32, []⟩ :: [] ∧
    decode ⟨0x00000010#32, []⟩ = .ok .aInit := by decide +kernel

/-- One command for each clause: unassigned opcode, operand one byte short and one too long, REG not 0, RSV0, RSV1; the example's two
commands; and a state with the bit set, before a command and before reset. -/
theorem witness_IllegalCommandOnlyMarks : ¬ LegalCommand ⟨0x000000FF#32, []⟩ ∧
    (rep 0x61#8).dropLast.length ≠ specLen ((0x00000011#32 : Word).extractLsb' 0 8) ∧
    [0x00#8].length ≠ specLen ((0x00000000#32 : Word).extractLsb' 0 8) ∧
    ((0x00010013#32 : Word).extractLsb' 0 8 ≠ 0x40#8 ∧ (0x00010013#32 : Word).extractLsb' 16 8 ≠ 0#8) ∧
    (0x00000100#32 : Word).extractLsb' 8 8 ≠ 0#8 ∧ (0x80000040#32 : Word).extractLsb' 24 8 ≠ 0#8 ∧
    (asked ⟨0x000000FF#32, []⟩ (asked ⟨0x00020040#32, []⟩ base)).pending =
      [.command ⟨0x000000FF#32, []⟩, .command ⟨0x00020040#32, []⟩] := by decide
theorem witness_IllegalCommandOnlyMarks_stays : ∃ t u,
    (base.raise .illegalCmd none).err.illegal = true ∧ step (asked ⟨0#32, []⟩ (base.raise .illegalCmd none)) = .next t ∧
      step ((base.raise .illegalCmd none).offer .reset) = .next u := ⟨_, _, rfl, rfl, rfl⟩
theorem witness_ResetInputResetsEveryElement : (s3mid.offer .reset).pending = .reset :: [] := by decide +kernel
theorem witness_IdleBlockHoldsItsState : s3mid.pending = [] := by decide +kernel

/-- A legal command without DATA, one with DATA, an unassigned index, an illegal command. -/
theorem witness_ExactlyOneResponsePerCommand :
    (asked ⟨0x00000010#32, []⟩ base).pending = .command ⟨0x00000010#32, []⟩ :: [] ∧
    (instrOpcode (.regRead 0#8) = .chkEval ∨ instrOpcode (.regRead 0#8) = .regRead) ∧
    ((base.raise .badReg (some 0#32)).replies.getLast?.map (fun r => r.statusField)) = some 0x81#8 ∧
    (asked ⟨0x000000FF#32, []⟩ base).pending = .command ⟨0x000000FF#32, []⟩ :: [] := by decide
theorem witness_CountFieldCounts : base.Inv ∧ s3mid.Inv ∧ full.Inv ∧ r15.Inv := ⟨base_inv, s3mid_inv, full_inv, r15_inv⟩
theorem witness_EventsOfEarlierCommandsComeFirst : ∃ t, step (asked ⟨0x00000013#32, []⟩ s3) = .next t := ⟨_, rfl⟩

/-! ## Witnesses: checksum unit -/

/-- A valid packet; other values for each field; a byte of it; a change that cancels; a reordering. -/
theorem witness_ChecksumDetectionLaw : corrupt par (dat 0 0x61#8) = false ∧ (1#32 : Word) ≠ (dat 0 0x61#8).seqnum ∧
    (0#32 : Word) ≠ (dat 0 0x61#8).acknum ∧ (0x794#32 : Word) ≠ (dat 0 0x61#8).checksum ∧
    ((dat 0 0x61#8).payload = List.replicate 19 0x61#8 ++ 0x61#8 :: [] ∧ (0x62#8 : Byte) ≠ 0x61#8) := by decide
theorem witness_ChecksumDetectionLaw_cancels :
    ((1#32 : Word).toInt + (0xFFFFFFFE#32 : Word).toInt + ((rep 0x61#8).map (byteval par.chkByteSigned)).sum) % 2 ^ 32 =
      ((dat 0 0x61#8).seqnum.toInt + (dat 0 0x61#8).acknum.toInt + ((dat 0 0x61#8).payload.map (byteval par.chkByteSigned)).sum) % 2 ^ 32 ∧
    (dat 0 0x61#8).payload.reverse.Perm (dat 0 0x61#8).payload := ⟨by decide, List.reverse_perm _⟩
theorem witness_CorruptedPacketsAreIgnored : corrupt s3.par (spoil (dat 0 0x61#8)) = true := by decide +kernel

/-! ## Witnesses: sender -/

theorem witness_SubmitToAFullWindowIsRejected : full.a.windowcount = full.par.w := by decide +kernel

/-- An empty window, and one with a single free slot. -/
theorem witness_SubmitStoresAndTransmits :
    (base.a.windowcount ≠ base.par.w ∧ 0 < base.par.w ∧ base.a.wbuf.length = base.par.w ∧ base.a.ack.length = base.par.w) ∧
    s5.a.windowcount = 5 ∧ s5.a.windowcount ≠ s5.par.w ∧ s5.a.wbuf.length = s5.par.w ∧ s5.a.ack.length = s5.par.w := by decide +kernel
theorem witness_NextInsertionSlotIsTheFirstFreeOne : s3.Inv ∧ full.Inv ∧ s3.a.windowcount < s3.par.w ∧
    full.a.windowcount = full.par.w := ⟨s3_inv, full_inv, by decide +kernel⟩

/-- A repeated ack with the window open, and an ack on an empty window. -/
theorem witness_AckMatchingNothingIsIdempotent : s3mid.Inv ∧ base.Inv ∧ corrupt s3mid.par (ack 1#1 1#32) = false ∧
    (∀ i, i < s3mid.a.windowcount → s3mid.a.acked (s3mid.a.wslot s3mid.par.w i) = false →
      (s3mid.a.packet (s3mid.a.wslot s3mid.par.w i)).seqnum ≠ (ack 1#1 1#32).acknum) ∧ 0 < s3mid.a.windowcount ∧
    base.a.windowcount = 0 := ⟨s3mid_inv, base_inv, by decide +kernel⟩

/-- A middle entry, and the front with an acked entry behind it. -/
theorem witness_WindowFrontCollapse : s3.Inv ∧ s3mid.Inv ∧ corrupt s3.par (ack 0#1 2#32) = false ∧ 2 < s3.a.windowcount ∧
    s3.a.acked (s3.a.wslot s3.par.w 2) = false ∧ (s3.a.packet (s3.a.wslot s3.par.w 2)).seqnum = (ack 0#1 2#32).acknum ∧
    corrupt s3mid.par (ack 0#1 0#32) = false ∧ s3mid.a.acked (s3mid.a.wslot s3mid.par.w 0) = false ∧
    (s3mid.a.packet (s3mid.a.wslot s3mid.par.w 0)).seqnum = (ack 0#1 0#32).acknum := ⟨s3_inv, s3mid_inv, by decide +kernel⟩
theorem witness_AckIsNewExactlyOnAMatch : corrupt s3.par (ack 0#1 1#32) = false := by decide +kernel
theorem witness_AckFrame : ∃ t, exec (.aAckIn (ack 0#1 1#32)) s3 = .next t := ⟨_, rfl⟩
theorem witness_AckPostponesTheTimer : s3mid.Inv ∧ corrupt s3mid.par (ack 0#1 1#32) = false ∧
    0 < (after [.aAckIn (ack 0#1 1#32)] s3mid).a.windowcount := ⟨s3mid_inv, by decide +kernel⟩
theorem witness_TimeoutOnAnIdleTimerOnlyMarks : base.tmrArmed = false := by decide
theorem witness_TimeoutRetransmitsUnackedEntries : s3mid.tmrArmed = true := by decide +kernel

/-- An armed timer; and a command that is neither A_INIT nor a valid ack for the front. -/
theorem witness_ArmedTimeoutResendsTheFront : s3mid.Inv ∧ s3mid.tmrArmed = true ∧ Instr.aAckIn (ack 0#1 2#32) ≠ .aInit ∧
    (ack 0#1 2#32).acknum ≠ (s3mid.a.packet s3mid.a.windowfirst).seqnum := ⟨s3mid_inv, by decide +kernel⟩

/-! ## Witnesses: receiver -/

theorem witness_EveryValidPacketIsAcknowledgedFirst : corrupt base.par (dat 6 0x67#8) = false ∧ base.par.ackFill = 0x30#8 := by decide

/-- seqnum −1, seqnum S, and offset exactly W. -/
theorem witness_OutsideTheWindowOnlyAcks : r0.par.Legal ∧
    (corrupt r0.par (dat 4294967295 0x7A#8) = false ∧ (dat 4294967295 0x7A#8).seqnum.toInt < 0) ∧
    (corrupt r0.par (dat 7 0x68#8) = false ∧ (r0.par.s : Int) ≤ (dat 7 0x68#8).seqnum.toInt) ∧
    corrupt r0.par (dat 0 0x61#8) = false ∧
    ((dat 0 0x61#8).seqnum.toInt - r0.b.expectedseqnum + r0.par.s) % r0.par.s = r0.par.w := by decide +kernel

/-- Offset W − 1 with the second slot the lowest free one; and a full buffer. -/
theorem witness_InWindowPacketIsStoredOrDropped :
    (r2.b.rbuf.length = r2.par.w ∧ corrupt r2.par (dat 5 0x66#8) = false ∧ 0 ≤ (dat 5 0x66#8).seqnum.toInt ∧
      (dat 5 0x66#8).seqnum.toInt < r2.par.s ∧ (dat 5 0x66#8).seqnum.toInt ≠ r2.b.expectedseqnum ∧
      ((dat 5 0x66#8).seqnum.toInt - r2.b.expectedseqnum + r2.par.s) % r2.par.s < r2.par.w ∧
      1 < r2.par.w ∧ (r2.b.slot 1).valid = false ∧ ∀ j, j < 1 → (r2.b.slot j).valid = true) ∧
    rfull.b.rbuf.length = rfull.par.w ∧ (dat 5 0x66#8).seqnum.toInt ≠ rfull.b.expectedseqnum ∧
    ((dat 5 0x66#8).seqnum.toInt - rfull.b.expectedseqnum + rfull.par.s) % rfull.par.s < rfull.par.w ∧
    ∀ k, k < rfull.par.w → (rfull.b.slot k).valid = true := by decide +kernel

/-- No slot with the cursor's number; and the second slot the lowest one with it. -/
theorem witness_DrainFollowsTheLoop : (∀ k, k < r12.b.rbuf.length → (r12.b.slot k).valid = true →
      (r12.b.slot k).seq ≠ r12.b.expectedseqnum) ∧
    1 < (r12.b.advance 7).rbuf.length ∧ ((r12.b.advance 7).slot 1).valid = true ∧
    ((r12.b.advance 7).slot 1).seq = (r12.b.advance 7).expectedseqnum ∧
    ∀ j, j < 1 → ((r12.b.advance 7).slot j).valid = true → ((r12.b.advance 7).slot j).seq ≠ (r12.b.advance 7).expectedseqnum := by
  decide +kernel
theorem witness_InOrderPacketIsDeliveredAndDrained : r12.Inv ∧ corrupt r12.par (dat 0 0x61#8) = false ∧
    (dat 0 0x61#8).seqnum.toInt = r12.b.expectedseqnum := ⟨r12_inv, by decide +kernel⟩
theorem witness_PacketInFrame : ∃ t, exec (.bPktIn (dat 0 0x61#8)) r12 = .next t := ⟨_, rfl⟩

/-- q and e at opposite ends of [0, S). -/
theorem witness_ReceiveOffsetHasOneReading : (0 : Int) ≤ 6 ∧ (6 : Int) < (7 : Nat) ∧ base.b.expectedseqnum < 7 ∧
    ({ base.b with expectedseqnum := 6 } : Receiver).expectedseqnum < 7 := by decide

/-- j = 1 with S − j = W; j = 2 with S − j < W and a slot free. -/
theorem witness_RepeatOfADeliveredPacket : r01.Inv ∧ corrupt r01.par (dat 1 0x62#8) = false ∧
    (dat 1 0x62#8).seqnum = BitVec.ofNat 32 ((r01.b.expectedseqnum + r01.par.s - 1) % r01.par.s) ∧ r01.par.w ≤ r01.par.s - 1 ∧
    corrupt r01.par (dat 0 0x61#8) = false ∧
    (dat 0 0x61#8).seqnum = BitVec.ofNat 32 ((r01.b.expectedseqnum + r01.par.s - 2) % r01.par.s) ∧ r01.par.s - 2 < r01.par.w ∧
    occupancy r01.b < r01.par.w := ⟨r01_inv, by decide +kernel⟩
theorem witness_SecondCopyTakesASecondSlot : r2.Inv ∧ corrupt r2.par (dat 2 0x63#8) = false ∧ (r2.b.slot 0).valid = true ∧
    (dat 2 0x63#8).seqnum = BitVec.ofNat 32 (r2.b.slot 0).seq ∧ 1 ≤ r2.b.seqOffset r2.par.s (r2.b.slot 0).seq ∧
    r2.b.seqOffset r2.par.s (r2.b.slot 0).seq < r2.par.w ∧ occupancy r2.b < r2.par.w := ⟨r2_inv, by decide +kernel⟩

/-- Every offset from 1 to W − 1 buffered; and a packet that no slot holds. -/
theorem witness_BufferCannotFillWithoutSecondCopies : r15.Inv ∧ r12.Inv ∧ r15.b.Fresh r15.par.w r15.par.s ∧
    occupancy r15.b = r15.par.w - 1 ∧ r12.b.Fresh r12.par.w r12.par.s ∧
    (∀ k, k < r12.par.w → (r12.b.slot k).valid = true → (dat 5 0x66#8).seqnum ≠ BitVec.ofNat 32 (r12.b.slot k).seq) :=
  ⟨r15_inv, r12_inv, by decide +kernel, by decide +kernel, by decide +kernel, by decide +kernel⟩

/-- Two packets from cursor 0, the later first, a timeout between them (95_test_vectors.md 1.7). -/
theorem witness_InOrderDeliveryLaw : base.Inv ∧ occupancy base.b = 0 ∧
    [dat 0 0x61#8, dat 1 0x62#8].length ≤ base.par.w ∧
    (dat 0 0x61#8).seqnum = BitVec.ofNat 32 ((base.b.expectedseqnum + 0) % base.par.s) ∧
    (dat 1 0x62#8).seqnum = BitVec.ofNat 32 ((base.b.expectedseqnum + 1) % base.par.s) ∧
    (∀ p, p ∈ [dat 0 0x61#8, dat 1 0x62#8] → corrupt base.par p = false) ∧
    (packetsIn [.bPktIn (dat 1 0x62#8), .aTimeout, .bPktIn (dat 0 0x61#8)]).Perm [dat 0 0x61#8, dat 1 0x62#8] ∧
    Instr.bInit ∉ [.bPktIn (dat 1 0x62#8), .aTimeout, .bPktIn (dat 0 0x61#8)] := ⟨base_inv, by decide +kernel⟩

/-! ## Witnesses: control -/

theorem witness_NopChangesNothing : ([0x00#8] : List Byte) ≠ [] := by decide

/-- W = 32, the largest; the last slot index of W = 6; an unassigned index. -/
theorem witness_RegisterMap : s3mid.Inv ∧ r2.Inv ∧ (State.resetWith { par with w := 32, s := 33 }).par.w ≤ 32 ∧
    s3mid.par.w ≤ 32 ∧ 5 < s3mid.par.w ∧ s3mid.a.live s3mid.par.w 0 = true ∧ s3mid.a.live s3mid.par.w 5 = false ∧
    (r2.b.slot 0).valid = true ∧ ¬ AssignedIndex s3mid.par.w (0x46#8 : Byte).toNat := ⟨s3mid_inv, r2_inv, by decide +kernel⟩
theorem witness_UnassignedIndexOnlyMarks : base.par.w ≤ 32 ∧ AssignedIndex base.par.w (0x65#8 : Byte).toNat ∧
    ¬ AssignedIndex base.par.w (0x66#8 : Byte).toNat ∧ ¬ AssignedIndex base.par.w (0x04#8 : Byte).toNat := by decide

/-! ## Witnesses: reset and the whole machine -/

/-- The defaults, the smallest and the largest legal parameters. -/
theorem witness_ResetStateMeetsTheInvariants : Params.specDefault.Legal ∧ parMin.Legal ∧ parHalf.Legal ∧
    ({ par with w := 32, s := 65536 } : Params).Legal := by decide
theorem witness_EveryStepKeepsTheInvariants : s3mid.Inv ∧ rfull.Inv ∧
    ∃ t, step (asked ⟨0x00000013#32, []⟩ s3mid) = .next t := ⟨s3mid_inv, rfull_inv, _, rfl⟩
theorem witness_TimerRecordFollowsTheEvents : s3mid.Inv ∧ base.Inv := ⟨s3mid_inv, base_inv⟩
theorem witness_EveryEventHasItsSize : s3mid.PayloadsOk ∧ r12.PayloadsOk ∧
    ∃ t, step (asked ⟨0x00000013#32, []⟩ s3mid) = .next t := ⟨by decide +kernel, by decide +kernel, _, rfl⟩
theorem witness_StickyBitsStayUntilReset : ∃ t, (asked ⟨0x00000013#32, []⟩ base).pending = .command ⟨0x00000013#32, []⟩ :: [] ∧
    step (asked ⟨0x00000013#32, []⟩ base) = .next t := ⟨_, rfl, rfl⟩
theorem witness_EnginesShareNoState : ∃ t u, senderCommand .aTimeout = true ∧ exec .aTimeout s3 = .next t ∧
    receiverCommand (.bPktIn (dat 0 0x61#8)) = true ∧ exec (.bPktIn (dat 0 0x61#8)) r12 = .next u := ⟨_, _, rfl, rfl, rfl, rfl⟩
theorem witness_ResetAgainstInit : r12.b.rbuf.length = r12.par.w := by decide +kernel

/-- Two legal states that differ in a dead sender slot and a free receiver slot, and agree otherwise. -/
theorem witness_DeadContentsAreUnobservable : s3.Inv ∧ s3other.Inv ∧ s3.observed = s3other.observed ∧ s3 ≠ s3other :=
  ⟨s3_inv, s3other_inv, by decide +kernel⟩

/-- The timer running after a submission, its expiry handed to the host, and that expiry a dutiful command to issue; and the reset with every
collaborator. -/
theorem witness_DutifulHostNeverMeetsAnIdleTimer : world1.block.Inv ∧ world1.TimerAgrees ∧ world1.timer.isSome = true ∧
    (world1.move .expire).isSome = true ∧ world2.block.Inv ∧ world2.TimerAgrees ∧ world2.dutiful (.issue 0) = true ∧
    (world2.move (.issue 0)).isSome = true ∧ world2.dutiful (.reset true true true) = true :=
  ⟨by decide +kernel, by decide +kernel, by decide +kernel, by decide +kernel, by decide +kernel, by decide +kernel, by decide +kernel,
    by decide +kernel, by decide⟩

/-- A running timer and a packet in flight, and both are there after a reset of the block alone (R261). -/
theorem witness_ResetLeavesWhatTheHostDoesNotReset : world1.timer.isSome = true ∧ world1.chanAB = [dat 0 0x61#8] ∧
    ((world1.move (.reset false false false)).map (fun w => (w.chanAB, w.timer))) = some ([dat 0 0x61#8], some 0) := by decide +kernel

/-- An expiry the host still holds when the reset stops the timer is not its to issue, and it may withdraw it (R231). -/
theorem test_stale_expiry_is_not_dutiful :
    ((world2.move (.reset true true true)).map (fun w => (w.dutiful (.issue 0), (w.move (.withdraw 0)).isSome))) = some (false, true) := by
  decide +kernel

end Sys2Proof.Tests
end

/-! The receive offset as a remainder (00_scope.md R18, 42_receiver.md R171). -/

namespace Sys2Proof.Machine

/-- The operand of R171's remainder never leaves [1, 2S − 1], so it is positive in either reading of R18. -/
theorem Receiver.offset_operand_range {b : Receiver} {s : Nat} {q : Int} (hq : 0 ≤ q) (hqs : q < s) (hb : b.expectedseqnum < s) :
    1 ≤ q - b.expectedseqnum + s ∧ q - b.expectedseqnum + s ≤ 2 * s - 1 := by
  omega

/-- On an operand that is not negative the truncating remainder is the receive offset. -/
theorem Receiver.offset_eq_tmod {b : Receiver} {s : Nat} {q : Int} (h : 0 ≤ q - b.expectedseqnum + s) :
    b.offset s q = Int.tmod (q - b.expectedseqnum + s) s :=
  (Int.tmod_eq_emod_of_nonneg h).symm

/-- The divisor S is not negative, so the flooring remainder is the receive offset on every operand. -/
theorem Receiver.offset_eq_fmod (b : Receiver) (s : Nat) (q : Int) :
    b.offset s q = Int.fmod (q - b.expectedseqnum + s) s :=
  (Int.fmod_eq_emod_of_nonneg _ (Int.natCast_nonneg s)).symm

/-- Settles O39: the operand's range makes the truncating remainder agree, the sign of S the flooring one. -/
theorem receiveOffsetHasOneReading : Obligations.ReceiveOffsetHasOneReading := by
  intro b s q hq hqs hb
  have ⟨hlo, hhi⟩ := Receiver.offset_operand_range hq hqs hb
  have hnonneg : 0 ≤ q - b.expectedseqnum + s := le_trans Int.one_nonneg hlo
  exact ⟨hlo, hhi, Receiver.offset_eq_tmod hnonneg, Receiver.offset_eq_fmod b s q⟩

end Sys2Proof.Machine

/-! The register map read through REG_READ (10_state.md R35, R36, 43_control.md R201). -/

namespace Sys2Proof.Machine

/-! ## REG_READ, said once (R201) -/

/-- REG_READ of an assigned index answers its value and changes nothing. -/
theorem readsAs_of_regValue {s : State} {idx : Byte} {v : Word} (h : regValue s idx.toNat = some v) : ReadsAs s idx v := by
  show execRegRead idx s = _
  unfold execRegRead
  rw [h]
  rfl

/-- REG_READ of an unassigned index raises ERR_BAD_REG with DATA 0. -/
theorem exec_regRead_unassigned {s : State} {idx : Byte} (h : regValue s idx.toNat = none) :
    exec (.regRead idx) s = .next (s.raise .badReg (some 0#32)) := by
  show execRegRead idx s = _
  unfold execRegRead
  rw [h]

/-- Whatever the index, REG_READ writes at most a sticky bit and answers without events. -/
theorem exec_regRead_next (idx : Byte) (s : State) :
    ∃ e st d, exec (.regRead idx) s = .next ({ s with err := e }.respond st 0 d []) := by
  cases hv : regValue s idx.toNat with
  | some v => exact ⟨s.err, .ok, some v, readsAs_of_regValue hv⟩
  | none => exact ⟨_, _, _, exec_regRead_unassigned hv⟩

/-- An index outside `assigned(idx)` names no register. -/
theorem regValue_of_not_assigned {s : State} {n : Nat} (h : ¬ AssignedIndex s.par.w n) : regValue s n = none := by
  simp only [AssignedIndex, not_or] at h
  obtain ⟨hid, hcnt, hsender, hreceiver, haSlot, hbSlot⟩ := h
  unfold regValue
  split
  case h_18 => rw [if_neg haSlot, if_neg hbSlot]
  all_goals omega

theorem readsAs_aSlot {s : State} {k : Nat} (hw : s.par.w ≤ 32) (hk : k < s.par.w) :
    ReadsAs s (BitVec.ofNat 8 (0x40 + k)) (aSlotReg s.a s.par.w k) := by
  apply readsAs_of_regValue
  rw [BitVec.toNat_ofNat, Nat.mod_eq_of_lt (by omega)]
  exact regValue_aSlot hw hk

theorem readsAs_bSlot {s : State} {k : Nat} (hw : s.par.w ≤ 32) (hk : k < s.par.w) :
    ReadsAs s (BitVec.ofNat 8 (0x60 + k)) (bSlotReg s.b k) := by
  apply readsAs_of_regValue
  rw [BitVec.toNat_ofNat, Nat.mod_eq_of_lt (by omega)]
  exact regValue_bSlot hw hk

/-! ## Numbers in the low half of a slot register -/

/-- The low half of a word below 2^16 is the word. -/
theorem zeroExtend_lowHalf {v : Word} (h : v.toNat < 65536) : (v.extractLsb' 0 16).zeroExtend 32 = v := by
  apply BitVec.eq_of_toNat_eq
  simp only [BitVec.toNat_setWidth, BitVec.extractLsb'_toNat, Nat.shiftRight_zero]
  omega

/-- A live entry's number is below S, so it fits its half of A_SLOT (R8, R27). -/
theorem Sender.seqnum_lt_of_live {a : Sender} {w s k : Nat} (h : a.Inv w s) (hs : s ≤ 65536) (hk : k < w)
    (hlive : a.live w k = true) : (a.packet k).seqnum.toNat < 65536 := by
  obtain ⟨⟨-, -, hf, -, hc, hn⟩, -, hseq, -⟩ := h
  obtain ⟨i, hi, rfl⟩ := (Sender.live_iff_wslot hf hc hk).1 hlive
  rw [hseq i hi, BitVec.toNat_ofNat]
  have hlt : a.liveSeq s i < s := Nat.mod_lt _ (by omega)
  exact (Nat.mod_le _ _).trans_lt (by omega)

/-- A_ACKSTATUS bit by bit, the bits above the word's too (R36). -/
theorem ackStatusReg_bits {a : Sender} {w : Nat} (hw : w ≤ 32) (k : Nat) :
    (ackStatusReg a w).getLsbD k = (decide (k < w) && a.acked k) := by
  rcases Nat.lt_or_ge k 32 with hk | hk
  · exact ackStatusReg_getLsbD a w k hk
  · rw [BitVec.getLsbD_of_ge _ _ hk, decide_eq_false (by omega), Bool.false_and]

/-- A_SLOT[k] as R36's table gives it, and exact in a legal state. -/
theorem aSlot_reads {s : State} {k : Nat} (hw : s.par.w ≤ 32) (hk : k < s.par.w) :
    ∃ v live, ReadsAs s (BitVec.ofNat 8 (0x40 + k)) v ∧
      (live = true ↔ ((k : Int) - s.a.windowfirst) % s.par.w < s.a.windowcount) ∧
      v.getLsbD 31 = live ∧ v.getLsbD 30 = s.a.acked k ∧ v.extractLsb' 16 14 = 0#14 ∧
      v.extractLsb' 0 16 = (if live then (s.a.packet k).seqnum.extractLsb' 0 16 else 0#16) ∧
      (s.Inv → live = true → (v.extractLsb' 0 16).zeroExtend 32 = (s.a.packet k).seqnum) := by
  obtain ⟨h31, h30, hmid, hlow⟩ := aSlotReg_fields s.a s.par.w k
  refine ⟨_, s.a.live s.par.w k, readsAs_aSlot hw hk, decide_eq_true_iff, h31, h30, hmid, hlow, fun hinv hlive => ?_⟩
  obtain ⟨⟨-, -, -, hs, -⟩, ha, -⟩ := hinv
  rw [hlow, if_pos hlive]
  exact zeroExtend_lowHalf (Sender.seqnum_lt_of_live ha hs hk hlive)

/-- B_SLOT[k] as R36's table gives it, and exact in a legal state. -/
theorem bSlot_reads {s : State} {k : Nat} (hw : s.par.w ≤ 32) (hk : k < s.par.w) :
    ∃ v, ReadsAs s (BitVec.ofNat 8 (0x60 + k)) v ∧
      v.getLsbD 31 = (s.b.slot k).valid ∧ v.extractLsb' 16 15 = 0#15 ∧
      v.extractLsb' 0 16 = (if (s.b.slot k).valid then BitVec.ofNat 16 (s.b.slot k).seq else 0#16) ∧
      (s.Inv → (s.b.slot k).valid = true → (v.extractLsb' 0 16).toNat = (s.b.slot k).seq) := by
  obtain ⟨h31, hmid, hlow⟩ := bSlotReg_fields s.b k
  refine ⟨_, readsAs_bSlot hw hk, h31, hmid, hlow, fun hinv hv => ?_⟩
  obtain ⟨⟨-, -, -, hs, -⟩, -, ⟨-, -, hseq⟩, -⟩ := hinv
  have hlt := hseq k hk hv
  rw [hlow, if_pos hv, BitVec.toNat_ofNat]
  exact Nat.mod_eq_of_lt (by omega)

/-- Settles O45: the singly indexed registers read as `regValue` lists them; the rest are fields of the registers computed from the slots. -/
theorem registerMap : Obligations.RegisterMap := by
  intro s hw
  refine ⟨readsAs_of_regValue rfl, readsAs_of_regValue rfl, readsAs_of_regValue rfl, readsAs_of_regValue rfl,
    readsAs_of_regValue rfl, readsAs_of_regValue rfl, readsAs_of_regValue rfl, readsAs_of_regValue rfl,
    readsAs_of_regValue rfl, readsAs_of_regValue rfl, readsAs_of_regValue rfl, readsAs_of_regValue rfl,
    readsAs_of_regValue rfl, ⟨_, readsAs_of_regValue rfl, ackStatusReg_bits hw⟩, readsAs_of_regValue rfl,
    readsAs_of_regValue rfl, readsAs_of_regValue rfl, fun k hk => aSlot_reads hw hk, fun k hk => bSlot_reads hw hk,
    fun idx hidx => ?_⟩
  exact ⟨_, _, exec_regRead_unassigned (regValue_of_not_assigned hidx), rfl, Reply.statusField_mk _ _ _ _⟩

/-- Settles O46: index 0x02 reads `statusReg`, whose fields `statusReg_fields` gives. -/
theorem statusRegisterFields : Obligations.StatusRegisterFields :=
  fun s => ⟨_, readsAs_of_regValue rfl, statusReg_fields s.tmrArmed s.err⟩

end Sys2Proof.Machine

/-! The invariants of a legal state (10_state.md R27, R29, R33): the reset state meets them and every step keeps them. -/

namespace Sys2Proof.Machine

/-! ## The empty engines -/

/-- Any sender of W packets meets the invariants of R27 once A_INIT has emptied its window. -/
theorem Sender.init_inv {a : Sender} {w s : Nat} (hb : a.wbuf.length = w) (hw : 0 < w) (hs : 0 < s) :
    (a.init w).Inv w s := by
  have hacked : ∀ k, (a.init w).acked k = false := fun k => List.getElem?_getD_replicate_default_eq ..
  refine ⟨⟨hb, List.length_replicate, hw, Nat.sub_lt hw Nat.one_pos, Nat.zero_le w, hs⟩, ?_, ?_, ?_, ?_⟩
  · show w - 1 = (0 + 0 + w - 1) % w
    rw [Nat.mod_eq_of_lt (by omega)]
    omega
  · exact fun i hi => absurd hi (Nat.not_lt_zero i)
  · exact fun k _ _ => hacked k
  · exact fun _ => hacked _

/-- The sender's reset values are those of A_INIT on the reset slots (R38, R130). -/
theorem Sender.reset_eq_init (p : Params) : Sender.reset p = (Sender.reset p).init p.w := rfl

theorem Sender.reset_inv {p : Params} (h : p.Legal) : (Sender.reset p).Inv p.w p.s := by
  obtain ⟨hw, -, hs, -⟩ := h
  rw [Sender.reset_eq_init]
  exact Sender.init_inv List.length_replicate hw (by omega)

/-- A receiver of W free slots meets the invariants of R33 whatever those slots hold. -/
theorem Receiver.inv_of_free {b : Receiver} {w s : Nat} (hl : b.rbuf.length = w) (he : b.expectedseqnum < s)
    (hv : ∀ k, (b.slot k).valid = false) : b.Inv w s :=
  ⟨hl, he, fun k _ h => absurd h (by simp [hv k])⟩

theorem Receiver.reset_slot (p : Params) (k : Nat) : (Receiver.reset p).slot k = Slot.empty :=
  List.getElem?_getD_replicate_default_eq ..

theorem Receiver.reset_inv {p : Params} (h : p.Legal) : (Receiver.reset p).Inv p.w p.s := by
  obtain ⟨-, -, hs, -⟩ := h
  exact Receiver.inv_of_free List.length_replicate (by show 0 < p.s; omega) (fun k => by rw [Receiver.reset_slot]; rfl)

theorem Receiver.init_slot_valid (b : Receiver) (x : BitVec 1) (k : Nat) : ((b.init x).slot k).valid = false := by
  show ((invalidate b.rbuf).getD k Slot.empty).valid = false
  rw [List.getD_eq_getElem?_getD, invalidate, List.getElem?_map]
  cases b.rbuf[k]? <;> rfl

theorem Receiver.init_inv {b : Receiver} {w s : Nat} {x : BitVec 1} (h : b.Inv w s) : (b.init x).Inv w s :=
  Receiver.inv_of_free (List.length_map ..|>.trans h.1) (Nat.zero_lt_of_lt h.2.1) (Receiver.init_slot_valid b x)

/-! ## The reset state -/

theorem State.resetWith_inv {p : Params} (h : p.Legal) : (State.resetWith p).Inv :=
  ⟨h, Sender.reset_inv h, Receiver.reset_inv h, by simp [State.TimerOk, State.resetWith, Sender.reset]⟩

theorem State.resetWith_payloadsOk (p : Params) : (State.resetWith p).PayloadsOk := by
  constructor
  · intro q hq
    rw [List.eq_of_mem_replicate hq]
    rfl
  · intro sl hsl
    rw [List.eq_of_mem_replicate hsl]
    rfl

/-- Settles O50: the empty engines meet their invariants, and the default parameters are legal. -/
theorem resetStateMeetsTheInvariants : Obligations.ResetStateMeetsTheInvariants :=
  ⟨fun p h => ⟨State.resetWith_inv h, State.resetWith_payloadsOk p⟩, State.resetWith_inv (by decide)⟩

theorem statusReg_clear : statusReg false Sticky.clear = 0#32 := by decide

/-- Settles O49: every clause but STATUS's is a field of the reset record. -/
theorem resetValues : Obligations.ResetValues := by
  refine ⟨fun p => ⟨rfl, rfl, rfl, rfl, fun k => List.getElem?_getD_replicate_default_eq .., rfl, rfl, rfl, fun k => ?_, rfl,
    readsAs_of_regValue (congrArg some statusReg_clear)⟩, rfl⟩
  show ((Receiver.reset p).slot k).valid = false
  rw [Receiver.reset_slot]
  rfl

/-! ## The steps -/

/-- An accepted A_SUBMIT (R131). -/
theorem exec_aSubmit_room {s : State} {m : Message} (hc : s.a.windowcount ≠ s.par.w) :
    exec (.aSubmit m) s = .next ({ s with
      a := s.a.insert s.par.w s.par.s (dataPacket s.par s.a.nextseqnum m)
      tmrArmed := s.tmrArmed || decide (s.a.windowcount + 1 = 1) }.respond .ok 0 none
        (.txA (dataPacket s.par s.a.nextseqnum m) :: startEvents s.par (decide (s.a.windowcount + 1 = 1)))) := by
  show execASubmit m s = _
  unfold execASubmit
  rw [if_neg hc]
  rfl

theorem Receiver.toggled_inv {b : Receiver} {w s : Nat} (h : b.Inv w s) : b.toggled.Inv w s := h

theorem Receiver.deliverAndDrain_inv {b : Receiver} {w s : Nat} (d : Payload) (h : b.Inv w s) :
    (b.deliverAndDrain s d).1.Inv w s :=
  Receiver.drain_inv (Nat.zero_lt_of_lt h.2.1) (Receiver.advance_inv h (Nat.zero_lt_of_lt h.2.1))

/-- A number that passed B_PKT_IN's range check is below S as a natural number too. -/
theorem toNat_lt_of_inRange {q : Int} {s : Nat} (h : ¬ (q < 0 ∨ (s : Int) ≤ q)) : q.toNat < s := by
  omega

theorem exec_aSubmit_inv {s t : State} {m : Message} (h : s.Inv) (he : exec (.aSubmit m) s = .next t) : t.Inv := by
  obtain ⟨hp, ha, hb, ht⟩ := h
  by_cases hc : s.a.windowcount = s.par.w
  · rw [exec_aSubmit_full hc] at he
    cases he
    exact ⟨hp, ha, hb, ht⟩
  · rw [exec_aSubmit_room hc] at he
    cases he
    obtain ⟨⟨-, -, -, -, hcw, -⟩, -⟩ := id ha
    refine ⟨hp, Sender.insert_inv ha hp.2.2.1 (by omega) rfl, hb, ?_⟩
    show (s.tmrArmed || decide (s.a.windowcount + 1 = 1)) = true ↔ 0 < s.a.windowcount + 1
    rw [State.tmrArmed_eq ht]
    simp
    omega

theorem exec_aAckIn_inv {s t : State} {p : Packet} (h : s.Inv) (he : exec (.aAckIn p) s = .next t) : t.Inv := by
  cases hcor : corrupt s.par p with
  | true =>
    rw [exec_aAckIn_corrupt hcor] at he
    cases he
    exact h
  | false =>
    rw [exec_aAckIn_valid hcor] at he
    cases he
    obtain ⟨hp, ha, hb, -⟩ := h
    have ha' := Sender.afterAck_inv (n := p.acknum) ha hp.2.2.1
    refine ⟨hp, ha', hb, ?_⟩
    show (!(Sender.unackedSlots _ s.par.w).isEmpty) = true ↔ _
    rw [Sender.unackedSlots_of_inv ha']
    exact decide_eq_true_iff

theorem exec_aTimeout_inv {s t : State} (h : s.Inv) (he : exec .aTimeout s = .next t) : t.Inv := by
  cases harm : s.tmrArmed with
  | false =>
    rw [exec_aTimeout_idle harm] at he
    cases he
    exact h
  | true =>
    rw [exec_aTimeout_armed harm] at he
    cases he
    obtain ⟨hp, ha, hb, -⟩ := h
    exact ⟨hp, ha, hb, decide_eq_true_iff⟩

theorem exec_bPktIn_inv {s t : State} {p : Packet} (h : s.Inv) (he : exec (.bPktIn p) s = .next t) : t.Inv := by
  obtain ⟨hp, ha, hb, ht⟩ := h
  have htog := Receiver.toggled_inv hb
  rcases bPktIn_cases s p with hcor | ⟨hcor, hout | ⟨hr, hexp | ⟨hne, hoff, hnone | ⟨k, hk⟩⟩⟩⟩
  · rw [exec_bPktIn_corrupt hcor] at he
    cases he
    exact ⟨hp, ha, hb, ht⟩
  · rw [exec_bPktIn_outside hcor hout] at he
    cases he
    exact ⟨hp, ha, htog, ht⟩
  · rw [exec_bPktIn_expected hcor hr hexp] at he
    cases he
    exact ⟨hp, ha, Receiver.deliverAndDrain_inv p.payload htog, ht⟩
  · rw [exec_bPktIn_drop hcor hr hne hoff hnone] at he
    cases he
    exact ⟨hp, ha, htog, ht⟩
  · rw [exec_bPktIn_store hcor hr hne hoff hk] at he
    cases he
    exact ⟨hp, ha, Receiver.store_inv htog (toNat_lt_of_inRange hr), ht⟩

/-- Every command keeps the invariants. -/
theorem exec_inv {s t : State} {i : Instr} (h : s.Inv) (he : exec i s = .next t) : t.Inv := by
  cases i with
  | nop => cases he; exact h
  | aInit =>
    cases he
    obtain ⟨hp, ⟨⟨hl, -, -, -, -, hn⟩, -⟩, hb, -⟩ := h
    exact ⟨hp, Sender.init_inv hl hp.1 (Nat.zero_lt_of_lt hn), hb, by simp [State.TimerOk, Sender.init]⟩
  | aSubmit m => exact exec_aSubmit_inv h he
  | aAckIn p => exact exec_aAckIn_inv h he
  | aTimeout => exact exec_aTimeout_inv h he
  | bInit =>
    cases he
    obtain ⟨hp, ha, hb, ht⟩ := h
    exact ⟨hp, ha, Receiver.init_inv hb, ht⟩
  | bPktIn p => exact exec_bPktIn_inv h he
  | chkEval p => cases he; exact h
  | regRead idx =>
    obtain ⟨e, st, d, hn⟩ := exec_regRead_next idx s
    rw [hn] at he
    cases he
    exact h

/-- Every step keeps the invariants: an idle one, a reset, a legal command and an illegal one. -/
theorem step_inv {s t : State} (h : s.Inv) (hs : step s = .next t) : t.Inv := by
  rcases step_cases s with ⟨-, he⟩ | ⟨rest, -, he⟩ | ⟨c, rest, i, -, -, he⟩ | ⟨c, rest, e, -, -, he⟩ <;> rw [he] at hs
  · cases hs
    exact h
  · cases hs
    exact State.resetWith_inv h.1
  · exact exec_inv (s := s.taken rest) h hs
  · cases hs
    exact h

/-- Settles O51: every step keeps the invariants, and they give the distinct numbers and the bound on occupied slots. -/
theorem everyStepKeepsTheInvariants : Obligations.EveryStepKeepsTheInvariants := by
  intro s t h hs
  have hinv := step_inv h hs
  obtain ⟨⟨-, -, hws, hs', -⟩, ha, ⟨hl, -⟩, -⟩ := id hinv
  refine ⟨hinv, fun i j hij hj he => ?_, hl ▸ occupancy_le_length t.b⟩
  exact hij.ne (Sender.seq_inj (Sender.inv_pre ha) hws hs' (hij.trans hj) hj he)

end Sys2Proof.Machine

/-! The timer record and the counters follow the events of a command (10_state.md R28, R29, R34). -/

namespace Sys2Proof.Machine

/-! ## The timer as the events drive it (60_exceptions.md R226) -/

/-- Packets sent leave the timer to the events behind them. -/
theorem timerAfter_txA_append (armed : Bool) (f : Nat → Packet) (l : List Nat) (evs : List Event) :
    timerAfter armed (l.map (fun k => Event.txA (f k)) ++ evs) = timerAfter armed evs := by
  induction l with
  | nil => rfl
  | cons k l ih => exact ih

/-- Payloads delivered leave the timer alone. -/
theorem timerAfter_deliver (armed : Bool) (ds : List Payload) : timerAfter armed (ds.map Event.deliver) = some armed := by
  induction ds with
  | nil => rfl
  | cons d ds ih => exact ih

/-- A start meets no running timer where none runs: it ends armed exactly where it was asked for. -/
theorem timerAfter_startEvents (par : Params) (start : Bool) : timerAfter false (startEvents par start) = some start := by
  cases start <;> rfl

/-- A stop where the timer runs, and then a start where one is asked for (R132). -/
theorem timerAfter_stop_start (armed : Bool) (par : Params) (start : Bool) :
    timerAfter armed (stopEvents armed ++ startEvents par start) = some start := by
  cases armed <;> cases start <;> rfl

/-- A submission starts the timer only into an empty window, where none runs (R29, R131). -/
theorem timerAfter_submit {s : State} (h : s.TimerOk) (p : Packet) :
    timerAfter s.tmrArmed (.txA p :: startEvents s.par (decide (s.a.windowcount + 1 = 1))) =
      some (s.tmrArmed || decide (s.a.windowcount + 1 = 1)) := by
  rw [State.tmrArmed_eq h]
  rcases Nat.eq_zero_or_pos s.a.windowcount with hc | hc
  · simp [hc, startEvents, timerAfter]
  · simp [hc, hc.ne', startEvents, timerAfter]

/-- The one reply of every command, in a legal state, drives the timer from TMR_ARMED, which A_TIMEOUT consumes, to TMR_ARMED. -/
theorem exec_timerAfter {s : State} (h : s.TimerOk) (i : Instr) : ∃ t r, exec i s = .next t ∧ t.replies = s.replies ++ [r] ∧
    timerAfter (s.tmrArmed && decide (i ≠ .aTimeout)) r.events = some t.tmrArmed := by
  cases i with
  | aTimeout =>
    simp only [ne_eq, not_true_eq_false, decide_false, Bool.and_false]
    cases harm : s.tmrArmed with
    | false => exact ⟨_, _, exec_aTimeout_idle harm, rfl, congrArg some harm.symm⟩
    | true =>
      refine ⟨_, _, exec_aTimeout_armed harm, rfl, ?_⟩
      exact (timerAfter_txA_append ..).trans (timerAfter_startEvents ..)
  | nop => exact ⟨_, _, rfl, rfl, by simp [timerAfter]⟩
  | aInit =>
    refine ⟨_, _, rfl, rfl, ?_⟩
    cases harm : s.tmrArmed <;> simp [stopEvents, timerAfter]
  | aSubmit m =>
    by_cases hc : s.a.windowcount = s.par.w
    · exact ⟨_, _, exec_aSubmit_full hc, rfl, by simp [timerAfter]⟩
    · refine ⟨_, _, exec_aSubmit_room hc, rfl, ?_⟩
      simpa using timerAfter_submit h _
  | aAckIn p =>
    cases hcor : corrupt s.par p with
    | true => exact ⟨_, _, exec_aAckIn_corrupt hcor, rfl, by simp [timerAfter]⟩
    | false =>
      refine ⟨_, _, exec_aAckIn_valid hcor, rfl, ?_⟩
      simpa using timerAfter_stop_start ..
  | bInit => exact ⟨_, _, rfl, rfl, by simp [timerAfter]⟩
  | bPktIn p =>
    rcases bPktIn_cases s p with hcor | ⟨hcor, hout | ⟨hr, hexp | ⟨hne, hoff, hnone | ⟨k, hk⟩⟩⟩⟩
    · exact ⟨_, _, exec_bPktIn_corrupt hcor, rfl, by simp [timerAfter]⟩
    · exact ⟨_, _, exec_bPktIn_outside hcor hout, rfl, by simp [timerAfter]⟩
    · refine ⟨_, _, exec_bPktIn_expected hcor hr hexp, rfl, ?_⟩
      simpa [timerAfter] using timerAfter_deliver ..
    · exact ⟨_, _, exec_bPktIn_drop hcor hr hne hoff hnone, rfl, by simp [timerAfter]⟩
    · exact ⟨_, _, exec_bPktIn_store hcor hr hne hoff hk, rfl, by simp [timerAfter]⟩
  | chkEval p => exact ⟨_, _, rfl, rfl, by simp [timerAfter]⟩
  | regRead idx =>
    obtain ⟨e, st, d, he⟩ := exec_regRead_next idx s
    exact ⟨_, _, he, rfl, by simp [timerAfter]⟩

/-- Settles O52: the timer invariant holds after every command, and its events drive the timer to it. -/
theorem timerRecordFollowsTheEvents : Obligations.TimerRecordFollowsTheEvents := by
  intro s i h
  obtain ⟨-, -, -, ht⟩ := id h
  obtain ⟨t, r, he, hr, hevents⟩ := exec_timerAfter ht i
  obtain ⟨-, -, -, ht'⟩ := exec_inv h he
  exact ⟨t, r, he, hr, ht', hevents⟩

/-! ## The counters (R34) -/

/-- The scan matches exactly where some unacked live entry carries the number. -/
theorem Sender.findUnacked_isSome (a : Sender) (w : Nat) (n : Word) : (a.findUnacked w n).isSome =
    (List.range a.windowcount).any (fun i => !a.acked (a.wslot w i) && (a.packet (a.wslot w i)).seqnum == n) := by
  unfold Sender.findUnacked Sender.liveSlots
  rw [Bool.eq_iff_iff, List.find?_isSome, List.any_eq_true]
  simp

/-- CNT_NEW_ACKS's write, as a sum (R132). -/
theorem newAcks_add (c : Word) (hit : Bool) : (if hit then c + 1#32 else c) = c + if hit then 1#32 else 0#32 := by
  cases hit <;> simp

/-- A_ACK_IN counts every valid ack, and the new ones among them. -/
theorem exec_aAckIn_counters (s : State) (p : Packet) : ∃ t r, exec (.aAckIn p) s = .next t ∧ t.replies = s.replies ++ [r] ∧
    t.cnt = if corrupt s.par p then s.cnt else { s.cnt with
      acksRx := s.cnt.acksRx + 1#32
      newAcks := s.cnt.newAcks + if (List.range s.a.windowcount).any (fun i => !s.a.acked (s.a.wslot s.par.w i) &&
        (s.a.packet (s.a.wslot s.par.w i)).seqnum == p.acknum) then 1#32 else 0#32 } := by
  cases hcor : corrupt s.par p with
  | true => exact ⟨_, _, exec_aAckIn_corrupt hcor, rfl, rfl⟩
  | false =>
    refine ⟨_, _, exec_aAckIn_valid hcor, rfl, ?_⟩
    rw [← Sender.findUnacked_isSome, ← newAcks_add]
    rfl

/-- A_SUBMIT counts the rejections by a full window. -/
theorem exec_aSubmit_counters (s : State) (m : Message) : ∃ t r, exec (.aSubmit m) s = .next t ∧ t.replies = s.replies ++ [r] ∧
    t.cnt = if s.a.windowcount = s.par.w then { s.cnt with windowFull := s.cnt.windowFull + 1#32 } else s.cnt := by
  by_cases hc : s.a.windowcount = s.par.w
  · exact ⟨_, _, exec_aSubmit_full hc, rfl, (if_pos hc).symm⟩
  · exact ⟨_, _, exec_aSubmit_room hc, rfl, (if_neg hc).symm⟩

/-- No counter moves where nothing is counted. -/
theorem Counters.add_zero_retx (c : Counters) : c = { c with retx := c.retx + 0#32 } := by simp

theorem Counters.add_zero_delivered (c : Counters) : c = { c with delivered := c.delivered + 0#32 } := by simp

/-- A_TIMEOUT counts the packets it sends. -/
theorem exec_aTimeout_counters (s : State) : ∃ t r, exec .aTimeout s = .next t ∧ t.replies = s.replies ++ [r] ∧
    t.cnt = { s.cnt with retx := s.cnt.retx + BitVec.ofNat 32 (sentByA r.events).length } := by
  cases harm : s.tmrArmed with
  | false => exact ⟨_, _, exec_aTimeout_idle harm, rfl, Counters.add_zero_retx s.cnt⟩
  | true =>
    refine ⟨_, _, exec_aTimeout_armed harm, rfl, ?_⟩
    rw [sentByA_retransmission, List.length_map]
    rfl

/-- B_PKT_IN counts the payloads it delivers. -/
theorem exec_bPktIn_counters (s : State) (p : Packet) : ∃ t r, exec (.bPktIn p) s = .next t ∧ t.replies = s.replies ++ [r] ∧
    t.cnt = { s.cnt with delivered := s.cnt.delivered + BitVec.ofNat 32 (deliveredPayloads r.events).length } := by
  have hnone := Counters.add_zero_delivered s.cnt
  rcases bPktIn_cases s p with hcor | ⟨hcor, hout | ⟨hr, hexp | ⟨hne, hoff, hfull | ⟨k, hk⟩⟩⟩⟩
  · exact ⟨_, _, exec_bPktIn_corrupt hcor, rfl, hnone⟩
  · exact ⟨_, _, exec_bPktIn_outside hcor hout, rfl, hnone⟩
  · refine ⟨_, _, exec_bPktIn_expected hcor hr hexp, rfl, ?_⟩
    rw [deliveredPayloads_ack_cons]
    rfl
  · exact ⟨_, _, exec_bPktIn_drop hcor hr hne hoff hfull, rfl, hnone⟩
  · exact ⟨_, _, exec_bPktIn_store hcor hr hne hoff hk, rfl, hnone⟩

/-- Settles O54: one lemma per command that counts something; the others leave the counters as they are. -/
theorem countersCountTheirEvents : Obligations.CountersCountTheirEvents := by
  refine ⟨fun s i => ?_, fun s => ⟨_, rfl, rfl⟩, rfl, fun s => rfl⟩
  cases i with
  | nop => exact ⟨_, _, rfl, rfl, rfl⟩
  | aInit => exact ⟨_, _, rfl, rfl, rfl⟩
  | aSubmit m => exact exec_aSubmit_counters s m
  | aAckIn p => exact exec_aAckIn_counters s p
  | aTimeout => exact exec_aTimeout_counters s
  | bInit => exact ⟨_, _, rfl, rfl, rfl⟩
  | bPktIn p => exact exec_bPktIn_counters s p
  | chkEval p => exact ⟨_, _, rfl, rfl, rfl⟩
  | regRead idx =>
    obtain ⟨e, st, d, he⟩ := exec_regRead_next idx s
    exact ⟨_, _, he, rfl, rfl⟩

end Sys2Proof.Machine

/-! The contents the spec leaves unspecified (10_state.md R21, R32) are read by no command: two states with equal observed parts step to
states with equal observed parts. The second state is written as the first with other slot arrays, so that what does not read the arrays
agrees by definition. -/

namespace Sys2Proof.Machine

/-! ## The sender with another A.WBUF -/

/-- The sender with other packets in its slots. -/
def Sender.withWbuf (a : Sender) (l : List Packet) : Sender := { a with wbuf := l }

/-- The sender's observed part fixes everything but A.WBUF. -/
theorem Sender.eq_withWbuf {a a' : Sender} {w : Nat} (h : a.observed w = a'.observed w) : a' = a.withWbuf a'.wbuf := by
  obtain ⟨wbuf, ack, first, last, count, next⟩ := a
  obtain ⟨wbuf', ack', first', last', count', next'⟩ := a'
  simp only [Sender.observed, Sender.mk.injEq] at h
  obtain ⟨-, rfl, rfl, rfl, rfl, rfl⟩ := h
  rfl

/-- Another A.WBUF is not observed exactly where it has the same length and the same packets in the live slots (R21). -/
theorem Sender.observed_withWbuf_iff {a : Sender} {w : Nat} {l : List Packet} : a.observed w = (a.withWbuf l).observed w ↔
    a.wbuf.length = l.length ∧ ∀ k, a.live w k = true → (a.withWbuf l).packet k = a.packet k := by
  simp only [Sender.observed, Sender.withWbuf, Sender.mk.injEq, and_true]
  constructor
  · intro h
    have hlen : a.wbuf.length = l.length := by simpa using congrArg List.length h
    refine ⟨hlen, fun k hk => ?_⟩
    rcases Nat.lt_or_ge k l.length with hkl | hkl
    · have hget := congrArg (fun m => m[k]?) h
      simp [hkl, hlen, hk, show Sender.live { a with wbuf := l } w k = true from hk] at hget
      simp [Sender.packet, hkl, hlen, hget]
    · simp [Sender.packet, hkl, hlen ▸ hkl]
  · rintro ⟨hlen, hpk⟩
    apply List.ext_getElem (by simpa using hlen)
    intro k hk hk'
    simp only [List.length_mapIdx] at hk hk'
    have hsame := hpk k
    simp only [Sender.packet, List.getD_eq_getElem _ _ hk, List.getD_eq_getElem _ _ hk'] at hsame
    simp only [List.getElem_mapIdx]
    show (if a.live w k then _ else _) = if a.live w k then _ else _
    split_ifs with hlv
    · exact (hsame hlv).symm
    · rfl

/-- A sender operation that leaves A.WBUF alone and makes no slot live keeps the other A.WBUF unobserved. -/
theorem Sender.observed_withWbuf_of_live {a b : Sender} {w : Nat} {l : List Packet} (h : a.observed w = (a.withWbuf l).observed w)
    (hb : b.wbuf = a.wbuf) (hlive : ∀ k, k < a.wbuf.length → b.live w k = true → a.live w k = true) :
    b.observed w = (b.withWbuf l).observed w := by
  obtain ⟨hlen, hpk⟩ := Sender.observed_withWbuf_iff.1 h
  refine Sender.observed_withWbuf_iff.2 ⟨hb ▸ hlen, fun k hk => ?_⟩
  show l.getD k _ = b.wbuf.getD k _
  rw [hb]
  rcases Nat.lt_or_ge k a.wbuf.length with hkl | hkl
  · exact hpk k (hlive k hkl hk)
  · rw [List.getD_eq_default _ _ hkl, List.getD_eq_default _ _ (hlen ▸ hkl)]

/-- The emptied window (R130). -/
theorem Sender.init_observed {a : Sender} {w : Nat} {l : List Packet} (h : a.observed w = (a.withWbuf l).observed w)
    (hw : a.wbuf.length = w) : (a.init w).observed w = ((a.withWbuf l).init w).observed w := by
  refine Sender.observed_withWbuf_of_live h (b := a.init w) rfl fun k hk hlive => ?_
  obtain ⟨i, hi, -⟩ := (Sender.live_iff_wslot (a := a.init w) (by show 0 < w; omega) (Nat.zero_le w) (hw ▸ hk)).1 hlive
  exact absurd hi (Nat.not_lt_zero i)

/-- The insertion writes the same packet into the same slot of either A.WBUF (R131). -/
theorem Sender.insert_observed {a : Sender} {w s : Nat} {l : List Packet} {p : Packet} (hinv : a.Inv w s)
    (hc : a.windowcount < w) (h : a.observed w = (a.withWbuf l).observed w) :
    (a.insert w s p).observed w = ((a.withWbuf l).insert w s p).observed w := by
  obtain ⟨hlen, hpk⟩ := Sender.observed_withWbuf_iff.1 h
  have hlast := Sender.insert_slot (Sender.inv_pre hinv)
  obtain ⟨⟨hw, -, hf, -, hcw, -⟩, -⟩ := hinv
  refine Sender.observed_withWbuf_iff (l := l.set ((a.windowlast + 1) % w) p) |>.2 ⟨by simpa [Sender.insert] using hlen, fun k hk => ?_⟩
  show (l.set _ p).getD k _ = (a.wbuf.set _ p).getD k _
  rw [getD_set, getD_set, hlen]
  split_ifs with hkl
  · rfl
  · rcases Nat.lt_or_ge k w with hkw | hkw
    · apply hpk
      obtain ⟨i, hi, rfl⟩ := (Sender.live_iff_wslot (a := a.insert w s p) hf (by exact hc) hkw).1 hk
      refine (Sender.live_iff_wslot hf hcw hkw).2 ⟨i, ?_, rfl⟩
      have hi' : i < a.windowcount + 1 := hi
      rcases Nat.lt_succ_iff_lt_or_eq.1 hi' with hlt | rfl
      · exact hlt
      · exact absurd ⟨hlast.symm, by rw [← hlen, hw, hlast]; exact hkw⟩ hkl
    · rw [List.getD_eq_default _ _ (hlen ▸ hw ▸ hkw), List.getD_eq_default _ _ (hw ▸ hkw)]

/-! ### What A_ACK_IN reads -/

/-- The scan reads live slots only (R132). -/
theorem Sender.findUnacked_withWbuf {a : Sender} {w : Nat} {l : List Packet} (hf : a.windowfirst < w) (hc : a.windowcount ≤ w)
    (h : a.observed w = (a.withWbuf l).observed w) (n : Word) : (a.withWbuf l).findUnacked w n = a.findUnacked w n := by
  obtain ⟨-, hpk⟩ := Sender.observed_withWbuf_iff.1 h
  show (a.liveSlots w).find? (fun k => !a.acked k && ((a.withWbuf l).packet k).seqnum == n) = (a.liveSlots w).find? _
  apply List.find?_congr
  intro k hk
  obtain ⟨i, hi, rfl⟩ := Sender.mem_liveSlots.1 hk
  rw [hpk _ ((Sender.live_iff_wslot hf hc (Sender.wslot_lt (by omega) i)).2 ⟨i, hi, rfl⟩)]

/-- The slide does not read A.WBUF (R132). -/
theorem Sender.slide_withWbuf {w : Nat} {l : List Packet} : ∀ {n : Nat} {a : Sender},
    Sender.slide w n (a.withWbuf l) = ((Sender.slide w n a).1.withWbuf l, (Sender.slide w n a).2)
  | 0, a => rfl
  | n + 1, a => by
    rw [Sender.slide_succ, Sender.slide_succ]
    show (if 0 < a.windowcount ∧ a.acked a.windowfirst = true then
      ((Sender.slide w n ((a.freeFront w).withWbuf l)).1, (Sender.slide w n ((a.freeFront w).withWbuf l)).2 + 1) else _) = _
    rw [Sender.slide_withWbuf]
    split_ifs <;> rfl

/-- The slide makes no slot live. -/
theorem Sender.live_of_slide {a : Sender} {w n k : Nat} (hn : a.windowcount ≤ n) (hf : a.windowfirst < w) (hc : a.windowcount ≤ w)
    (hl : a.ack.length = w) (hk : k < w) (h : (Sender.slide w n a).1.live w k = true) : a.live w k = true := by
  obtain ⟨-, -, hfirst, -⟩ := Sender.slide_spec hn hf hc hl
  obtain ⟨-, -, -, hcount⟩ := Sender.slide_frame (w := w) (n := n) (a := a)
  generalize Sender.slide w n a = r at *
  have hf' : r.1.windowfirst < w := by rw [hfirst]; exact Sender.wslot_lt (by omega) _
  obtain ⟨i, hi, rfl⟩ := (Sender.live_iff_wslot hf' (by omega) hk).1 h
  refine (Sender.live_iff_wslot hf hc hk).2 ⟨r.2 + i, by omega, ?_⟩
  unfold Sender.wslot
  rw [hfirst, Sender.wslot, Nat.mod_add_mod, Nat.add_assoc]

/-- The mark reads what the scan reads. -/
theorem Sender.marked_withWbuf {a : Sender} {w : Nat} {l : List Packet} {n : Word}
    (h : (a.withWbuf l).findUnacked w n = a.findUnacked w n) : (a.withWbuf l).marked w n = (a.marked w n).withWbuf l := by
  unfold Sender.marked
  rw [h]
  cases a.findUnacked w n <;> rfl

/-- The mark and the slide, with the other A.WBUF. -/
theorem Sender.afterAck_withWbuf {a : Sender} {w : Nat} {l : List Packet} {n : Word}
    (h : (a.withWbuf l).findUnacked w n = a.findUnacked w n) :
    (a.withWbuf l).afterAck w n = ((a.afterAck w n).1.withWbuf l, (a.afterAck w n).2) := by
  unfold Sender.afterAck
  rw [Sender.marked_withWbuf h]
  exact Sender.slide_withWbuf

/-- The window A_ACK_IN leaves is observed alike. -/
theorem Sender.afterAck_observed {a : Sender} {w s : Nat} {l : List Packet} {n : Word} (hinv : a.Inv w s)
    (h : a.observed w = (a.withWbuf l).observed w) :
    (a.afterAck w n).1.observed w = ((a.afterAck w n).1.withWbuf l).observed w := by
  obtain ⟨hwbuf, -⟩ := Sender.afterAck_frame a w n
  obtain ⟨-, -, -, hcount, hfirst⟩ := Sender.marked_frame a w n
  obtain ⟨⟨-, hack, hf, -, hc, -⟩, -⟩ := Sender.marked_pre (n := n) (Sender.inv_pre hinv)
  obtain ⟨⟨hw, -⟩, -⟩ := hinv
  refine Sender.observed_withWbuf_of_live h hwbuf fun k hk hlive => ?_
  have hmarked : (a.marked w n).live w k = true := Sender.live_of_slide le_rfl hf hc hack (hw ▸ hk) hlive
  unfold Sender.live at hmarked ⊢
  rwa [hcount, hfirst] at hmarked

/-! ### What A_TIMEOUT and REG_READ read -/

/-- A retransmission reads live slots only (R134). -/
theorem Sender.resent_withWbuf {a : Sender} {w : Nat} {l : List Packet} (hf : a.windowfirst < w) (hc : a.windowcount ≤ w)
    (h : a.observed w = (a.withWbuf l).observed w) :
    (a.unackedSlots w).map (fun k => Event.txA ((a.withWbuf l).packet k)) =
      (a.unackedSlots w).map (fun k => Event.txA (a.packet k)) := by
  obtain ⟨-, hpk⟩ := Sender.observed_withWbuf_iff.1 h
  apply List.map_congr_left
  intro k hk
  obtain ⟨⟨i, hi, rfl⟩, -⟩ := Sender.mem_unackedSlots.1 hk
  rw [hpk _ ((Sender.live_iff_wslot hf hc (Sender.wslot_lt (by omega) i)).2 ⟨i, hi, rfl⟩)]

/-- A_SLOT[k] shows a packet's number in a live slot only (R36). -/
theorem aSlotReg_withWbuf {a : Sender} {w : Nat} {l : List Packet} (h : a.observed w = (a.withWbuf l).observed w) (k : Nat) :
    aSlotReg (a.withWbuf l) w k = aSlotReg a w k := by
  obtain ⟨-, hpk⟩ := Sender.observed_withWbuf_iff.1 h
  have hlive : (a.withWbuf l).live w k = a.live w k := rfl
  have hacked : (a.withWbuf l).acked k = a.acked k := rfl
  unfold aSlotReg
  rw [hlive, hacked]
  cases hk : a.live w k with
  | false => rfl
  | true => rw [hpk k hk]

/-! ## The receiver with another B.RBUF -/

/-- The receiver with other slots. -/
def Receiver.withRbuf (b : Receiver) (m : List Slot) : Receiver := { b with rbuf := m }

/-- The receiver's observed part fixes everything but B.RBUF. -/
theorem Receiver.eq_withRbuf {b b' : Receiver} (h : b.observed = b'.observed) : b' = b.withRbuf b'.rbuf := by
  obtain ⟨cursor, ackbit, rbuf⟩ := b
  obtain ⟨cursor', ackbit', rbuf'⟩ := b'
  simp only [Receiver.observed, Receiver.mk.injEq] at h
  obtain ⟨rfl, rfl, -⟩ := h
  rfl

theorem Receiver.observed_slot (b : Receiver) (k : Nat) :
    b.observed.slot k = if (b.slot k).valid then b.slot k else Slot.empty := by
  unfold Receiver.slot Receiver.observed
  rw [List.getD_eq_getElem?_getD, List.getD_eq_getElem?_getD, List.getElem?_map]
  cases b.rbuf[k]? <;> rfl

/-- A slot is observed valid exactly where it is. -/
theorem Receiver.observed_slot_valid (b : Receiver) (k : Nat) : (b.observed.slot k).valid = (b.slot k).valid := by
  rw [Receiver.observed_slot]
  cases hv : (b.slot k).valid <;> simp [hv, Slot.empty]

theorem Receiver.valid_congr {b b' : Receiver} (h : b.observed = b'.observed) (k : Nat) : (b.slot k).valid = (b'.slot k).valid := by
  rw [← Receiver.observed_slot_valid, h, Receiver.observed_slot_valid]

/-- Valid slots are observed whole. -/
theorem Receiver.slot_congr {b b' : Receiver} {k : Nat} (h : b.observed = b'.observed) (hv : (b.slot k).valid = true) :
    b'.slot k = b.slot k := by
  have hv' := (Receiver.valid_congr h k).symm.trans hv
  have hslot := (Receiver.observed_slot b k).symm.trans (h ▸ Receiver.observed_slot b' k)
  rw [if_pos hv, if_pos hv'] at hslot
  exact hslot.symm

/-- The searches read valid bits, and seq where they are set. -/
theorem Receiver.findFree_observed (b : Receiver) : b.observed.findFree = b.findFree := by
  unfold Receiver.findFree Receiver.observed
  rw [List.findIdx?_map]
  congr 1
  funext sl
  cases hv : sl.valid <;> simp [hv, Slot.empty]

theorem Receiver.findExpected_observed (b : Receiver) : b.observed.findExpected = b.findExpected := by
  unfold Receiver.findExpected Receiver.observed
  rw [List.findIdx?_map]
  congr 1
  funext sl
  cases hv : sl.valid <;> simp [hv, Slot.empty]

theorem Receiver.findFree_congr {b b' : Receiver} (h : b.observed = b'.observed) : b'.findFree = b.findFree := by
  rw [← Receiver.findFree_observed b', ← h, Receiver.findFree_observed]

theorem Receiver.findExpected_congr {b b' : Receiver} (h : b.observed = b'.observed) : b'.findExpected = b.findExpected := by
  rw [← Receiver.findExpected_observed b', ← h, Receiver.findExpected_observed]

/-- Occupancy reads valid bits only (R36). -/
theorem occupancy_observed (b : Receiver) : occupancy b.observed = occupancy b := by
  unfold occupancy Receiver.observed
  rw [List.countP_map]
  congr 1
  funext sl
  cases hv : sl.valid <;> simp [hv, Slot.empty]

theorem occupancy_congr {b b' : Receiver} (h : b.observed = b'.observed) : occupancy b' = occupancy b := by
  rw [← occupancy_observed b', ← h, occupancy_observed]

/-- B_SLOT[k] shows seq in a valid slot only (R36). -/
theorem bSlotReg_congr {b b' : Receiver} (h : b.observed = b'.observed) (k : Nat) : bSlotReg b' k = bSlotReg b k := by
  unfold bSlotReg
  rw [← Receiver.valid_congr h k]
  cases hv : (b.slot k).valid with
  | false => rfl
  | true => rw [Receiver.slot_congr h hv]

/-! ### What the receiver's writes do to what is observed -/

theorem Receiver.store_observed (b : Receiver) (k seq : Nat) (d : Payload) :
    (b.store k seq d).observed = b.observed.store k seq d := by
  simp [Receiver.store, Receiver.observed, List.map_set]

/-- A freed slot is observed empty. -/
theorem Receiver.pop_observed (b : Receiver) (s k : Nat) :
    (b.pop s k).observed = { b.observed.advance s with rbuf := b.observed.rbuf.set k Slot.empty } := by
  simp [Receiver.pop, Receiver.free, Receiver.advance, Receiver.observed, List.map_set]

/-- After B_INIT every slot is observed empty (R170). -/
theorem Receiver.init_observed (b : Receiver) (x : BitVec 1) :
    (b.init x).observed = ⟨0, x, List.replicate b.observed.rbuf.length Slot.empty⟩ := by
  simp [Receiver.init, Receiver.observed, invalidate, List.map_map, Function.comp_def, List.map_const']

theorem Receiver.store_congr {b b' : Receiver} (h : b.observed = b'.observed) (k seq : Nat) (d : Payload) :
    (b.store k seq d).observed = (b'.store k seq d).observed := by
  rw [Receiver.store_observed, h, Receiver.store_observed]

theorem Receiver.pop_congr {b b' : Receiver} (h : b.observed = b'.observed) (s k : Nat) :
    (b.pop s k).observed = (b'.pop s k).observed := by
  rw [Receiver.pop_observed, h, Receiver.pop_observed]

theorem Receiver.init_congr {b b' : Receiver} (h : b.observed = b'.observed) (x : BitVec 1) :
    (b.init x).observed = (b'.init x).observed := by
  rw [Receiver.init_observed, h, Receiver.init_observed]

/-- Receivers observed alike drain alike (R173). -/
theorem Receiver.drain_congr {s : Nat} : ∀ {n : Nat} {b b' : Receiver}, b.observed = b'.observed →
    (Receiver.drain s n b').2 = (Receiver.drain s n b).2 ∧
      (Receiver.drain s n b).1.observed = (Receiver.drain s n b').1.observed
  | 0, _, _, h => ⟨rfl, h⟩
  | n + 1, b, b', h => by
    cases hf : b.findExpected with
    | none =>
      rw [Receiver.drain_of_none hf, Receiver.drain_of_none ((Receiver.findExpected_congr h).trans hf)]
      exact ⟨rfl, h⟩
    | some k =>
      rw [Receiver.drain_of_some hf, Receiver.drain_of_some ((Receiver.findExpected_congr h).trans hf)]
      obtain ⟨hds, hobs⟩ := Receiver.drain_congr (n := n) (Receiver.pop_congr h s k)
      obtain ⟨hv, -⟩ := Receiver.findExpected_some.1 hf
      exact ⟨by rw [hds, Receiver.slot_congr h hv], hobs⟩

/-- Receivers observed alike deliver alike (R173). -/
theorem Receiver.deliverAndDrain_congr {b b' : Receiver} (h : b.observed = b'.observed) (s : Nat) (d : Payload) :
    (b'.deliverAndDrain s d).2 = (b.deliverAndDrain s d).2 ∧
      (b.deliverAndDrain s d).1.observed = (b'.deliverAndDrain s d).1.observed := by
  have hlen : b.rbuf.length = b'.rbuf.length := by simpa [Receiver.observed] using congrArg (fun r => r.rbuf.length) h
  have hadv : (b.advance s).observed = (b'.advance s).observed := congrArg (Receiver.advance · s) h
  unfold Receiver.deliverAndDrain
  rw [← hlen]
  obtain ⟨hds, hobs⟩ := Receiver.drain_congr (s := s) (n := b.rbuf.length) hadv
  exact ⟨congrArg (d :: ·) hds, hobs⟩

/-! ## The state with other slot arrays -/

/-- The state with other packets in A.WBUF and other slots in B.RBUF. -/
def State.withSlots (s : State) (l : List Packet) (m : List Slot) : State :=
  { s with a := s.a.withWbuf l, b := s.b.withRbuf m }

@[simp] theorem State.withSlots_par (s : State) (l : List Packet) (m : List Slot) : (s.withSlots l m).par = s.par := rfl

/-- The slot arrays `l` and `m` are not told from those of `s`. -/
def State.SlotsAgree (s : State) (l : List Packet) (m : List Slot) : Prop :=
  s.a.observed s.par.w = (s.a.withWbuf l).observed s.par.w ∧ s.b.observed = (s.b.withRbuf m).observed

/-- States with equal observed parts differ in their slot arrays only, and there only where it is not observed. -/
theorem State.eq_withSlots {s s' : State} (h : s.observed = s'.observed) :
    s' = s.withSlots s'.a.wbuf s'.b.rbuf ∧ s.SlotsAgree s'.a.wbuf s'.b.rbuf := by
  obtain ⟨par, a, armed, b, cnt, err, pending, replies⟩ := s
  obtain ⟨par', a', armed', b', cnt', err', pending', replies'⟩ := s'
  simp only [State.observed, State.mk.injEq] at h
  obtain ⟨rfl, ha, rfl, hb, rfl, rfl, rfl, rfl⟩ := h
  have ha' := Sender.eq_withWbuf ha
  have hb' := Receiver.eq_withRbuf hb
  refine ⟨?_, ha' ▸ ha, hb' ▸ hb⟩
  simp only [State.withSlots]
  rw [← ha', ← hb']

/-- Engines observed alike make states observed alike. -/
theorem State.observed_congr {t : State} {a' : Sender} {b' : Receiver} (ha : t.a.observed t.par.w = a'.observed t.par.w)
    (hb : t.b.observed = b'.observed) : t.observed = State.observed { t with a := a', b := b' } := by
  unfold State.observed
  rw [ha, hb]

/-- Two outcomes that go on to states observed alike. -/
def SameObserved (x y : Host.Outcome State Fault Refusal) : Prop :=
  ∃ t t', x = .next t ∧ y = .next t' ∧ t.observed = t'.observed

/-- Outcomes that differ in their engines only, observed alike, go on to states observed alike. -/
theorem SameObserved.of_next {x y : Host.Outcome State Fault Refusal} {t : State} {a' : Sender} {b' : Receiver} (hx : x = .next t)
    (hy : y = .next { t with a := a', b := b' }) (ha : t.a.observed t.par.w = a'.observed t.par.w)
    (hb : t.b.observed = b'.observed) : SameObserved x y :=
  ⟨_, _, hx, hy, State.observed_congr ha hb⟩

/-! ## Every command, one by one

`s.withSlots l m` stands for the second state. -/

section
variable {s : State} {l : List Packet} {m : List Slot}

/-- Every register reads alike (R36). -/
theorem regValue_withSlots (h : s.SlotsAgree l m) (n : Nat) : regValue (s.withSlots l m) n = regValue s n := by
  obtain ⟨ha, hb⟩ := h
  have hocc : occupancy (s.withSlots l m).b = occupancy s.b := occupancy_congr hb
  have haSlot : ∀ k, aSlotReg (s.withSlots l m).a s.par.w k = aSlotReg s.a s.par.w k := aSlotReg_withWbuf ha
  have hbSlot : ∀ k, bSlotReg (s.withSlots l m).b k = bSlotReg s.b k := bSlotReg_congr hb
  unfold regValue
  simp only [hocc, haSlot, hbSlot, State.withSlots_par]
  rfl

theorem exec_regRead_observed (h : s.SlotsAgree l m) (idx : Byte) :
    SameObserved (exec (.regRead idx) s) (exec (.regRead idx) (s.withSlots l m)) := by
  cases hv : regValue s idx.toNat with
  | some v =>
    exact .of_next (readsAs_of_regValue hv) (readsAs_of_regValue ((regValue_withSlots h _).trans hv)) h.1 h.2
  | none =>
    exact .of_next (exec_regRead_unassigned hv) (exec_regRead_unassigned ((regValue_withSlots h _).trans hv)) h.1 h.2

theorem exec_aSubmit_observed (hinv : s.Inv) (h : s.SlotsAgree l m) (msg : Message) :
    SameObserved (exec (.aSubmit msg) s) (exec (.aSubmit msg) (s.withSlots l m)) := by
  obtain ⟨ha, hb⟩ := h
  obtain ⟨-, hainv, -⟩ := hinv
  by_cases hc : s.a.windowcount = s.par.w
  · exact .of_next (exec_aSubmit_full hc) (exec_aSubmit_full (s := s.withSlots l m) hc) ha hb
  · obtain ⟨⟨-, -, -, -, hcw, -⟩, -⟩ := id hainv
    have hins := Sender.insert_observed (p := dataPacket s.par s.a.nextseqnum msg) hainv (by omega) ha
    exact .of_next (exec_aSubmit_room hc) (exec_aSubmit_room (s := s.withSlots l m) hc) hins hb

theorem exec_aAckIn_observed (hinv : s.Inv) (h : s.SlotsAgree l m) (p : Packet) :
    SameObserved (exec (.aAckIn p) s) (exec (.aAckIn p) (s.withSlots l m)) := by
  obtain ⟨ha, hb⟩ := h
  obtain ⟨-, hainv, -⟩ := hinv
  cases hcor : corrupt s.par p with
  | true => exact .of_next (exec_aAckIn_corrupt hcor) (exec_aAckIn_corrupt (s := s.withSlots l m) hcor) ha hb
  | false =>
    obtain ⟨⟨-, -, hf, -, hc, -⟩, -⟩ := id hainv
    have hfind : (s.withSlots l m).a.findUnacked s.par.w p.acknum = s.a.findUnacked s.par.w p.acknum :=
      Sender.findUnacked_withWbuf hf hc ha p.acknum
    have hafter : (s.withSlots l m).a.afterAck s.par.w p.acknum =
      ((s.a.afterAck s.par.w p.acknum).1.withWbuf l, (s.a.afterAck s.par.w p.acknum).2) := Sender.afterAck_withWbuf hfind
    have hnext := exec_aAckIn_valid (s := s.withSlots l m) hcor
    rw [State.withSlots_par, hfind, hafter] at hnext
    exact .of_next (exec_aAckIn_valid hcor) hnext (Sender.afterAck_observed hainv ha) hb

theorem exec_aTimeout_observed (hinv : s.Inv) (h : s.SlotsAgree l m) :
    SameObserved (exec .aTimeout s) (exec .aTimeout (s.withSlots l m)) := by
  obtain ⟨ha, hb⟩ := h
  obtain ⟨-, ⟨⟨-, -, hf, -, hc, -⟩, -⟩, -⟩ := hinv
  cases harm : s.tmrArmed with
  | false => exact .of_next (exec_aTimeout_idle harm) (exec_aTimeout_idle (s := s.withSlots l m) harm) ha hb
  | true =>
    have hresent : ((s.withSlots l m).a.unackedSlots s.par.w).map (fun k => Event.txA ((s.withSlots l m).a.packet k)) =
      (s.a.unackedSlots s.par.w).map (fun k => Event.txA (s.a.packet k)) := Sender.resent_withWbuf hf hc ha
    have hnext := exec_aTimeout_armed (s := s.withSlots l m) harm
    rw [State.withSlots_par, hresent] at hnext
    exact .of_next (exec_aTimeout_armed harm) hnext ha hb

theorem exec_bPktIn_observed (h : s.SlotsAgree l m) (p : Packet) :
    SameObserved (exec (.bPktIn p) s) (exec (.bPktIn p) (s.withSlots l m)) := by
  obtain ⟨ha, hb⟩ := h
  have htog : s.b.toggled.observed = (s.withSlots l m).b.toggled.observed := congrArg Receiver.toggled hb
  have hfree : (s.withSlots l m).b.findFree = s.b.findFree := Receiver.findFree_congr hb
  rcases bPktIn_cases s p with hcor | ⟨hcor, hout | ⟨hr, hexp | ⟨hne, hoff, hnone | ⟨k, hk⟩⟩⟩⟩
  · exact .of_next (exec_bPktIn_corrupt hcor) (exec_bPktIn_corrupt (s := s.withSlots l m) hcor) ha hb
  · exact .of_next (exec_bPktIn_outside hcor hout) (exec_bPktIn_outside (s := s.withSlots l m) hcor hout) ha htog
  · obtain ⟨hds, hobs⟩ := Receiver.deliverAndDrain_congr htog s.par.s p.payload
    have hnext := exec_bPktIn_expected (s := s.withSlots l m) hcor hr hexp
    rw [State.withSlots_par, hds] at hnext
    exact .of_next (exec_bPktIn_expected hcor hr hexp) hnext ha hobs
  · exact .of_next (exec_bPktIn_drop hcor hr hne hoff hnone)
      (exec_bPktIn_drop (s := s.withSlots l m) hcor hr hne hoff (hfree.trans hnone)) ha htog
  · exact .of_next (exec_bPktIn_store hcor hr hne hoff hk)
      (exec_bPktIn_store (s := s.withSlots l m) hcor hr hne hoff (hfree.trans hk)) ha (Receiver.store_congr htog ..)

/-- Every command does the same to what is observed, and answers the same. -/
theorem exec_observed (hinv : s.Inv) (h : s.SlotsAgree l m) (i : Instr) : SameObserved (exec i s) (exec i (s.withSlots l m)) := by
  obtain ⟨ha, hb⟩ := id h
  cases i with
  | nop => exact .of_next rfl rfl ha hb
  | aInit =>
    obtain ⟨-, ⟨⟨hw, -⟩, -⟩, -⟩ := hinv
    exact .of_next rfl rfl (Sender.init_observed ha hw) hb
  | aSubmit msg => exact exec_aSubmit_observed hinv h msg
  | aAckIn p => exact exec_aAckIn_observed hinv h p
  | aTimeout => exact exec_aTimeout_observed hinv h
  | bInit => exact .of_next rfl rfl ha (Receiver.init_congr hb s.par.ackSeqReset)
  | bPktIn p => exact exec_bPktIn_observed h p
  | chkEval p => exact .of_next rfl rfl ha hb
  | regRead idx => exact exec_regRead_observed h idx

/-- Every stimulus, the reset input and the illegal commands too. -/
theorem runStimulus_observed (hinv : s.Inv) (h : s.SlotsAgree l m) (x : Stimulus) :
    SameObserved (runStimulus x s) (runStimulus x (s.withSlots l m)) := by
  cases x with
  | reset => exact ⟨_, _, rfl, rfl, rfl⟩
  | command c =>
    show SameObserved (runCommand c s) (runCommand c (s.withSlots l m))
    unfold runCommand
    cases decode c with
    | ok i => exact exec_observed hinv h i
    | error e => exact .of_next rfl rfl h.1 h.2

/-- Every step, the idle one too. -/
theorem step_observed (hinv : s.Inv) (h : s.SlotsAgree l m) : SameObserved (step s) (step (s.withSlots l m)) := by
  have hpending : (s.withSlots l m).pending = s.pending := rfl
  unfold step
  rw [hpending]
  cases s.pending with
  | nil => exact .of_next rfl rfl h.1 h.2
  | cons x rest => exact runStimulus_observed (s := s.taken rest) hinv h x

end

/-- Settles O58: the second state is the first with slot arrays that are not told from its own, and no step tells them apart. -/
theorem deadContentsAreUnobservable : Obligations.DeadContentsAreUnobservable := by
  intro s s' hinv _ h
  obtain ⟨hs', hagree⟩ := State.eq_withSlots h
  rw [hs']
  exact step_observed hinv hagree

end Sys2Proof.Machine

/-! The memory layout of a packet and the order of the block's outputs (20_memory.md R61, R62, R64, R70). -/

namespace Sys2Proof.Machine

/-- Settles O4: the layout's definition, and the two round trips of 32 bytes through it. -/
theorem packetLayout : Obligations.PacketLayout := by
  refine ⟨fun p => ⟨rfl, packetOfBytes_bytesOfPacket p⟩, fun bs h => ⟨?_, bytesOfPacket_packetOfBytes (by omega)⟩⟩
  have hpay : (packetOfBytes bs).payload.length = bs.length - 12 := List.length_drop
  rw [Packet.wf, hpay, h]
  rfl

/-- The events of one more reply stand behind those of all earlier ones. -/
theorem State.emitted_of_replies {s t : State} {r : Reply} (h : t.replies = s.replies ++ [r]) :
    t.emitted = s.emitted ++ r.events := by
  unfold State.emitted
  rw [h, List.flatMap_append, List.flatMap_singleton]

/-- Settles O15: an idle step and a reset add nothing to the record, a command, legal or not, adds one reply at its end. -/
theorem eventsOfEarlierCommandsComeFirst : Obligations.EventsOfEarlierCommandsComeFirst := by
  intro s t hs
  rcases step_cases s with ⟨-, he⟩ | ⟨rest, -, he⟩ | ⟨c, rest, i, -, -, he⟩ | ⟨c, rest, e, -, -, he⟩ <;> rw [he] at hs
  · cases hs
    exact .inl ⟨rfl, rfl⟩
  · cases hs
    exact .inl ⟨rfl, rfl⟩
  · obtain ⟨t', st, n, d, evs, hnext, hr, -⟩ := exec_reply i (s.taken rest)
    rw [hnext] at hs
    cases hs
    exact .inr ⟨_, hr, State.emitted_of_replies (s := s) hr⟩
  · cases hs
    exact .inr ⟨_, rfl, State.emitted_of_replies (s := s) rfl⟩

/-- While the window has room, the slot behind its newest entry is not live: `wslot` repeats no slot below W (R27, R61). -/
theorem Sender.wslot_windowcount_not_live {a : Sender} {w : Nat} (hf : a.windowfirst < w) (hc : a.windowcount < w) :
    a.live w (a.wslot w a.windowcount) = false := by
  rw [← Bool.not_eq_true, Sender.live_iff_wslot hf hc.le (Sender.wslot_lt (by omega) _)]
  rintro ⟨i, hi, heq⟩
  exact hi.ne' (Sender.wslot_inj hf hc (hi.trans hc) heq)

/-- Settles O23: `Sender.insert_slot` names the slot, and with room no live entry has it. -/
theorem nextInsertionSlotIsTheFirstFreeOne : Obligations.NextInsertionSlotIsTheFirstFreeOne := by
  intro s hinv
  obtain ⟨-, ha, -⟩ := hinv
  obtain ⟨⟨-, -, hf, -⟩, -⟩ := id ha
  have hslot := Sender.insert_slot (Sender.inv_pre ha)
  exact ⟨hslot, fun hc => hslot ▸ Sender.wslot_windowcount_not_live hf hc⟩

end Sys2Proof.Machine

/-! The size of every event (20_memory.md R62, R67, 30_encoding.md R93): payloads of 20 bytes in, payloads of 20 bytes out. -/

namespace Sys2Proof.Machine

/-! ## The operands -/

/-- Every decoded command is well-formed: its operand has the length R83 gives its opcode. -/
theorem wf_of_decode {c : Command} {i : Instr} (h : decode c = .ok i) : i.wf = true := by
  obtain ⟨o, -, -, -, -, hlen, rfl⟩ := decode_eq_ok.1 h
  have hpkt : c.opnd.length = 32 → (packetOfBytes c.opnd).wf = true := fun h32 => (packetLayout.2 _ h32).1
  cases o with
  | nop => rfl
  | aInit => rfl
  | aSubmit => exact beq_iff_eq.2 hlen
  | aAckIn => exact hpkt hlen
  | aTimeout => rfl
  | bInit => rfl
  | bPktIn => exact hpkt hlen
  | chkEval => exact hpkt hlen
  | regRead => rfl

/-! ## The slot arrays -/

/-- Every packet of A.WBUF has 20 payload bytes. -/
def Sender.PayloadsOk (a : Sender) : Prop := ∀ p, p ∈ a.wbuf → p.payload.length = Config.payloadLen

/-- Every slot of B.RBUF has 20 payload bytes. -/
def Receiver.PayloadsOk (b : Receiver) : Prop := ∀ sl, sl ∈ b.rbuf → sl.payload.length = Config.payloadLen

theorem State.payloadsOk_iff {s : State} : s.PayloadsOk ↔ s.a.PayloadsOk ∧ s.b.PayloadsOk := Iff.rfl

/-- What holds of a list's elements and of the default holds of every element read from it. -/
theorem forall_getD {α : Type} {P : α → Prop} {l : List α} {d : α} (hl : ∀ x, x ∈ l → P x) (hd : P d) (k : Nat) : P (l.getD k d) := by
  rw [List.getD_eq_getElem?_getD]
  cases h : l[k]? with
  | none => exact hd
  | some x => exact hl x (List.mem_of_getElem? h)

/-- A write keeps what holds of a list's elements and of the element written. -/
theorem forall_mem_set {α : Type} {P : α → Prop} {l : List α} {x : α} (hl : ∀ y, y ∈ l → P y) (hx : P x) (k : Nat) :
    ∀ y, y ∈ l.set k x → P y := by
  intro y hy
  rcases List.mem_or_eq_of_mem_set hy with h | rfl
  · exact hl y h
  · exact hx

theorem Sender.packet_payload {a : Sender} (h : a.PayloadsOk) (k : Nat) : (a.packet k).payload.length = Config.payloadLen :=
  forall_getD (P := fun p : Packet => p.payload.length = Config.payloadLen) h rfl k

theorem Receiver.slot_payload {b : Receiver} (h : b.PayloadsOk) (k : Nat) : (b.slot k).payload.length = Config.payloadLen :=
  forall_getD (P := fun sl : Slot => sl.payload.length = Config.payloadLen) h rfl k

theorem Sender.insert_payloadsOk {a : Sender} {p : Packet} (h : a.PayloadsOk) (hp : p.payload.length = Config.payloadLen) (w s : Nat) :
    (a.insert w s p).PayloadsOk :=
  forall_mem_set h hp _

theorem Sender.afterAck_payloadsOk {a : Sender} (h : a.PayloadsOk) (w : Nat) (n : Word) : (a.afterAck w n).1.PayloadsOk := by
  unfold Sender.PayloadsOk
  rw [(Sender.afterAck_frame a w n).1]
  exact h

theorem Receiver.store_payloadsOk {b : Receiver} {d : Payload} (h : b.PayloadsOk) (hd : d.length = Config.payloadLen) (k seq : Nat) :
    (b.store k seq d).PayloadsOk :=
  forall_mem_set h hd _

theorem Receiver.pop_payloadsOk {b : Receiver} (h : b.PayloadsOk) (s k : Nat) : (b.pop s k).PayloadsOk := by
  have hk : ({ b.slot k with valid := false } : Slot).payload.length = Config.payloadLen := Receiver.slot_payload h k
  exact forall_mem_set (P := fun sl : Slot => sl.payload.length = Config.payloadLen) h hk k

theorem Receiver.init_payloadsOk {b : Receiver} (h : b.PayloadsOk) (x : BitVec 1) : (b.init x).PayloadsOk :=
  List.forall_mem_map.2 h

/-- A drain keeps the payloads and delivers payloads of 20 bytes only. -/
theorem Receiver.drain_payloadsOk {s : Nat} : ∀ {n : Nat} {b : Receiver}, b.PayloadsOk →
    (Receiver.drain s n b).1.PayloadsOk ∧ ∀ d, d ∈ (Receiver.drain s n b).2 → d.length = Config.payloadLen
  | 0, b, h => ⟨h, fun d hd => absurd hd List.not_mem_nil⟩
  | n + 1, b, h => by
    cases hf : b.findExpected with
    | none =>
      rw [Receiver.drain_of_none hf]
      exact ⟨h, fun d hd => absurd hd List.not_mem_nil⟩
    | some k =>
      rw [Receiver.drain_of_some hf]
      obtain ⟨hb, hds⟩ := Receiver.drain_payloadsOk (s := s) (n := n) (Receiver.pop_payloadsOk h s k)
      exact ⟨hb, List.forall_mem_cons.2 ⟨Receiver.slot_payload h k, hds⟩⟩

theorem Receiver.deliverAndDrain_payloadsOk {b : Receiver} {d : Payload} (h : b.PayloadsOk) (hd : d.length = Config.payloadLen) (s : Nat) :
    (b.deliverAndDrain s d).1.PayloadsOk ∧ ∀ x, x ∈ (b.deliverAndDrain s d).2 → x.length = Config.payloadLen := by
  obtain ⟨hb, hds⟩ := Receiver.drain_payloadsOk (s := s) (n := b.rbuf.length) (b := b.advance s) h
  exact ⟨hb, List.forall_mem_cons.2 ⟨hd, hds⟩⟩

/-! ## The events -/

/-- The payload an event carries, within a packet or alone, has 20 bytes. -/
def Event.PayloadOk : Event → Prop
  | .txA p => p.payload.length = Config.payloadLen
  | .txB p => p.payload.length = Config.payloadLen
  | .deliver d => d.length = Config.payloadLen
  | .tmrStart _ => True
  | .tmrStop => True

/-- Every event of a list carries 20 payload bytes, if any. -/
def EventsOk (evs : List Event) : Prop := ∀ e, e ∈ evs → e.PayloadOk

theorem eventsOk_nil : EventsOk [] := List.forall_mem_nil _

theorem eventsOk_cons {e : Event} {evs : List Event} (he : e.PayloadOk) (h : EventsOk evs) : EventsOk (e :: evs) :=
  List.forall_mem_cons.2 ⟨he, h⟩

theorem eventsOk_append {xs ys : List Event} (hx : EventsOk xs) (hy : EventsOk ys) : EventsOk (xs ++ ys) :=
  List.forall_mem_append.2 ⟨hx, hy⟩

theorem eventsOk_stopEvents (armed : Bool) : EventsOk (stopEvents armed) := by
  cases armed
  · exact eventsOk_nil
  · exact eventsOk_cons trivial eventsOk_nil

theorem eventsOk_startEvents (par : Params) (start : Bool) : EventsOk (startEvents par start) := by
  cases start
  · exact eventsOk_nil
  · exact eventsOk_cons trivial eventsOk_nil

theorem eventsOk_resent {a : Sender} (h : a.PayloadsOk) (l : List Nat) : EventsOk (l.map (fun k => Event.txA (a.packet k))) :=
  List.forall_mem_map.2 (fun k _ => Sender.packet_payload h k)

theorem eventsOk_deliveries {ds : List Payload} (h : ∀ d, d ∈ ds → d.length = Config.payloadLen) : EventsOk (ds.map Event.deliver) :=
  List.forall_mem_map.2 h

/-- The acknowledgment carries 20 bytes of ACK_FILL (R172). -/
theorem payloadOk_ack (par : Params) (n : BitVec 1) (q : Word) : (Event.txB (ackPacket par n q)).PayloadOk := List.length_replicate

/-! ## Every command -/

/-- A command goes on with stored payloads of 20 bytes and one reply whose events carry 20 payload bytes, if any. -/
def KeepsPayloads (i : Instr) (s : State) : Prop :=
  ∃ t r, exec i s = .next t ∧ t.replies = s.replies ++ [r] ∧ t.PayloadsOk ∧ EventsOk r.events

theorem exec_aSubmit_payloads {s : State} {m : Message} (hm : m.length = Config.payloadLen) (h : s.PayloadsOk) :
    KeepsPayloads (.aSubmit m) s := by
  by_cases hc : s.a.windowcount = s.par.w
  · exact ⟨_, _, exec_aSubmit_full hc, rfl, h, eventsOk_nil⟩
  · obtain ⟨ha, hb⟩ := State.payloadsOk_iff.1 h
    have hp : (dataPacket s.par s.a.nextseqnum m).payload.length = Config.payloadLen := hm
    exact ⟨_, _, exec_aSubmit_room hc, rfl, ⟨Sender.insert_payloadsOk ha hp _ _, hb⟩, eventsOk_cons hp (eventsOk_startEvents _ _)⟩

theorem exec_aAckIn_payloads {s : State} (p : Packet) (h : s.PayloadsOk) : KeepsPayloads (.aAckIn p) s := by
  cases hcor : corrupt s.par p with
  | true => exact ⟨_, _, exec_aAckIn_corrupt hcor, rfl, h, eventsOk_nil⟩
  | false =>
    obtain ⟨ha, hb⟩ := State.payloadsOk_iff.1 h
    exact ⟨_, _, exec_aAckIn_valid hcor, rfl, ⟨Sender.afterAck_payloadsOk ha _ _, hb⟩,
      eventsOk_append (eventsOk_stopEvents _) (eventsOk_startEvents _ _)⟩

theorem exec_aTimeout_payloads {s : State} (h : s.PayloadsOk) : KeepsPayloads .aTimeout s := by
  cases harm : s.tmrArmed with
  | false => exact ⟨_, _, exec_aTimeout_idle harm, rfl, h, eventsOk_nil⟩
  | true =>
    exact ⟨_, _, exec_aTimeout_armed harm, rfl, h, eventsOk_append (eventsOk_resent h.1 _) (eventsOk_startEvents _ _)⟩

theorem exec_bPktIn_payloads {s : State} {p : Packet} (hp : p.payload.length = Config.payloadLen) (h : s.PayloadsOk) :
    KeepsPayloads (.bPktIn p) s := by
  obtain ⟨ha, hb⟩ := State.payloadsOk_iff.1 h
  have htog : s.b.toggled.PayloadsOk := hb
  have hack := eventsOk_cons (payloadOk_ack s.par s.b.nextackseq p.seqnum) eventsOk_nil
  rcases bPktIn_cases s p with hcor | ⟨hcor, hout | ⟨hr, hexp | ⟨hne, hoff, hnone | ⟨k, hk⟩⟩⟩⟩
  · exact ⟨_, _, exec_bPktIn_corrupt hcor, rfl, h, eventsOk_nil⟩
  · exact ⟨_, _, exec_bPktIn_outside hcor hout, rfl, ⟨ha, htog⟩, hack⟩
  · obtain ⟨hb', hds⟩ := Receiver.deliverAndDrain_payloadsOk htog hp s.par.s
    exact ⟨_, _, exec_bPktIn_expected hcor hr hexp, rfl, ⟨ha, hb'⟩, eventsOk_cons (payloadOk_ack ..) (eventsOk_deliveries hds)⟩
  · exact ⟨_, _, exec_bPktIn_drop hcor hr hne hoff hnone, rfl, ⟨ha, htog⟩, hack⟩
  · exact ⟨_, _, exec_bPktIn_store hcor hr hne hoff hk, rfl, ⟨ha, Receiver.store_payloadsOk htog hp _ _⟩, hack⟩

theorem exec_payloads {s : State} {i : Instr} (hwf : i.wf = true) (h : s.PayloadsOk) : KeepsPayloads i s := by
  cases i with
  | nop => exact ⟨_, _, rfl, rfl, h, eventsOk_nil⟩
  | aInit => exact ⟨_, _, rfl, rfl, h, eventsOk_stopEvents _⟩
  | aSubmit m => exact exec_aSubmit_payloads (beq_iff_eq.1 hwf) h
  | aAckIn p => exact exec_aAckIn_payloads p h
  | aTimeout => exact exec_aTimeout_payloads h
  | bInit => exact ⟨_, _, rfl, rfl, ⟨h.1, Receiver.init_payloadsOk h.2 _⟩, eventsOk_nil⟩
  | bPktIn p => exact exec_bPktIn_payloads (beq_iff_eq.1 hwf) h
  | chkEval p => exact ⟨_, _, rfl, rfl, h, eventsOk_nil⟩
  | regRead idx =>
    obtain ⟨e, st, d, he⟩ := exec_regRead_next idx s
    exact ⟨_, _, he, rfl, h, eventsOk_nil⟩

/-- Every step keeps the stored payloads at 20 bytes, and the events of the reply it adds, if it adds one, carry 20 payload bytes, if any. -/
theorem step_payloads {s t : State} (h : s.PayloadsOk) (hs : step s = .next t) :
    t.PayloadsOk ∧ ∀ r, t.replies = s.replies ++ [r] → EventsOk r.events := by
  rcases step_cases s with ⟨-, he⟩ | ⟨rest, -, he⟩ | ⟨c, rest, i, -, hd, he⟩ | ⟨c, rest, e, -, -, he⟩ <;> rw [he] at hs
  · cases hs
    exact ⟨h, fun r hr => absurd hr (by simp)⟩
  · cases hs
    exact ⟨State.resetWith_payloadsOk s.par, fun r hr => absurd hr (by simp)⟩
  · obtain ⟨t', r', hnext, hr', hpay, hevs⟩ := exec_payloads (s := s.taken rest) (wf_of_decode hd) h
    rw [hnext] at hs
    cases hs
    refine ⟨hpay, fun r hr => ?_⟩
    obtain rfl : r' = r := by simpa using hr'.symm.trans hr
    exact hevs
  · cases hs
    refine ⟨h, fun r hr => ?_⟩
    obtain rfl : _ = r := List.singleton_inj.1 (List.append_cancel_left hr)
    exact eventsOk_nil

/-- Settles O53: an event whose payload has 20 bytes has the size R67 gives its kind, and no step emits another. -/
theorem everyEventHasItsSize : Obligations.EveryEventHasItsSize := by
  intro s t h hs
  obtain ⟨hpay, hevs⟩ := step_payloads h hs
  refine ⟨hpay, fun r hr e he => ?_⟩
  have hok := hevs r hr e he
  have hpkt : ∀ p : Packet, p.payload.length = Config.payloadLen → (bytesOfPacket p).length = 32 := fun p hp =>
    (bytesOfPacket_length p).trans (congrArg (12 + ·) hp)
  cases e with
  | txA p => exact congrArg (· + 1) (hpkt p hok)
  | txB p => exact congrArg (· + 1) (hpkt p hok)
  | deliver d => exact congrArg (· + 1) hok
  | tmrStart n => rfl
  | tmrStop => rfl

end Sys2Proof.Machine

/-! The two engines share no state (20_memory.md R69, 60_exceptions.md R232). -/

namespace Sys2Proof.Machine

/-- A sender command writes neither the receiver nor CNT_DELIVERED, and acts alike whatever the receiver holds. -/
theorem exec_senderCommand {i : Instr} (hi : senderCommand i = true) (s : State) : ∃ t, exec i s = .next t ∧
    t.b = s.b ∧ t.cnt.delivered = s.cnt.delivered ∧ ∀ b', exec i { s with b := b' } = .next { t with b := b' } := by
  cases i with
  | aInit => exact ⟨_, rfl, rfl, rfl, fun _ => rfl⟩
  | aSubmit m =>
    by_cases hc : s.a.windowcount = s.par.w
    · exact ⟨_, exec_aSubmit_full hc, rfl, rfl, fun b' => exec_aSubmit_full (s := { s with b := b' }) hc⟩
    · exact ⟨_, exec_aSubmit_room hc, rfl, rfl, fun b' => exec_aSubmit_room (s := { s with b := b' }) hc⟩
  | aAckIn p =>
    cases hcor : corrupt s.par p with
    | true => exact ⟨_, exec_aAckIn_corrupt hcor, rfl, rfl, fun b' => exec_aAckIn_corrupt (s := { s with b := b' }) hcor⟩
    | false => exact ⟨_, exec_aAckIn_valid hcor, rfl, rfl, fun b' => exec_aAckIn_valid (s := { s with b := b' }) hcor⟩
  | aTimeout =>
    rcases Bool.eq_false_or_eq_true s.tmrArmed with harm | harm
    · exact ⟨_, exec_aTimeout_armed harm, rfl, rfl, fun b' => exec_aTimeout_armed (s := { s with b := b' }) harm⟩
    · exact ⟨_, exec_aTimeout_idle harm, rfl, rfl, fun b' => exec_aTimeout_idle (s := { s with b := b' }) harm⟩
  | nop => cases hi
  | bInit => cases hi
  | bPktIn p => cases hi
  | chkEval p => cases hi
  | regRead idx => cases hi

/-- B_PKT_IN writes the receiver and CNT_DELIVERED only, and acts alike whatever the sender and the timer record hold. -/
theorem exec_bPktIn_apart (s : State) (p : Packet) : ∃ t, exec (.bPktIn p) s = .next t ∧
    t.a = s.a ∧ t.tmrArmed = s.tmrArmed ∧ t.err = s.err ∧ t.cnt = { s.cnt with delivered := t.cnt.delivered } ∧
    ∀ a' armed', exec (.bPktIn p) { s with a := a', tmrArmed := armed' } = .next { t with a := a', tmrArmed := armed' } := by
  rcases bPktIn_cases s p with hcor | ⟨hcor, hout | ⟨hr, hexp | ⟨hne, hoff, hnone | ⟨k, hk⟩⟩⟩⟩
  · exact ⟨_, exec_bPktIn_corrupt hcor, rfl, rfl, rfl, rfl,
      fun a' armed' => exec_bPktIn_corrupt (s := { s with a := a', tmrArmed := armed' }) hcor⟩
  · exact ⟨_, exec_bPktIn_outside hcor hout, rfl, rfl, rfl, rfl,
      fun a' armed' => exec_bPktIn_outside (s := { s with a := a', tmrArmed := armed' }) hcor hout⟩
  · exact ⟨_, exec_bPktIn_expected hcor hr hexp, rfl, rfl, rfl, rfl,
      fun a' armed' => exec_bPktIn_expected (s := { s with a := a', tmrArmed := armed' }) hcor hr hexp⟩
  · exact ⟨_, exec_bPktIn_drop hcor hr hne hoff hnone, rfl, rfl, rfl, rfl,
      fun a' armed' => exec_bPktIn_drop (s := { s with a := a', tmrArmed := armed' }) hcor hr hne hoff hnone⟩
  · exact ⟨_, exec_bPktIn_store hcor hr hne hoff hk, rfl, rfl, rfl, rfl,
      fun a' armed' => exec_bPktIn_store (s := { s with a := a', tmrArmed := armed' }) hcor hr hne hoff hk⟩

/-- A receiver command writes the receiver and CNT_DELIVERED only, and acts alike whatever the sender and the timer record hold. -/
theorem exec_receiverCommand {i : Instr} (hi : receiverCommand i = true) (s : State) : ∃ t, exec i s = .next t ∧
    t.a = s.a ∧ t.tmrArmed = s.tmrArmed ∧ t.err = s.err ∧ t.cnt = { s.cnt with delivered := t.cnt.delivered } ∧
    ∀ a' armed', exec i { s with a := a', tmrArmed := armed' } = .next { t with a := a', tmrArmed := armed' } := by
  cases i with
  | bInit => exact ⟨_, rfl, rfl, rfl, rfl, rfl, fun _ _ => rfl⟩
  | bPktIn p => exact exec_bPktIn_apart s p
  | nop => cases hi
  | aInit => cases hi
  | aSubmit m => cases hi
  | aAckIn p => cases hi
  | aTimeout => cases hi
  | chkEval p => cases hi
  | regRead idx => cases hi

/-- Settles O56: each engine's commands, in every state, with whatever the other engine holds. -/
theorem enginesShareNoState : Obligations.EnginesShareNoState := by
  constructor
  · intro s t i hi he
    obtain ⟨t', he', h⟩ := exec_senderCommand hi s
    cases he.symm.trans he'
    exact h
  · intro s t i hi he
    obtain ⟨t', he', h⟩ := exec_receiverCommand hi s
    cases he.symm.trans he'
    exact h

end Sys2Proof.Machine

/-! Decoding and encoding are inverse to each other, and legality decides which command a step runs (30_encoding.md R80 to R88, R94). -/

namespace Sys2Proof.Machine

/-! ## The fields of a command (R81 to R85) -/

/-- The operand of a well-formed command has the length R83 gives its opcode. -/
theorem instrOperand_length {i : Instr} (h : i.wf = true) : (instrOperand i).length = opcodeLen (instrOpcode i) := by
  have hpkt : ∀ p : Packet, p.wf = true → (bytesOfPacket p).length = 32 := fun p hp =>
    (bytesOfPacket_length p).trans (congrArg (12 + ·) (beq_iff_eq.1 hp))
  cases i with
  | aSubmit m => exact beq_iff_eq.1 h
  | aAckIn p => exact hpkt p h
  | bPktIn p => exact hpkt p h
  | chkEval p => exact hpkt p h
  | nop => rfl
  | aInit => rfl
  | aTimeout => rfl
  | bInit => rfl
  | regRead idx => rfl

/-- REG is 0 on every command but REG_READ. -/
theorem instrReg_eq_zero (i : Instr) : instrOpcode i = .regRead ∨ instrReg i = 0#8 := by
  cases i with
  | regRead idx => exact .inl rfl
  | _ => exact .inr rfl

/-- A command is built again from its own fields. -/
theorem buildInstr_fields (i : Instr) : buildInstr (instrOpcode i) (instrReg i) (instrOperand i) = i := by
  cases i with
  | aAckIn p => exact congrArg Instr.aAckIn (packetOfBytes_bytesOfPacket p)
  | bPktIn p => exact congrArg Instr.bPktIn (packetOfBytes_bytesOfPacket p)
  | chkEval p => exact congrArg Instr.chkEval (packetOfBytes_bytesOfPacket p)
  | _ => rfl

@[simp] theorem instrOpcode_buildInstr (o : Opcode) (reg : Byte) (opnd : List Byte) : instrOpcode (buildInstr o reg opnd) = o := by
  cases o <;> rfl

theorem instrReg_buildInstr {o : Opcode} {reg : Byte} (h : o = .regRead ∨ reg = 0#8) (opnd : List Byte) :
    instrReg (buildInstr o reg opnd) = reg := by
  rcases h with rfl | rfl
  · rfl
  · cases o <;> rfl

theorem instrOperand_buildInstr {o : Opcode} {opnd : List Byte} (h : opnd.length = opcodeLen o) (reg : Byte) :
    instrOperand (buildInstr o reg opnd) = opnd := by
  have hnil : opnd.length = 0 → [] = opnd := fun h0 => (List.length_eq_zero_iff.1 h0).symm
  have hpkt : opnd.length = 32 → bytesOfPacket (packetOfBytes opnd) = opnd :=
    fun h32 => (packetLayout.2 opnd h32).2
  cases o with
  | aSubmit => rfl
  | aAckIn => exact hpkt h
  | bPktIn => exact hpkt h
  | chkEval => exact hpkt h
  | nop => exact hnil h
  | aInit => exact hnil h
  | aTimeout => exact hnil h
  | bInit => exact hnil h
  | regRead => exact hnil h

/-! ## The round trips -/

theorem decode_encode {i : Instr} (h : i.wf = true) : decode (encode i) = .ok i := by
  refine decode_eq_ok.2 ⟨instrOpcode i, (cwOpc_mkCw _ _).symm, cwRsv0_mkCw _ _, cwRsv1_mkCw _ _, ?_, instrOperand_length h, ?_⟩
  · exact (instrReg_eq_zero i).imp_right (cwReg_mkCw _ _).trans
  · show i = buildInstr (instrOpcode i) (cwReg (mkCw _ _)) (instrOperand i)
    rw [cwReg_mkCw, buildInstr_fields]

/-- The decoder on a command's bytes is the decoder on the command. -/
theorem decodeBytes_bytesOfCommand (c : Command) : decodeBytes (bytesOfCommand c) = decode c := by
  unfold decodeBytes
  rw [commandOfBytes_bytesOfCommand]

/-- Settles O2: the encoder writes each field where the decoder reads it, and a command is built from its fields. -/
theorem decodeOfEncodeIsIdentity : Obligations.DecodeOfEncodeIsIdentity :=
  fun _ h => ⟨decode_encode h, (decodeBytes_bytesOfCommand _).trans (decode_encode h)⟩

theorem encode_of_decode {c : Command} {i : Instr} (h : decode c = .ok i) : encode i = c := by
  obtain ⟨o, ho, h0, h1, hreg, hlen, rfl⟩ := decode_eq_ok.1 h
  unfold encode
  rw [instrOpcode_buildInstr, instrReg_buildInstr hreg, instrOperand_buildInstr hlen, ho, mkCw_of_fields h0 h1]

/-- Settles O3: the decoder leaves no field of a command it accepts unread or free. -/
theorem encodeOfDecodeIsIdentity : Obligations.EncodeOfDecodeIsIdentity :=
  fun _ _ h => ⟨wf_of_decode h, encode_of_decode h⟩

/-- Settles O1: the six accepted words are the encodings of their commands; the two refused ones are evaluated. -/
theorem writtenOutWordsDecode : Obligations.WrittenOutWordsDecode :=
  ⟨decode_encode (i := .nop) rfl, decode_encode (i := .aInit) rfl, decode_encode (i := .aSubmit (List.replicate 20 0x61#8)) rfl,
    decode_encode (i := .aAckIn ⟨0x00000001#32, 0x00000302#32, 0x800003C3#32, List.replicate 20 0x30#8⟩) rfl,
    decode_encode (i := .bInit) rfl, decode_encode (i := .regRead 0x13#8) rfl, rfl, rfl⟩

/-! ## Legality (R87) -/

/-- The nine assigned values are the opcodes' codes (R82). -/
theorem exists_opcode_of_mem {b : Byte} (h : b ∈ [0x00#8, 0x10#8, 0x11#8, 0x12#8, 0x13#8, 0x20#8, 0x21#8, 0x30#8, 0x40#8]) :
    ∃ o, opcodeCode o = b := by
  obtain ⟨o, -, ho⟩ := List.mem_map.1 (show b ∈ opcodeAll.map opcodeCode from h)
  exact ⟨o, ho⟩

/-- LEN as R83 words it is LEN of the opcode table. -/
theorem specLen_opcodeCode (o : Opcode) : specLen (opcodeCode o) = opcodeLen o := by
  cases o <;> rfl

theorem opcodeCode_eq_regRead {o : Opcode} (h : opcodeCode o = 0x40#8) : o = .regRead := by
  revert h
  cases o <;> decide

/-- The decoder accepts exactly the legal commands. -/
theorem decode_isOk_iff_legal (c : Command) : (∃ i, decode c = .ok i) ↔ LegalCommand c := by
  constructor
  · rintro ⟨i, hi⟩
    obtain ⟨o, ho, h0, h1, hreg, hlen, -⟩ := decode_eq_ok.1 hi
    have hlegal := legalCommand_mkCw hreg hlen
    rwa [ho, mkCw_of_fields h0 h1] at hlegal
  · rintro ⟨hopc, h0, h1, hreg, hlen⟩
    obtain ⟨o, ho⟩ := exists_opcode_of_mem hopc
    rw [← ho] at hreg hlen
    exact ⟨_, decode_eq_ok.2 ⟨o, ho, h0, h1, hreg.imp_left opcodeCode_eq_regRead, hlen.trans (specLen_opcodeCode o), rfl⟩⟩

/-! ## What a pending command runs (R80, R87) -/

theorem runCommand_of_ok {c : Command} {i : Instr} (h : decode c = .ok i) (s : State) : runCommand c s = exec i s := by
  unfold runCommand
  rw [h]

theorem runCommand_of_error {c : Command} {e : DecodeError} (h : decode c = .error e) (s : State) :
    runCommand c s = execIllegal s := by
  unfold runCommand
  rw [h]

/-- A step with a command pending runs that command. -/
theorem step_of_command {s : State} {c : Command} {rest : List Stimulus} (h : s.pending = .command c :: rest) :
    step s = runCommand c (s.taken rest) := by
  unfold step
  rw [h]
  rfl

/-- Settles O6: the decoder's checks are R87's, and what fails them runs R202's rule. -/
theorem legalityDecidesExecution : Obligations.LegalityDecidesExecution := by
  refine ⟨decode_isOk_iff_legal, fun s c rest hp hillegal => ?_⟩
  rw [step_of_command hp]
  cases hd : decode c with
  | ok i => exact absurd ((decode_isOk_iff_legal c).1 ⟨i, hd⟩) hillegal
  | error e => exact runCommand_of_error hd _

/-- Settles O7: the pending command is taken and run as what it decodes to. -/
theorem stepRunsTheDecodedCommand : Obligations.StepRunsTheDecodedCommand :=
  fun _ _ _ _ hp hd => (step_of_command hp).trans (runCommand_of_ok hd _)

/-- The table's word decodes as the transaction it is laid out to. -/
theorem decodeTableWord_eq_toOption (nbits w : Nat) : decodeTableWord nbits w = (decode (tableCommand nbits w)).toOption := by
  unfold decodeTableWord
  rw [decodeBytes_bytesOfCommand]
  cases decode (tableCommand nbits w) <;> rfl

/-- A step on a placed table word runs its transaction, with the queue behind it as before. -/
theorem step_withFetchWord (s : State) (nbits w : Nat) : step (s.withFetchWord nbits w) = runCommand (tableCommand nbits w) s := rfl

/-- Settles O5: the placed word is the next command, and what the decoder reads from it decides what runs. -/
theorem tableWordRunsNext : Obligations.TableWordRunsNext := by
  intro s nbits w
  rw [decodeTableWord_eq_toOption, step_withFetchWord]
  cases hd : decode (tableCommand nbits w) with
  | ok i => exact ⟨fun j hj => Option.some.inj hj ▸ runCommand_of_ok hd s, fun h => absurd h (by simp [Except.toOption])⟩
  | error e => exact ⟨fun j hj => absurd hj (by simp [Except.toOption]), fun _ => runCommand_of_error hd s⟩

end Sys2Proof.Machine

/-! The one reply of every command: its status code, its DATA word, its COUNT and its bytes (30_encoding.md R89 to R91). -/

namespace Sys2Proof.Machine

/-! ## What each command answers -/

/-- The statuses of a command (R90). -/
@[simp] def instrStatuses : Instr → List Status
  | .nop => [.ok]
  | .aInit => [.ok]
  | .aSubmit _ => [.ok, .windowFull]
  | .aAckIn _ => [.corrupt, .ackNew, .ackDup]
  | .aTimeout => [.ok, .errTimerIdle]
  | .bInit => [.ok]
  | .bPktIn _ => [.corrupt, .rxDelivered, .rxBuffered, .rxDropFull, .rxOutside]
  | .chkEval _ => [.ok, .corrupt]
  | .regRead _ => [.ok, .errBadReg]

/-- What COUNT counts, for a command that takes the block from `s` to `t` with the events `evs` (R91). -/
def instrCount (i : Instr) (s t : State) (evs : List Event) : Nat :=
  match i with
  | .nop => 0
  | .aInit => 0
  | .aSubmit _ => 0
  | .aAckIn _ => s.a.windowcount - t.a.windowcount
  | .aTimeout => (sentByA evs).length
  | .bInit => 0
  | .bPktIn _ => (deliveredPayloads evs).length
  | .chkEval _ => 0
  | .regRead _ => 0

/-- Whether a command's reply has a DATA word (R89). -/
def instrHasData (i : Instr) : Bool := decide (instrOpcode i = .chkEval ∨ instrOpcode i = .regRead)

theorem instrHasData_iff (i : Instr) : instrHasData i = true ↔ instrOpcode i = .chkEval ∨ instrOpcode i = .regRead :=
  decide_eq_true_iff

/-- ERR_BAD_REG is a status of REG_READ only, which has a DATA word. -/
theorem ne_errBadReg_of_noData {i : Instr} {st : Status} (hst : st ∈ instrStatuses i) (hi : instrHasData i = false) :
    st ≠ .errBadReg := by
  rintro rfl
  cases i with
  | regRead idx => cases hi
  | _ => simp at hst

/-- Command `i` takes the block from `s` to `t` and adds one reply with status `st`, count `n`, DATA `d` and the events `evs`, which are
what R89 to R91 say of that command. The bound on the count holds outside the invariants too. -/
structure Answers (i : Instr) (s t : State) (st : Status) (n : Nat) (d : Option Word) (evs : List Event) : Prop where
  next : exec i s = .next t
  reply : t.replies = s.replies ++ [⟨⟨responseWord st n, d⟩, evs⟩]
  status : st ∈ instrStatuses i
  data : d.isSome = instrHasData i
  badReg : st = .errBadReg → d = some 0#32
  count : n = instrCount i s t evs
  bound : n ≤ max s.a.windowcount (s.b.rbuf.length + 1)

/-- Some reply answers command `i` in state `s` as R89 to R91 say. -/
def Answered (i : Instr) (s : State) : Prop := ∃ t st n d evs, Answers i s t st n d evs

/-- A command that counts nothing and has no DATA word. -/
theorem Answered.of_zero {i : Instr} {s t : State} {st : Status} {evs : List Event} (hnext : exec i s = .next t)
    (hreply : t.replies = s.replies ++ [⟨⟨responseWord st 0, none⟩, evs⟩]) (hst : st ∈ instrStatuses i)
    (hi : instrHasData i = false) (hcount : instrCount i s t evs = 0) : Answered i s :=
  ⟨t, st, 0, none, evs, hnext, hreply, hst, hi.symm, fun h => absurd h (ne_errBadReg_of_noData hst hi), hcount.symm, Nat.zero_le _⟩

theorem answered_aSubmit (m : Message) (s : State) : Answered (.aSubmit m) s := by
  by_cases hc : s.a.windowcount = s.par.w
  · exact .of_zero (exec_aSubmit_full hc) rfl (by simp) rfl rfl
  · exact .of_zero (exec_aSubmit_room hc) rfl (by simp) rfl rfl

/-- A valid ack's count is the fall of windowcount, for a new one and for a duplicate. -/
theorem answered_aAckIn (p : Packet) (s : State) : Answered (.aAckIn p) s := by
  cases hcor : corrupt s.par p with
  | true => exact .of_zero (exec_aAckIn_corrupt hcor) rfl (by simp) rfl (Nat.sub_self _)
  | false =>
    obtain ⟨-, -, -, hfreed⟩ := Sender.afterAck_frame s.a s.par.w p.acknum
    refine ⟨_, _, _, _, _, exec_aAckIn_valid hcor, rfl, ?_, rfl, ?_, Nat.eq_sub_of_add_eq' hfreed,
      le_max_of_le_left (by omega)⟩ <;>
      cases (s.a.findUnacked s.par.w p.acknum).isSome <;> simp

theorem answered_aTimeout (s : State) : Answered .aTimeout s := by
  cases harm : s.tmrArmed with
  | false => exact .of_zero (exec_aTimeout_idle harm) rfl (by simp [errorStatus]) rfl rfl
  | true =>
    refine ⟨_, _, _, _, _, exec_aTimeout_armed harm, rfl, by simp, rfl, by decide, ?_,
      le_max_of_le_left (Sender.unackedSlots_length_le _ _)⟩
    show _ = (sentByA _).length
    rw [sentByA_retransmission, List.length_map]

/-- A packet delivers itself and at most one payload for each slot. -/
theorem Receiver.deliverAndDrain_length_le (b : Receiver) (s : Nat) (d : Payload) :
    (b.deliverAndDrain s d).2.length ≤ b.rbuf.length + 1 := by
  obtain ⟨-, -, hocc, -⟩ := Receiver.drain_frame (s := s) (n := b.rbuf.length) (b := b.advance s)
  have hle : occupancy (b.advance s) ≤ b.rbuf.length := occupancy_le_length _
  show (Receiver.drain s b.rbuf.length (b.advance s)).2.length + 1 ≤ _
  omega

theorem answered_bPktIn (p : Packet) (s : State) : Answered (.bPktIn p) s := by
  rcases bPktIn_cases s p with hcor | ⟨hcor, hout | ⟨hr, hexp | ⟨hne, hoff, hnone | ⟨k, hk⟩⟩⟩⟩
  · exact .of_zero (exec_bPktIn_corrupt hcor) rfl (by simp) rfl rfl
  · exact .of_zero (exec_bPktIn_outside hcor hout) rfl (by simp) rfl rfl
  · refine ⟨_, _, _, _, _, exec_bPktIn_expected hcor hr hexp, rfl, by simp, rfl, by decide, ?_,
      le_max_of_le_right (s.b.toggled.deliverAndDrain_length_le _ _)⟩
    show _ = (deliveredPayloads _).length
    rw [deliveredPayloads_ack_cons]
  · exact .of_zero (exec_bPktIn_drop hcor hr hne hoff hnone) rfl (by simp) rfl rfl
  · exact .of_zero (exec_bPktIn_store hcor hr hne hoff hk) rfl (by simp) rfl rfl

theorem answered_chkEval (p : Packet) (s : State) : Answered (.chkEval p) s := by
  refine ⟨_, _, _, _, _, rfl, rfl, ?_, rfl, ?_, rfl, Nat.zero_le _⟩ <;>
    cases corrupt s.par p <;> simp

theorem answered_regRead (idx : Byte) (s : State) : Answered (.regRead idx) s := by
  cases hv : regValue s idx.toNat with
  | some v => exact ⟨_, .ok, 0, some v, [], readsAs_of_regValue hv, rfl, by simp, rfl, nofun, rfl, Nat.zero_le _⟩
  | none => exact ⟨_, _, _, _, _, exec_regRead_unassigned hv, rfl, by simp [errorStatus], rfl, fun _ => rfl, rfl, Nat.zero_le _⟩

/-- Every command, in every state. -/
theorem exec_answered (i : Instr) (s : State) : Answered i s := by
  cases i with
  | nop => exact .of_zero rfl rfl (by simp) rfl rfl
  | aInit => exact .of_zero rfl rfl (by simp) rfl rfl
  | aSubmit m => exact answered_aSubmit m s
  | aAckIn p => exact answered_aAckIn p s
  | aTimeout => exact answered_aTimeout s
  | bInit => exact .of_zero rfl rfl (by simp) rfl rfl
  | bPktIn p => exact answered_bPktIn p s
  | chkEval p => exact answered_chkEval p s
  | regRead idx => exact answered_regRead idx s

/-! ## Status codes (R90) -/

/-- Settles O13: the codes of the statuses each command answers with; an illegal command raises its own. -/
theorem statusCodesByCommand : Obligations.StatusCodesByCommand := by
  refine ⟨fun s i => ?_, fun s => ⟨_, _, rfl, rfl, Reply.statusField_mk ..⟩⟩
  obtain ⟨t, st, n, d, evs, h⟩ := exec_answered i s
  refine ⟨t, _, h.next, h.reply, ?_⟩
  have hcode := List.mem_map_of_mem (f := statusCode) h.status
  rw [Reply.statusField_mk]
  cases i <;> exact hcode

/-! ## COUNT (R91) -/

/-- In a legal state COUNT's number is at most W + 1. -/
theorem Answers.count_le {i : Instr} {s t : State} {st : Status} {n : Nat} {d : Option Word} {evs : List Event}
    (h : Answers i s t st n d evs) (hinv : s.Inv) : n ≤ s.par.w + 1 := by
  obtain ⟨-, ⟨⟨-, -, -, -, hc, -⟩, -⟩, ⟨hl, -⟩, -⟩ := hinv
  exact h.bound.trans (max_le (by omega) (by omega))

/-- Settles O14: the number counted is at most W + 1, so its 8 bits hold it. -/
theorem countFieldCounts : Obligations.CountFieldCounts := by
  refine ⟨fun s i hinv => ?_, fun s => ⟨_, _, rfl, rfl, Reply.countField_mk ..⟩⟩
  obtain ⟨t, st, n, d, evs, h⟩ := exec_answered i s
  have hn := h.count_le hinv
  obtain ⟨⟨-, hw, -⟩, -⟩ := hinv
  have hfield : (Reply.countField ⟨⟨responseWord st n, d⟩, evs⟩).toNat = n := by
    rw [Reply.countField_mk, BitVec.toNat_ofNat, Nat.mod_eq_of_lt (by omega)]
  refine ⟨t, _, h.next, h.reply, hfield.trans_le hn, by omega, ?_⟩
  rw [hfield, h.count]
  cases i <;> rfl

/-! ## The reply of a pending command (R89) -/

/-- A pending command, legal or illegal, is answered with one reply, which has a DATA word exactly for a legal CHK_EVAL or REG_READ. -/
theorem step_reply {s : State} {c : Command} {rest : List Stimulus} (h : s.pending = .command c :: rest) :
    ∃ t st n d evs, step s = .next t ∧ t.replies = s.replies ++ [⟨⟨responseWord st n, d⟩, evs⟩] ∧
      (d.isSome = true ↔ ∃ i, decode c = .ok i ∧ (instrOpcode i = .chkEval ∨ instrOpcode i = .regRead)) ∧
      (st = .errBadReg → d = some 0#32) := by
  rw [step_of_command h]
  cases hd : decode c with
  | ok i =>
    obtain ⟨t, st, n, d, evs, ha⟩ := exec_answered i (s.taken rest)
    exact ⟨t, st, n, d, evs, (runCommand_of_ok hd _).trans ha.next, ha.reply, by simp [ha.data, instrHasData_iff], ha.badReg⟩
  | error e => exact ⟨_, _, _, _, _, runCommand_of_error hd _, rfl, by simp, by decide⟩

/-- RSP's bytes: STATUS, COUNT and two zeros. -/
theorem bytesOfWord_responseWord (st : Status) (n : Nat) :
    bytesOfWord (responseWord st n) = [statusCode st, BitVec.ofNat 8 n, 0#8, 0#8] := by
  have h : responseWord st n = wordOfBytes (statusCode st) (BitVec.ofNat 8 n) 0#8 0#8 := rfl
  simp [h, bytesOfWord]

/-- Settles O12: every pending command has its one reply, and the bytes are those of its words. -/
theorem exactlyOneResponsePerCommand : Obligations.ExactlyOneResponsePerCommand := by
  intro s c rest hp
  obtain ⟨t, st, n, d, evs, hs, hr, hdata, hbad⟩ := step_reply hp
  refine ⟨t, _, hs, hr, responseWord_upper st n, hdata, fun hcode => ?_, fun hnone => ?_, fun x hx => ?_⟩
  · rw [Reply.statusField_mk] at hcode
    exact hbad (statusCode_injective hcode)
  · obtain rfl : d = none := hnone
    rw [Reply.statusField_mk, Reply.countField_mk]
    exact bytesOfWord_responseWord st n
  · obtain rfl : d = some x := hx
    rw [Reply.statusField_mk, Reply.countField_mk]
    exact congrArg (· ++ bytesOfWord x) (bytesOfWord_responseWord st n)

end Sys2Proof.Machine

/-! The pseudo-commands of 30_encoding.md R95 and R96 as the engines' packets. -/

namespace Sys2Proof.Machine

/-- `<pkt>` with chk=auto, ack=NOTINUSE and a message is A_SUBMIT's packet (R131). -/
theorem packetOfArg_data (par : Params) (s : Nat) (m : Message) :
    packetOfArg par ⟨s, .notInUse, .auto, .message m⟩ = dataPacket par s m := by
  simp [packetOfArg, dataPacket]

/-- `<pkt>` with chk=auto, pay=fill and the ack bit as its seq is B_PKT_IN's acknowledgment (R172). -/
theorem packetOfArg_ack (par : Params) (n : Int) (q : BitVec 1) :
    packetOfArg par ⟨q.toNat, .value n, .auto, .fill⟩ = ackPacket par q (BitVec.ofInt 32 n) := by
  have hseq : BitVec.ofInt 32 (q.toNat : Int) = q.setWidth 32 :=
    (BitVec.ofInt_natCast 32 q.toNat).trans (BitVec.ofNat_toNat 32 q)
  simp only [packetOfArg, ackPacket, hseq]

/-- `<pkt>` with chk=bad is corrupt, whatever its other fields (R95). -/
theorem corrupt_packetOfArg_bad (par : Params) (seq : Int) (ack : AckArg) (pay : PayArg) :
    corrupt par (packetOfArg par ⟨seq, ack, .bad, pay⟩) = true :=
  corrupt_off_by_one par _

/-- Settles O48: each pseudo-command stands for its command with the packet of one of the forms above. -/
theorem pseudoCommandsBuildTheEnginesPackets : Obligations.PseudoCommandsBuildTheEnginesPackets :=
  fun par s m n q => ⟨congrArg (fun p => [Instr.bPktIn p]) (packetOfArg_data par s m),
    congrArg (fun p => [Instr.aAckIn p]) (packetOfArg_ack par n q),
    ⟨_, rfl, corrupt_packetOfArg_bad par s .notInUse (.message m)⟩,
    ⟨_, rfl, corrupt_packetOfArg_bad par 0 (.value n) .fill⟩, rfl⟩

end Sys2Proof.Machine

/-! The checksum unit: the sum in 32-bit words, what it detects, and the commands that read the verdict (40_integrity.md R110 to R115). -/

namespace Sys2Proof.Machine

/-! ## The sum in 32-bit words (R110) -/

/-- The payload's share of the checksum, summed as 32-bit words. -/
theorem ofInt_sum_byteval (signed : Bool) (l : List Byte) :
    BitVec.ofInt 32 (l.map (byteval signed)).sum = (l.map (byteWord signed)).sum := by
  rw [ofInt_list_sum, List.map_map]
  exact congrArg List.sum (List.map_congr_left fun b _ => ofInt_byteval signed b)

theorem checksum_eq_wordSum (par : Params) (p : Packet) :
    checksum par p = p.seqnum + p.acknum + (p.payload.map (byteWord par.chkByteSigned)).sum := by
  simp only [checksum, BitVec.ofInt_add, BitVec.ofInt_toInt, ofInt_sum_byteval]

/-- Settles O16: narrowing commutes with the sums, and the checksum field is not a summand. -/
theorem checksumIsTheWrappingSum : Obligations.ChecksumIsTheWrappingSum :=
  fun par p => ⟨checksum_eq_wordSum par p, fun _ => rfl⟩

/-! ## What the sum sees (R115) -/

/-- A packet with a valid packet's checksum field and another sum is corrupt. -/
theorem corrupt_of_checksum_ne {par : Params} {p q : Packet} (hp : corrupt par p = false) (hf : q.checksum = p.checksum)
    (h : checksum par q ≠ checksum par p) : corrupt par q = true := by
  rw [corrupt_eq_true, hf, corrupt_eq_false.1 hp]
  exact h.symm

/-- A packet with a valid packet's checksum field and its sum is valid. -/
theorem valid_of_checksum_eq {par : Params} {p q : Packet} (hp : corrupt par p = false) (hf : q.checksum = p.checksum)
    (h : checksum par q = checksum par p) : corrupt par q = false := by
  rw [corrupt_eq_false, hf, corrupt_eq_false.1 hp, h]

theorem checksum_seqnum_inj {par : Params} {p : Packet} {x : Word}
    (h : checksum par { p with seqnum := x } = checksum par p) : x = p.seqnum := by
  simpa only [checksum_eq_wordSum, BitVec.add_left_inj] using h

theorem checksum_acknum_inj {par : Params} {p : Packet} {x : Word}
    (h : checksum par { p with acknum := x } = checksum par p) : x = p.acknum := by
  simpa only [checksum_eq_wordSum, BitVec.add_left_inj, BitVec.add_right_inj] using h

/-- One byte of the payload replaced: all other shares cancel, and distinct bytes have distinct shares. -/
theorem checksum_byte_inj {par : Params} {p : Packet} {l1 l2 : List Byte} {b b' : Byte} (hpay : p.payload = l1 ++ b :: l2)
    (h : checksum par { p with payload := l1 ++ b' :: l2 } = checksum par p) : b' = b := by
  simp only [checksum_eq_wordSum, hpay, List.map_append, List.map_cons, List.sum_append, List.sum_cons,
    BitVec.add_left_inj, BitVec.add_right_inj] at h
  exact byteWord_inj h

/-- Integer sums congruent modulo 2^32 give one checksum. -/
theorem checksum_congr {par : Params} {p q : Packet}
    (h : (q.seqnum.toInt + q.acknum.toInt + (q.payload.map (byteval par.chkByteSigned)).sum) % 2 ^ 32 =
      (p.seqnum.toInt + p.acknum.toInt + (p.payload.map (byteval par.chkByteSigned)).sum) % 2 ^ 32) :
    checksum par q = checksum par p :=
  BitVec.eq_of_toNat_eq (congrArg Int.toNat h)

theorem checksum_payload_perm {par : Params} {p : Packet} {d : Message} (h : d.Perm p.payload) :
    checksum par { p with payload := d } = checksum par p := by
  simp only [checksum, (h.map _).sum_eq]

/-- One word up by one and the other down by one cancel. -/
theorem checksum_shift_one (par : Params) (p : Packet) :
    checksum par { p with seqnum := p.seqnum + 1#32, acknum := p.acknum - 1#32 } = checksum par p := by
  have hpair : p.seqnum + 1#32 + (p.acknum - 1#32) = p.seqnum + p.acknum := by bv_omega
  simp only [checksum_eq_wordSum, hpair]

/-- Settles O17: a single change moves the sum or the field it is compared with; the others leave both. -/
theorem checksumDetectionLaw : Obligations.ChecksumDetectionLaw := by
  intro par p hp
  refine ⟨fun x hx => ?_, fun x hx => ?_, fun x hx => ?_, fun l1 l2 b b' hpay hb => ?_, fun q hf hsum => ?_, fun d hd => ?_, ?_⟩
  · exact corrupt_of_checksum_ne hp rfl fun h => hx (checksum_seqnum_inj h)
  · exact corrupt_of_checksum_ne hp rfl fun h => hx (checksum_acknum_inj h)
  · exact corrupt_eq_true.2 fun h => hx (h.trans (corrupt_eq_false.1 hp).symm)
  · exact corrupt_of_checksum_ne hp rfl fun h => hb (checksum_byte_inj hpay h)
  · exact valid_of_checksum_eq hp hf (checksum_congr hsum)
  · exact valid_of_checksum_eq hp rfl (checksum_payload_perm hd)
  · exact valid_of_checksum_eq hp rfl (checksum_shift_one par p)

/-! ## The verdict read by commands (R113, R114) -/

theorem exec_chkEval (s : State) (p : Packet) : exec (.chkEval p) s =
    .next (s.respond (if corrupt s.par p then .corrupt else .ok) 0 (some (checksum s.par p)) []) := rfl

/-- A reply with COUNT 0 and no event is the bare status code in RSP (R89). -/
theorem State.respond_eq_answered (s : State) (st : Status) (d : Option Word) :
    s.respond st 0 d [] = s.answered ((statusCode st).zeroExtend 32) d := by
  have hrsp : responseWord st 0 = (statusCode st).zeroExtend 32 := by cases st <;> rfl
  rw [State.respond, hrsp]
  rfl

/-- Settles O18: by the verdict on the packet. -/
theorem chkEvalReportsTheChecksum : Obligations.ChkEvalReportsTheChecksum := by
  intro s p
  rw [exec_chkEval, State.respond_eq_answered]
  cases hcor : corrupt s.par p with
  | true => rw [if_neg (corrupt_eq_true.1 hcor)]; rfl
  | false => rw [if_pos (corrupt_eq_false.1 hcor)]; rfl

/-- Settles O19: both packet commands answer a corrupted packet with CORRUPT alone. -/
theorem corruptedPacketsAreIgnored : Obligations.CorruptedPacketsAreIgnored := by
  intro s p hcor
  rw [exec_aAckIn_corrupt hcor, exec_bPktIn_corrupt hcor, State.respond_eq_answered]
  exact ⟨rfl, rfl⟩

end Sys2Proof.Machine

/-! Sender engine A: the window after each of its commands, the front-collapse law, the timer's retransmissions (41_sender.md R130 to R137). -/

namespace Sys2Proof.Machine

/-! ## Stops and starts of the timer (R131, R132, R134) -/

theorem startEvents_decide (par : Params) (q : Prop) [Decidable q] :
    startEvents par (decide q) = if q then [.tmrStart par.rtt] else [] :=
  if_congr decide_eq_true_iff rfl rfl

/-- The timer is started by the first packet into an empty window. -/
theorem submit_events (par : Params) (c : Nat) (p : Packet) : Event.txA p :: startEvents par (decide (c + 1 = 1)) =
    if c = 0 then [.txA p, .tmrStart par.rtt] else [.txA p] := by
  rw [startEvents_decide]
  by_cases hc : c = 0 <;> simp [hc]

/-- The running timer is stopped, and started again where it is still needed. -/
theorem stop_start_events (par : Params) (start : Bool) : stopEvents true ++ startEvents par start =
    if start then [.tmrStop, .tmrStart par.rtt] else [.tmrStop] := by
  cases start <;> rfl

/-- The timer is restarted where it runs, and left alone where it does not. -/
theorem restart_events (par : Params) (armed : Bool) : stopEvents armed ++ startEvents par armed =
    if armed then [.tmrStop, .tmrStart par.rtt] else [] := by
  cases armed <;> rfl

/-! ## A_INIT (R130) -/

/-- Settles O20: the record A_INIT writes, field by field. -/
theorem aInitResetsTheSender : Obligations.AInitResetsTheSender := fun _ => rfl

/-! ## A_SUBMIT (R131) -/

/-- Settles O21: the full-window branch of A_SUBMIT. -/
theorem submitToAFullWindowIsRejected : Obligations.SubmitToAFullWindowIsRejected :=
  fun _ _ hfull => exec_aSubmit_full hfull

/-- A write inside a list, read back. -/
theorem getD_set_of_lt {α : Type} {l : List α} {j : Nat} (hj : j < l.length) (k : Nat) (x d : α) :
    (l.set j x).getD k d = if k = j then x else l.getD k d := by
  simp only [getD_set, hj, and_true]

/-- The insertion writes one slot of A.WBUF. -/
theorem Sender.insert_packet {a : Sender} {w : Nat} (hw : 0 < w) (hl : a.wbuf.length = w) (s : Nat) (p : Packet) (k : Nat) :
    (a.insert w s p).packet k = if k = (a.windowlast + 1) % w then p else a.packet k :=
  getD_set_of_lt ((Nat.mod_lt _ hw).trans_eq hl.symm) k p _

/-- The insertion clears one flag. -/
theorem Sender.insert_acked {a : Sender} {w : Nat} (hw : 0 < w) (hl : a.ack.length = w) (s : Nat) (p : Packet) (k : Nat) :
    (a.insert w s p).acked k = if k = (a.windowlast + 1) % w then false else a.acked k :=
  getD_set_of_lt ((Nat.mod_lt _ hw).trans_eq hl.symm) k false _

/-- A sealed packet carries the checksum of itself: the sum does not read the checksum field (R110). -/
theorem dataPacket_eq (par : Params) (seq : Nat) (m : Message) : dataPacket par seq m =
    ⟨BitVec.ofNat 32 seq, par.notInUse, checksum par (dataPacket par seq m), m⟩ := rfl

/-- Settles O22: the insertion writes the one slot it names, and the timer starts where `submit_events` says. -/
theorem submitStoresAndTransmits : Obligations.SubmitStoresAndTransmits := by
  intro s m hroom hw hwbuf hack
  refine ⟨_, _, exec_aSubmit_room hroom, dataPacket_eq _ _ m, rfl, ?_, ?_, fun k hk => ⟨?_, ?_⟩, rfl, rfl, rfl, ?_, ?_, rfl, rfl, rfl,
    rfl, rfl⟩
  · exact (Sender.insert_packet hw hwbuf _ _ _).trans (if_pos rfl)
  · exact (Sender.insert_acked hw hack _ _ _).trans (if_pos rfl)
  · exact (Sender.insert_packet hw hwbuf _ _ k).trans (if_neg hk)
  · exact (Sender.insert_acked hw hack _ _ k).trans (if_neg hk)
  · simp
  · rw [← submit_events]
    rfl

/-! ## The mark and the slide of A_ACK_IN (R132, R133) -/

theorem Sender.marked_of_miss {a : Sender} {w : Nat} {n : Word} (h : a.findUnacked w n = none) : a.marked w n = a := by
  rw [Sender.marked, h]

theorem Sender.marked_of_hit {a : Sender} {w k : Nat} {n : Word} (h : a.findUnacked w n = some k) :
    a.marked w n = a.markAcked k := by
  rw [Sender.marked, h]

/-- The mark sets one flag. -/
theorem Sender.markAcked_acked {a : Sender} {j : Nat} (hj : j < a.ack.length) (k : Nat) :
    (a.markAcked j).acked k = if k = j then true else a.acked k :=
  getD_set_of_lt hj k true _

@[simp] theorem Sender.markAcked_windowcount (a : Sender) (j : Nat) : (a.markAcked j).windowcount = a.windowcount := rfl
@[simp] theorem Sender.markAcked_wslot (a : Sender) (j w i : Nat) : (a.markAcked j).wslot w i = a.wslot w i := rfl

/-- The scan finds an unacked live entry exactly where one has the ack's number (R137). -/
theorem Sender.findUnacked_isSome_iff {a : Sender} {w : Nat} {n : Word} : (a.findUnacked w n).isSome = true ↔
    ∃ i, i < a.windowcount ∧ a.acked (a.wslot w i) = false ∧ (a.packet (a.wslot w i)).seqnum = n := by
  rw [Sender.findUnacked_isSome]
  simp

/-- An ack that marks an entry other than the front, or none, frees nothing. -/
theorem Sender.afterAck_of_front_unacked {a : Sender} {w s : Nat} {n : Word} (h : a.Inv w s)
    (hfront : a.findUnacked w n ≠ some a.windowfirst) : a.afterAck w n = (a.marked w n, 0) := by
  obtain ⟨⟨-, hl, hf, -⟩, -, -, -, hunacked⟩ := h
  apply Sender.slide_of_front_unacked
  cases hfind : a.findUnacked w n with
  | none =>
    rw [Sender.marked_of_miss hfind]
    exact hunacked
  | some k =>
    have hne : a.windowfirst ≠ k := fun he => hfront (he ▸ hfind)
    obtain ⟨i, -, rfl, -⟩ := Sender.findUnacked_some hfind
    rw [Sender.marked_of_hit hfind, Sender.markAcked_acked ((Sender.wslot_lt (Nat.zero_lt_of_lt hf) i).trans_eq hl.symm)]
    exact fun hc => (if_neg hne).trans (hunacked hc)

/-- An ack that marks the front frees the longest run of entries from the front that were acked, the front's own flag set (R133). -/
theorem Sender.afterAck_of_front {a : Sender} {w s : Nat} {x : Word} (h : a.Inv w s) (hc : 0 < a.windowcount)
    (hfront : a.findUnacked w x = some a.windowfirst) : ∃ b n, a.afterAck w x = (b, n) ∧ 0 < n ∧ n ≤ a.windowcount ∧
      (∀ j, 0 < j → j < n → a.acked (a.wslot w j) = true) ∧
      (n < a.windowcount → a.acked (a.wslot w n) = false) ∧
      b.windowcount = a.windowcount - n ∧ b.windowfirst = a.wslot w n ∧
      (∀ k, b.acked k = (a.acked k && decide (∀ j, j < n → k ≠ a.wslot w j))) := by
  obtain ⟨⟨-, hl, hf, -, hcw, -⟩, -⟩ := h
  have hzero := Sender.wslot_zero hf
  have hmark := Sender.markAcked_acked (hl.symm ▸ hf : a.windowfirst < a.ack.length)
  obtain ⟨b, n, hafter⟩ : ∃ b n, a.afterAck w x = (b, n) := ⟨_, _, rfl⟩
  obtain ⟨-, -, -, hcount⟩ := Sender.afterAck_frame a w x
  have hslide : Sender.slide w a.windowcount (a.markAcked a.windowfirst) = (b, n) := by
    rw [← hafter, Sender.afterAck, Sender.marked_of_hit hfront]
    rfl
  have hspec := Sender.slide_spec (n := a.windowcount) (a := a.markAcked a.windowfirst) (le_refl _) hf hcw
    (List.length_set.trans hl)
  simp only [hslide, Sender.markAcked_windowcount, Sender.markAcked_wslot] at hspec
  simp only [hafter] at hcount
  obtain ⟨hrun, hend, hfirst, hflags⟩ := hspec
  have hpos : 0 < n := by
    rcases Nat.eq_zero_or_pos n with rfl | hn
    · have hunmarked := hend hc
      rw [hmark, if_pos hzero] at hunmarked
      cases hunmarked
    · exact hn
  have hother : ∀ j, 0 < j → j < a.windowcount → (a.markAcked a.windowfirst).acked (a.wslot w j) = a.acked (a.wslot w j) := by
    intro j hj hjc
    rw [hmark, if_neg fun he => hj.ne' (Sender.wslot_inj hf (by omega) (by omega) (he.trans hzero.symm))]
  refine ⟨b, n, hafter, hpos, by omega, fun j hj hjn => ?_, fun hn => ?_, by omega, hfirst, fun k => ?_⟩
  · exact (hother j hj (by omega)).symm.trans (hrun j hjn)
  · exact (hother n hpos hn).symm.trans (hend hn)
  · rw [hflags k, hmark]
    split_ifs with hk
    · have hfreed : ¬ ∀ j, j < n → k ≠ a.wslot w j := fun hall => hall 0 hpos (hk.trans hzero.symm)
      rw [decide_eq_false hfreed, Bool.and_false, Bool.and_false]
    · rfl

/-! ## A_ACK_IN (R132, R133, R136, R137) -/

/-- A valid A_ACK_IN in a legal state: the timer ends armed exactly where the window is left non-empty (R29). -/
theorem exec_aAckIn_of_inv {s : State} {p : Packet} {b : Sender} {n : Nat} (h : s.Inv) (hvalid : corrupt s.par p = false)
    (hb : s.a.afterAck s.par.w p.acknum = (b, n)) : exec (.aAckIn p) s = .next ({ s with
      a := b
      tmrArmed := decide (0 < b.windowcount)
      cnt := { s.cnt with
        acksRx := s.cnt.acksRx + 1#32
        newAcks := if (s.a.findUnacked s.par.w p.acknum).isSome then s.cnt.newAcks + 1#32 else s.cnt.newAcks } }.respond
      (if (s.a.findUnacked s.par.w p.acknum).isSome then .ackNew else .ackDup) n none
      (stopEvents s.tmrArmed ++ startEvents s.par (decide (0 < b.windowcount)))) := by
  obtain ⟨⟨-, -, hws, -⟩, ha, -⟩ := h
  have hinv := Sender.afterAck_inv (n := p.acknum) ha hws
  rw [exec_aAckIn_valid hvalid, Sender.unackedSlots_of_inv hinv, hb]

/-- A new ack in a legal state. -/
theorem exec_aAckIn_of_new {s : State} {p : Packet} {b : Sender} {k n : Nat} (h : s.Inv) (hvalid : corrupt s.par p = false)
    (hhit : s.a.findUnacked s.par.w p.acknum = some k) (hb : s.a.afterAck s.par.w p.acknum = (b, n)) :
    exec (.aAckIn p) s = .next ({ s with
      a := b
      tmrArmed := decide (0 < b.windowcount)
      cnt := { s.cnt with acksRx := s.cnt.acksRx + 1#32, newAcks := s.cnt.newAcks + 1#32 } }.respond .ackNew n none
      (stopEvents s.tmrArmed ++ startEvents s.par (decide (0 < b.windowcount)))) := by
  rw [exec_aAckIn_of_inv h hvalid hb, hhit]
  rfl

/-- Settles O24: nothing is marked, so the unacked front holds the slide, and the timer is restarted where it ran. -/
theorem ackMatchingNothingIsIdempotent : Obligations.AckMatchingNothingIsIdempotent := by
  intro s p hinv hvalid hmiss
  have hnone : s.a.findUnacked s.par.w p.acknum = none := Sender.findUnacked_none.2 hmiss
  obtain ⟨-, ha, -, htimer⟩ := id hinv
  have hafter := Sender.afterAck_of_front_unacked (n := p.acknum) ha (by simp [hnone])
  rw [Sender.marked_of_miss hnone] at hafter
  rw [exec_aAckIn_of_inv hinv hvalid hafter, hnone, ← State.tmrArmed_eq htimer, restart_events, if_congr htimer rfl rfl]
  rfl

/-- Settles O25: the scan finds the entry the ack names, and the slide starts only where that entry is the front. -/
theorem windowFrontCollapse : Obligations.WindowFrontCollapse := by
  intro s p i hinv hvalid hi hunacked hseq
  obtain ⟨⟨-, hw, hws, hs, -⟩, ha, -, htimer⟩ := id hinv
  obtain ⟨⟨-, -, hf, -, hcw, -⟩, -⟩ := id ha
  have hhit := Sender.findUnacked_eq (Sender.inv_pre ha) hws hs hi hunacked hseq
  have harmed : s.tmrArmed = true := htimer.2 (by omega)
  refine ⟨fun hpos => ?_, ?_⟩
  · have hne : s.a.wslot s.par.w i ≠ s.a.windowfirst := fun he =>
      hpos.ne' (Sender.wslot_inj hf (by omega) (by omega) (he.trans (Sender.wslot_zero hf).symm))
    have hafter := Sender.afterAck_of_front_unacked (n := p.acknum) ha (by simp [hhit, hne])
    rw [Sender.marked_of_hit hhit] at hafter
    rw [exec_aAckIn_of_new hinv hvalid hhit hafter, Sender.markAcked_windowcount, ← State.tmrArmed_eq htimer, restart_events,
      if_pos harmed]
    rfl
  · rintro rfl
    rw [Sender.wslot_zero hf] at hhit
    obtain ⟨b, n, hafter, hpos, hn, hrun, hend, hcount, hfirst, hflags⟩ := Sender.afterAck_of_front ha hi hhit
    obtain ⟨hwbuf, hlast, hnext, -⟩ := Sender.afterAck_frame s.a s.par.w p.acknum
    rw [hafter] at hwbuf hlast hnext
    have hopen : 0 < b.windowcount ↔ n < s.a.windowcount := by omega
    refine ⟨n, _, exec_aAckIn_of_new hinv hvalid hhit hafter, hpos, hn, hrun, hend, hcount, hfirst, hflags, hwbuf, hlast, hnext,
      decide_eq_decide.2 hopen, rfl, ?_, rfl, rfl, rfl, rfl⟩
    rw [State.respond_replies, responseWord_eq_ofNat .ackNew (by omega), harmed, stop_start_events,
      if_congr (decide_eq_true_iff.trans hopen) rfl rfl]
    rfl

/-- Settles O26: the status is ACK_NEW exactly where the scan finds an entry. -/
theorem ackIsNewExactlyOnAMatch : Obligations.AckIsNewExactlyOnAMatch := by
  intro s p hvalid
  refine ⟨_, _, exec_aAckIn_valid hvalid, rfl, ?_⟩
  rw [Reply.statusField_mk, ← Sender.findUnacked_isSome_iff]
  cases (s.a.findUnacked s.par.w p.acknum).isSome <;> decide

/-- Settles O27: `Sender.afterAck_frame` for the sender, the record A_ACK_IN writes for the rest. -/
theorem ackFrame : Obligations.AckFrame := by
  intro s t p he
  cases hcor : corrupt s.par p with
  | true =>
    cases (exec_aAckIn_corrupt hcor).symm.trans he
    exact ⟨rfl, rfl, rfl, rfl, rfl, rfl, rfl, rfl, rfl, rfl⟩
  | false =>
    cases (exec_aAckIn_valid hcor).symm.trans he
    obtain ⟨hwbuf, hlast, hnext, -⟩ := Sender.afterAck_frame s.a s.par.w p.acknum
    exact ⟨hwbuf, hlast, hnext, rfl, rfl, rfl, rfl, rfl, rfl, rfl⟩

/-! ## A_TIMEOUT (R134, R135) -/

/-- Settles O29: the idle branch of A_TIMEOUT. -/
theorem timeoutOnAnIdleTimerOnlyMarks : Obligations.TimeoutOnAnIdleTimerOnlyMarks :=
  fun _ hidle => exec_aTimeout_idle hidle

/-- The unacked slots, by the indices of their entries. -/
theorem Sender.unackedSlots_eq (a : Sender) (w : Nat) :
    a.unackedSlots w = ((List.range a.windowcount).filter (fun i => !a.acked (a.wslot w i))).map (a.wslot w) :=
  List.filter_map

/-- Settles O30: the packets of the unacked slots, listed by their entries' indices. -/
theorem timeoutRetransmitsUnackedEntries : Obligations.TimeoutRetransmitsUnackedEntries := by
  intro s harmed
  refine ⟨(s.a.unackedSlots s.par.w).map s.a.packet, ?_, ?_⟩
  · rw [Sender.unackedSlots_eq, List.map_map]
    rfl
  · rw [exec_aTimeout_armed harmed, List.length_map, List.map_map, startEvents_decide]
    rfl

/-- In a legal state with a non-empty window the front heads the unacked entries (R27). -/
theorem Sender.unackedSlots_eq_front_cons {a : Sender} {w s : Nat} (h : a.Inv w s) (hc : 0 < a.windowcount) :
    ∃ rest, a.unackedSlots w = a.windowfirst :: rest := by
  obtain ⟨⟨-, -, hf, -⟩, -, -, -, hfront⟩ := h
  obtain ⟨c, hcount⟩ := Nat.exists_eq_succ_of_ne_zero hc.ne'
  rw [Sender.unackedSlots_eq, hcount, List.range_succ_eq_map, List.filter_cons_of_pos (by simp [Sender.wslot_zero hf, hfront hc]),
    List.map_cons, Sender.wslot_zero hf]
  exact ⟨_, rfl⟩

/-- The timer runs and the front entry of `s` is still the unacked front in `t`. -/
def State.FrontAwaited (s t : State) : Prop :=
  t.tmrArmed = true ∧ t.a.windowfirst = s.a.windowfirst ∧
    t.a.packet t.a.windowfirst = s.a.packet s.a.windowfirst ∧ t.a.acked t.a.windowfirst = false

section
variable {s t : State}

/-- Where the timer is armed, the window has a front, and it is unacked (R27, R29). -/
theorem State.front_of_armed (h : s.Inv) (harmed : s.tmrArmed = true) :
    0 < s.a.windowcount ∧ s.a.acked s.a.windowfirst = false := by
  obtain ⟨-, ⟨-, -, -, -, hfront⟩, -, htimer⟩ := h
  exact ⟨htimer.1 harmed, hfront (htimer.1 harmed)⟩

/-- A command that leaves the sender alone and the timer armed. -/
theorem State.frontAwaited_of_eq (h : s.Inv) (harmed : s.tmrArmed = true) (ha : t.a = s.a) (ht : t.tmrArmed = true) :
    s.FrontAwaited t := by
  obtain ⟨-, hunacked⟩ := State.front_of_armed h harmed
  rw [State.FrontAwaited, ha]
  exact ⟨ht, rfl, rfl, hunacked⟩

/-- An insertion fills a slot other than the front's. -/
theorem exec_aSubmit_frontAwaited {m : Message} (h : s.Inv) (harmed : s.tmrArmed = true) (he : exec (.aSubmit m) s = .next t) :
    s.FrontAwaited t := by
  by_cases hfull : s.a.windowcount = s.par.w
  · cases (exec_aSubmit_full hfull).symm.trans he
    exact State.frontAwaited_of_eq h harmed rfl harmed
  · cases (exec_aSubmit_room hfull).symm.trans he
    obtain ⟨hc, hunacked⟩ := State.front_of_armed h harmed
    obtain ⟨⟨hw, -⟩, ha, -⟩ := h
    obtain ⟨⟨hwbuf, hack, hf, -, hcw, -⟩, -⟩ := id ha
    have hne : s.a.windowfirst ≠ (s.a.windowlast + 1) % s.par.w := by
      rw [Sender.insert_slot (Sender.inv_pre ha), ← Sender.wslot_zero hf]
      exact fun heq => hc.ne (Sender.wslot_inj hf hw (by omega) heq)
    refine ⟨?_, rfl, (Sender.insert_packet hw hwbuf _ _ _).trans (if_neg hne),
      (Sender.insert_acked hw hack _ _ _).trans ((if_neg hne).trans hunacked)⟩
    show (s.tmrArmed || _) = true
    rw [harmed, Bool.true_or]

/-- An ack that does not name the front frees nothing and marks another entry, or none. -/
theorem exec_aAckIn_frontAwaited {p : Packet} (h : s.Inv) (harmed : s.tmrArmed = true)
    (hp : corrupt s.par p = false → p.acknum ≠ (s.a.packet s.a.windowfirst).seqnum) (he : exec (.aAckIn p) s = .next t) :
    s.FrontAwaited t := by
  cases hcor : corrupt s.par p with
  | true =>
    cases (exec_aAckIn_corrupt hcor).symm.trans he
    exact State.frontAwaited_of_eq h harmed rfl harmed
  | false =>
    obtain ⟨hc, -⟩ := State.front_of_armed h harmed
    obtain ⟨⟨-, -, hws, -⟩, ha, -⟩ := id h
    have hother : s.a.findUnacked s.par.w p.acknum ≠ some s.a.windowfirst := fun hhit => by
      obtain ⟨-, -, -, -, hseq⟩ := Sender.findUnacked_some hhit
      exact hp hcor hseq.symm
    have hafter := Sender.afterAck_of_front_unacked ha hother
    obtain ⟨-, -, -, -, hfront⟩ := Sender.afterAck_inv (n := p.acknum) ha hws
    obtain ⟨hwbuf, -, -, hcount, hfirst⟩ := Sender.marked_frame s.a s.par.w p.acknum
    rw [hafter] at hfront
    have hc' : 0 < (s.a.marked s.par.w p.acknum).windowcount := hcount.symm ▸ hc
    cases (exec_aAckIn_of_inv h hcor hafter).symm.trans he
    refine ⟨decide_eq_true hc', hfirst, ?_, hfront hc'⟩
    show (s.a.marked s.par.w p.acknum).wbuf.getD (s.a.marked s.par.w p.acknum).windowfirst _ = _
    rw [hwbuf, hfirst]
    rfl

theorem exec_aTimeout_frontAwaited (h : s.Inv) (harmed : s.tmrArmed = true) (he : exec .aTimeout s = .next t) :
    s.FrontAwaited t := by
  cases (exec_aTimeout_armed harmed).symm.trans he
  obtain ⟨hc, -⟩ := State.front_of_armed h harmed
  exact State.frontAwaited_of_eq h harmed rfl (decide_eq_true hc)

theorem exec_receiverCommand_frontAwaited {i : Instr} (h : s.Inv) (harmed : s.tmrArmed = true) (hi : receiverCommand i = true)
    (he : exec i s = .next t) : s.FrontAwaited t := by
  obtain ⟨t', he', ha, ht, -⟩ := exec_receiverCommand hi s
  cases he'.symm.trans he
  exact State.frontAwaited_of_eq h harmed ha (ht.trans harmed)

end

/-- Every command but A_INIT and a valid ack for the front's number leaves the front awaited (R130, R135). -/
theorem exec_frontAwaited {s t : State} {i : Instr} (h : s.Inv) (harmed : s.tmrArmed = true) (hinit : i ≠ .aInit)
    (hack : ∀ p, i = .aAckIn p → corrupt s.par p = false → p.acknum ≠ (s.a.packet s.a.windowfirst).seqnum)
    (he : exec i s = .next t) : s.FrontAwaited t := by
  cases i with
  | nop => cases he; exact State.frontAwaited_of_eq h harmed rfl harmed
  | aInit => exact absurd rfl hinit
  | aSubmit m => exact exec_aSubmit_frontAwaited h harmed he
  | aAckIn p => exact exec_aAckIn_frontAwaited h harmed (hack p rfl) he
  | aTimeout => exact exec_aTimeout_frontAwaited h harmed he
  | bInit => exact exec_receiverCommand_frontAwaited h harmed rfl he
  | bPktIn p => exact exec_receiverCommand_frontAwaited h harmed rfl he
  | chkEval p => cases he; exact State.frontAwaited_of_eq h harmed rfl harmed
  | regRead idx =>
    obtain ⟨e, st, d, hn⟩ := exec_regRead_next idx s
    cases hn.symm.trans he
    exact State.frontAwaited_of_eq h harmed rfl harmed

/-- Settles O31: the front heads the unacked entries, and `exec_frontAwaited` keeps it there. -/
theorem armedTimeoutResendsTheFront : Obligations.ArmedTimeoutResendsTheFront := by
  refine ⟨fun s hinv harmed => ?_, fun s t i hinv harmed hinit hack he => exec_frontAwaited hinv harmed hinit hack he⟩
  obtain ⟨hc, -⟩ := State.front_of_armed hinv harmed
  obtain ⟨-, ha, -⟩ := hinv
  obtain ⟨rest, hrest⟩ := Sender.unackedSlots_eq_front_cons ha hc
  have hnext := exec_aTimeout_armed harmed
  rw [hrest] at hnext
  exact ⟨_, _, _, hnext, rfl, rfl, decide_eq_true hc, rfl⟩

end Sys2Proof.Machine

/-! The receiver through commands that are not its own, and through a valid packet (42_receiver.md R171 to R175). -/

namespace Sys2Proof.Machine

/-- The toggle of a one-bit word, as R172 writes it. -/
theorem Receiver.toggled_eq (b : Receiver) : b.toggled = { b with nextackseq := 1#1 - b.nextackseq } := by
  have hbit : ∀ q : BitVec 1, ~~~q = 1#1 - q := by decide
  rw [Receiver.toggled, hbit]

theorem Receiver.toggled_nextackseq (b : Receiver) : b.toggled.nextackseq = 1#1 - b.nextackseq := by
  rw [Receiver.toggled_eq]

theorem Receiver.deliverAndDrain_nextackseq (b : Receiver) (s : Nat) (d : Payload) :
    (b.deliverAndDrain s d).1.nextackseq = b.nextackseq := by
  obtain ⟨hack, -⟩ := Receiver.drain_frame (s := s) (n := b.rbuf.length) (b := b.advance s)
  exact hack

theorem Receiver.deliverAndDrain_length (b : Receiver) (s : Nat) (d : Payload) :
    (b.deliverAndDrain s d).1.rbuf.length = b.rbuf.length := by
  obtain ⟨-, hlen, -⟩ := Receiver.drain_frame (s := s) (n := b.rbuf.length) (b := b.advance s)
  exact hlen

/-- What the delivery of `d` and the drain behind it leave, `ds` the drained payloads (R173). -/
theorem Receiver.deliverAndDrain_spec (b : Receiver) {s : Nat} (hs : 0 < s) (d : Payload) :
    ∃ c ds, b.deliverAndDrain s d = (c, d :: ds) ∧ c.findExpected = none ∧
      c.expectedseqnum = (b.expectedseqnum + 1 + ds.length) % s ∧
      (∀ (j : Nat) (d' : Payload), ds[j]? = some d' →
        ∃ k, b.slot k = ⟨true, (b.expectedseqnum + 1 + j) % s, d'⟩ ∧ (c.slot k).valid = false) ∧
      (∀ k, c.slot k = b.slot k ∨ (b.slot k).valid = true ∧ c.slot k = { b.slot k with valid := false }) ∧
      occupancy c + ds.length = occupancy b ∧ c.nextackseq = b.nextackseq := by
  obtain ⟨hack, -, hocc, hslots⟩ := Receiver.drain_frame (s := s) (n := b.rbuf.length) (b := b.advance s)
  obtain ⟨hend, hcursor, hfreed⟩ := Receiver.drain_spec (s := s) (n := b.rbuf.length) (b := b.advance s)
    (occupancy_le_length (b.advance s)) (Nat.mod_lt _ hs)
  have hadv : (b.advance s).expectedseqnum = (b.expectedseqnum + 1) % s := rfl
  simp only [hadv, Nat.mod_add_mod] at hcursor hfreed
  exact ⟨_, _, rfl, hend, hcursor, hfreed, hslots, hocc, hack⟩

/-- The number `j` ahead of the cursor has receive offset `j` (R171). -/
theorem Receiver.seqOffset_ahead {b : Receiver} {s j : Nat} (hb : b.expectedseqnum < s) (hj : j < s) :
    b.seqOffset s ((b.expectedseqnum + j) % s) = j := by
  have hmod : (b.expectedseqnum + j) % s = _ := mod_of_lt_two (by omega)
  rw [Receiver.seqOffset, add_sub_mod (Nat.mod_lt _ (by omega)) hb]
  split_ifs at hmod ⊢ <;> omega

theorem deliveredPayloads_append (xs ys : List Event) :
    deliveredPayloads (xs ++ ys) = deliveredPayloads xs ++ deliveredPayloads ys :=
  List.filterMap_append

theorem deliveredPayloads_stopEvents (armed : Bool) : deliveredPayloads (stopEvents armed) = [] := by
  cases armed <;> rfl

theorem deliveredPayloads_startEvents (par : Params) (start : Bool) : deliveredPayloads (startEvents par start) = [] := by
  cases start <;> rfl

theorem deliveredPayloads_resent (a : Sender) (l : List Nat) :
    deliveredPayloads (l.map (fun k => Event.txA (a.packet k))) = [] := by
  simp [deliveredPayloads]

theorem exec_par {i : Instr} {s t : State} (he : exec i s = .next t) : t.par = s.par := by
  obtain ⟨u, st, n, d, evs, hu, -, hpar, -⟩ := exec_reply i s
  cases hu.symm.trans he
  exact hpar

/-- A command that is not the receiver's leaves the receiver and delivers nothing. -/
theorem exec_leavesReceiver {i : Instr} (hi : receiverCommand i = false) (s : State) : ∃ t r, exec i s = .next t ∧
    t.replies = s.replies ++ [r] ∧ deliveredPayloads r.events = [] ∧ t.b = s.b ∧ t.par = s.par := by
  cases i with
  | nop => exact ⟨_, _, rfl, rfl, rfl, rfl, rfl⟩
  | aInit => exact ⟨_, _, rfl, rfl, deliveredPayloads_stopEvents _, rfl, rfl⟩
  | aSubmit m =>
    by_cases hc : s.a.windowcount = s.par.w
    · exact ⟨_, _, exec_aSubmit_full hc, rfl, rfl, rfl, rfl⟩
    · exact ⟨_, _, exec_aSubmit_room hc, rfl, deliveredPayloads_startEvents _ _, rfl, rfl⟩
  | aAckIn p =>
    cases hcor : corrupt s.par p with
    | true => exact ⟨_, _, exec_aAckIn_corrupt hcor, rfl, rfl, rfl, rfl⟩
    | false =>
      refine ⟨_, _, exec_aAckIn_valid hcor, rfl, ?_, rfl, rfl⟩
      rw [deliveredPayloads_append, deliveredPayloads_stopEvents, deliveredPayloads_startEvents, List.append_nil]
  | aTimeout =>
    cases harm : s.tmrArmed with
    | false => exact ⟨_, _, exec_aTimeout_idle harm, rfl, rfl, rfl, rfl⟩
    | true =>
      refine ⟨_, _, exec_aTimeout_armed harm, rfl, ?_, rfl, rfl⟩
      rw [deliveredPayloads_append, deliveredPayloads_resent, deliveredPayloads_startEvents, List.append_nil]
  | bInit => cases hi
  | bPktIn p => cases hi
  | chkEval p => exact ⟨_, _, rfl, rfl, rfl, rfl, rfl⟩
  | regRead idx =>
    obtain ⟨e, st, d, hn⟩ := exec_regRead_next idx s
    exact ⟨_, _, hn, rfl, rfl, rfl, rfl⟩

end Sys2Proof.Machine

/-! The receiver's commands one by one: B_INIT, the ack of every valid packet, and what becomes of the packet (42_receiver.md R170 to R175,
R178, R179). -/

namespace Sys2Proof.Machine

/-! ## B_INIT (R170) -/

/-- Settles O32: the record B_INIT writes, and the valid bits `Receiver.init_slot_valid` finds cleared. -/
theorem bInitResetsTheReceiver : Obligations.BInitResetsTheReceiver := fun s =>
  ⟨_, rfl, rfl, rfl, List.length_map .., Receiver.init_slot_valid s.b s.par.ackSeqReset, rfl, rfl, rfl, rfl, rfl, rfl, rfl⟩

/-! ## The ack (R172) -/

/-- 20 bytes of 0x30 add 960 to the ack's two numbers, in either reading of a byte. -/
theorem ackPacket_checksum_of_defaultFill {par : Params} (h : par.ackFill = 0x30#8) (n : BitVec 1) (q : Word) :
    (ackPacket par n q).checksum = n.zeroExtend 32 + q + 960#32 := by
  have hfill : ∀ signed, ((List.replicate Config.payloadLen (0x30#8 : Byte)).map (byteWord signed)).sum = 960#32 := by decide
  show checksum par _ = _
  rw [checksum_eq_wordSum, h, hfill]

/-- A valid packet's reply: the ack and the deliveries behind it; nextackseq toggles. -/
theorem exec_bPktIn_valid {s : State} {p : Packet} (hcor : corrupt s.par p = false) :
    ∃ t rsp, ∃ ds : List Payload, exec (.bPktIn p) s = .next t ∧
      t.replies = s.replies ++ [⟨rsp, .txB (ackPacket s.par s.b.nextackseq p.seqnum) :: ds.map Event.deliver⟩] ∧
      t.b.nextackseq = 1#1 - s.b.nextackseq := by
  have htog := Receiver.toggled_nextackseq s.b
  rcases bPktIn_cases s p with hbad | ⟨-, hout | ⟨hr, hexp | ⟨hne, hoff, hnone | ⟨k, hk⟩⟩⟩⟩
  · exact absurd hbad (by simp [hcor])
  · exact ⟨_, _, [], exec_bPktIn_outside hcor hout, rfl, htog⟩
  · exact ⟨_, _, _, exec_bPktIn_expected hcor hr hexp, rfl, (s.b.toggled.deliverAndDrain_nextackseq s.par.s p.payload).trans htog⟩
  · exact ⟨_, _, [], exec_bPktIn_drop hcor hr hne hoff hnone, rfl, htog⟩
  · exact ⟨_, _, [], exec_bPktIn_store hcor hr hne hoff hk, rfl, htog⟩

/-- Settles O33: behind the ack there are only deliveries. -/
theorem everyValidPacketIsAcknowledgedFirst : Obligations.EveryValidPacketIsAcknowledgedFirst := by
  intro s p hcor
  obtain ⟨t, rsp, ds, hnext, hr, htog⟩ := exec_bPktIn_valid hcor
  exact ⟨t, _, _, _, hnext, hr, rfl, rfl, rfl, rfl, rfl, fun x => by simp, htog, fun h => ackPacket_checksum_of_defaultFill h _ _⟩

/-! ## Outside the window (R175) -/

/-- Settles O34: an offset of W or more is not the cursor's, which is 0. -/
theorem outsideTheWindowOnlyAcks : Obligations.OutsideTheWindowOnlyAcks := by
  intro s p hlegal hcor hout
  obtain ⟨hw, -⟩ := hlegal
  have hout' : (p.seqnum.toInt < 0 ∨ (s.par.s : Int) ≤ p.seqnum.toInt) ∨
      p.seqnum.toInt ≠ s.b.expectedseqnum ∧ ¬ s.b.offset s.par.s p.seqnum.toInt < s.par.w := by
    rcases hout with h | h | h
    · exact .inl (.inl h)
    · exact .inl (.inr h)
    · refine .inr ⟨fun he => ?_, not_lt.2 h⟩
      rw [he, sub_self, zero_add, Int.emod_self] at h
      omega
  rw [exec_bPktIn_outside hcor hout', Receiver.toggled_eq]
  rfl

/-! ## In the window, ahead of the cursor (R174) -/

/-- Settles O35: the lowest free slot is the one the search finds. -/
theorem inWindowPacketIsStoredOrDropped : Obligations.InWindowPacketIsStoredOrDropped := by
  intro s p hlen hcor h0 hS hne hoff
  have hr : ¬ (p.seqnum.toInt < 0 ∨ (s.par.s : Int) ≤ p.seqnum.toInt) := by omega
  refine ⟨fun k hk hfree hlow => ?_, fun hfull => ?_⟩
  · rw [exec_bPktIn_store hcor hr hne hoff (Receiver.findFree_some.2 ⟨by omega, hfree, hlow⟩), Receiver.toggled_eq]
    rfl
  · rw [exec_bPktIn_drop hcor hr hne hoff (Receiver.findFree_none.2 fun k hk => hfull k (by omega)), Receiver.toggled_eq]
    rfl

/-! ## The drain (R173) -/

/-- Settles O36: a drain that finds a slot has a bound of at least one, and the bound it goes on with covers the slots still valid. -/
theorem drainFollowsTheLoop : Obligations.DrainFollowsTheLoop := by
  intro s b
  refine ⟨fun hnone => ?_, fun k hk hv hseq hlow => ⟨b.pop s k, rfl, ?_⟩⟩
  · exact Receiver.drain_of_none (Receiver.findExpected_none.2 fun k hv => hnone k (Receiver.lt_length_of_valid hv) hv)
  · obtain ⟨n, hn⟩ : ∃ n, b.rbuf.length = n + 1 := Nat.exists_eq_succ_of_ne_zero (by omega)
    have hpop := Receiver.pop_occupancy (s := s) hv
    have hocc := occupancy_le_length b
    have hbound := Receiver.drain_bound (s := s) (n := n) (m := (b.pop s k).rbuf.length) (b := b.pop s k) (by omega)
      (occupancy_le_length _)
    rw [hn, Receiver.drain_of_some (Receiver.findExpected_some.2 ⟨hv, hseq, hlow⟩), hbound]

/-! ## In order (R173) -/

/-- Settles O37: `Receiver.deliverAndDrain_spec`, with the drained payloads bounded by the valid slots. -/
theorem inOrderPacketIsDeliveredAndDrained : Obligations.InOrderPacketIsDeliveredAndDrained := by
  intro s p hinv hcor hexp
  obtain ⟨⟨-, hw, -⟩, -, ⟨hlen, hcur, -⟩, -⟩ := hinv
  obtain ⟨c, ds, hc, hend, hcursor, hfreed, hslots, hocc, hack⟩ :=
    s.b.toggled.deliverAndDrain_spec (Nat.zero_lt_of_lt hcur) p.payload
  have hnext := exec_bPktIn_expected hcor (by omega) hexp
  rw [hc] at hnext
  have hshort : ds.length ≤ s.par.w := by
    have hle : occupancy s.b.toggled ≤ s.b.rbuf.length := occupancy_le_length _
    omega
  refine ⟨_, ds, hnext, hshort, ?_, fun j d hd => ?_, hcursor, fun k _ hv => Receiver.findExpected_none.1 hend k hv, hslots, hocc,
    hack.trans (Receiver.toggled_nextackseq s.b), rfl, rfl, rfl, rfl, rfl, rfl⟩
  · rw [State.respond_replies, List.length_cons, responseWord_eq_ofNat .rxDelivered (by omega)]
    rfl
  · obtain ⟨k, hk, hfree⟩ := hfreed j d hd
    have hlt : k < s.b.toggled.rbuf.length := Receiver.lt_length_of_valid (by rw [hk])
    exact ⟨k, hlt.trans_eq hlen, hk, hfree⟩

/-! ## The frame (R171 to R175) -/

theorem exec_bPktIn_length {s t : State} {p : Packet} (he : exec (.bPktIn p) s = .next t) :
    t.b.rbuf.length = s.b.rbuf.length := by
  rcases bPktIn_cases s p with hcor | ⟨hcor, hout | ⟨hr, hexp | ⟨hne, hoff, hnone | ⟨k, hk⟩⟩⟩⟩
  · cases (exec_bPktIn_corrupt hcor).symm.trans he
    rfl
  · cases (exec_bPktIn_outside hcor hout).symm.trans he
    rfl
  · cases (exec_bPktIn_expected hcor hr hexp).symm.trans he
    exact s.b.toggled.deliverAndDrain_length s.par.s p.payload
  · cases (exec_bPktIn_drop hcor hr hne hoff hnone).symm.trans he
    rfl
  · cases (exec_bPktIn_store hcor hr hne hoff hk).symm.trans he
    exact List.length_set

/-- Settles O38: what B_PKT_IN leaves to the sender, what every command leaves, and the number of slots. -/
theorem packetInFrame : Obligations.PacketInFrame := by
  intro s t p he
  obtain ⟨u, hu, ha, harm, herr, hcnt, -⟩ := exec_bPktIn_apart s p
  obtain ⟨u', st, n, d, evs, hu', -, hpar, hpend⟩ := exec_reply (.bPktIn p) s
  cases hu.symm.trans he
  cases hu'.symm.trans he
  rw [hcnt]
  exact ⟨ha, harm, herr, hpar, hpend, exec_bPktIn_length he, rfl, rfl, rfl, rfl⟩

/-! ## Repeats (R178, R179) -/

section
variable {s : State} {p : Packet} {n : Nat} (hinv : s.Inv) (hcor : corrupt s.par p = false) (hp : p.seqnum = BitVec.ofNat 32 n)
  (hn : n < s.par.s)
include hinv hcor hp hn

/-- A packet numbered `n` in [0, S) whose receive offset is W or more. -/
theorem exec_bPktIn_numbered_outside (hoff : s.par.w ≤ s.b.seqOffset s.par.s n) : exec (.bPktIn p) s =
    .next ({ s with b := s.b.toggled }.respond .rxOutside 0 none [.txB (ackPacket s.par s.b.nextackseq p.seqnum)]) := by
  obtain ⟨⟨hw, -, -, hs, -⟩, -, ⟨-, hcur, -⟩, -⟩ := hinv
  have hq : p.seqnum.toInt = (n : Int) := by rw [hp, toInt_ofNat_small (by omega)]
  refine exec_bPktIn_outside hcor (.inr ⟨fun he => ?_, ?_⟩)
  · obtain rfl : n = s.b.expectedseqnum := by omega
    rw [Receiver.seqOffset_cursor] at hoff
    omega
  · rw [hq, Receiver.offset_eq_seqOffset hcur hn]
    omega

/-- A packet numbered `n` in [0, S) whose receive offset is in [1, W − 1]. -/
theorem exec_bPktIn_numbered_ahead (hpos : 1 ≤ s.b.seqOffset s.par.s n) (hoff : s.b.seqOffset s.par.s n < s.par.w) :
    (∀ k, s.b.findFree = some k → exec (.bPktIn p) s = .next ({ s with b := s.b.toggled.store k n p.payload }.respond
      .rxBuffered 0 none [.txB (ackPacket s.par s.b.nextackseq p.seqnum)])) ∧
    (s.b.findFree = none → exec (.bPktIn p) s = .next ({ s with b := s.b.toggled }.respond
      .rxDropFull 0 none [.txB (ackPacket s.par s.b.nextackseq p.seqnum)])) := by
  obtain ⟨⟨-, -, -, hs, -⟩, -, ⟨-, hcur, -⟩, -⟩ := hinv
  have hq : p.seqnum.toInt = (n : Int) := by rw [hp, toInt_ofNat_small (by omega)]
  have hr : ¬ (p.seqnum.toInt < 0 ∨ (s.par.s : Int) ≤ p.seqnum.toInt) := by omega
  have hne : p.seqnum.toInt ≠ s.b.expectedseqnum := by
    intro he
    obtain rfl : n = s.b.expectedseqnum := by omega
    rw [Receiver.seqOffset_cursor] at hpos
    omega
  have hin : s.b.offset s.par.s p.seqnum.toInt < s.par.w := by
    rw [hq, Receiver.offset_eq_seqOffset hcur hn]
    omega
  refine ⟨fun k hk => ?_, exec_bPktIn_drop hcor hr hne hin⟩
  rw [exec_bPktIn_store hcor hr hne hin hk, hq, Int.toNat_natCast]

end

/-- A stored packet lies in the slot that was found. -/
theorem Receiver.store_slot_self {b : Receiver} {k : Nat} (hk : b.findFree = some k) (seq : Nat) (d : Payload) :
    (b.store k seq d).slot k = ⟨true, seq, d⟩ := by
  obtain ⟨hlt, -⟩ := Receiver.findFree_some.1 hk
  rw [Receiver.store, Receiver.slot_set, if_pos ⟨rfl, hlt⟩]

theorem Receiver.store_slot_of_ne {b : Receiver} {j k : Nat} (h : j ≠ k) (seq : Nat) (d : Payload) :
    (b.store k seq d).slot j = b.slot j := by
  rw [Receiver.store, Receiver.slot_set, if_neg fun hc => h hc.1]

/-- Settles O40: the number `j` behind the cursor is S − `j` ahead of it. -/
theorem repeatOfADeliveredPacket : Obligations.RepeatOfADeliveredPacket := by
  intro s p j hinv hcor h1 hj hp
  obtain ⟨⟨hw, -⟩, -, ⟨hlen, hcur, -⟩, -⟩ := id hinv
  have hn : (s.b.expectedseqnum + s.par.s - j) % s.par.s < s.par.s := Nat.mod_lt _ (by omega)
  have hoff : s.b.seqOffset s.par.s ((s.b.expectedseqnum + s.par.s - j) % s.par.s) = s.par.s - j := by
    rw [Nat.add_sub_assoc hj.le]
    exact Receiver.seqOffset_ahead hcur (by omega)
  rcases Nat.lt_or_ge (s.par.s - j) s.par.w with hlt | hge
  · obtain ⟨hstore, hdrop⟩ := exec_bPktIn_numbered_ahead hinv hcor hp hn (by omega) (by omega)
    cases hf : s.b.findFree with
    | none =>
      refine ⟨_, _, hdrop hf, rfl, rfl, fun h => absurd h (by omega), fun _ hocc => ?_⟩
      obtain ⟨k, hk⟩ := findFree_isSome.2 (hlen ▸ hocc)
      cases hf.symm.trans hk
    | some k =>
      obtain ⟨hk, hfree, -⟩ := Receiver.findFree_some.1 hf
      exact ⟨_, _, hstore k hf, rfl, rfl, fun h => absurd h (by omega), fun _ _ => ⟨Reply.statusField_mk .., occupancy_store hf,
        k, hlen ▸ hk, hfree, Receiver.store_slot_self (b := s.b.toggled) hf _ _⟩⟩
  · exact ⟨_, _, exec_bPktIn_numbered_outside hinv hcor hp hn (by omega), rfl, rfl, fun _ => ⟨Reply.statusField_mk .., rfl⟩,
      fun h => absurd h (by omega)⟩

/-- Settles O41: the free slot is not the valid one that holds the first copy. -/
theorem secondCopyTakesASecondSlot : Obligations.SecondCopyTakesASecondSlot := by
  intro s p k hinv hcor hk hv hp hpos hoff hocc
  obtain ⟨-, -, ⟨hlen, -, hseqs⟩, -⟩ := id hinv
  obtain ⟨k', hk'⟩ := findFree_isSome.2 (hlen ▸ hocc)
  obtain ⟨hlt, hfree, -⟩ := Receiver.findFree_some.1 hk'
  have hne : k' ≠ k := by
    rintro rfl
    rw [hv] at hfree
    cases hfree
  obtain ⟨hstore, -⟩ := exec_bPktIn_numbered_ahead hinv hcor hp (hseqs k hk hv) hpos hoff
  exact ⟨_, k', hstore k' hk', hlen ▸ hlt, hne, Receiver.store_slot_of_ne (b := s.b.toggled) hne.symm _ _,
    Receiver.store_slot_self (b := s.b.toggled) hk' _ _⟩

end Sys2Proof.Machine

/-! Buffer capacity without second copies (42_receiver.md R176). -/

namespace Sys2Proof.Machine

/-- The valid slots have distinct offsets in [1, W − 1]. -/
theorem Receiver.Fresh.occupancy_le {b : Receiver} {w s : Nat} (hinv : b.Inv w s) (hf : b.Fresh w s) : occupancy b ≤ w - 1 := by
  obtain ⟨hlen, hcur, hseqs⟩ := hinv
  obtain ⟨hoffsets, -⟩ := id hf
  rw [occupancy_eq_card, hlen]
  calc ((Finset.range w).filter fun k => (b.slot k).valid = true).card
    _ ≤ (Finset.Icc 1 (w - 1)).card := by
      refine Finset.card_le_card_of_injOn (fun k => b.seqOffset s (b.slot k).seq) (fun k hk => ?_) fun k hk j hj he => ?_
      · obtain ⟨hkw, hv⟩ := Finset.mem_filter.1 hk
        exact Finset.mem_Icc.2 (hoffsets k (Finset.mem_range.1 hkw) hv)
      · obtain ⟨hkw, hkv⟩ := Finset.mem_filter.1 hk
        obtain ⟨hjw, hjv⟩ := Finset.mem_filter.1 hj
        rw [Finset.mem_range] at hkw hjw
        exact hf.slot_unique hkw hjw hkv hjv (Receiver.seqOffset_inj hcur (hseqs k hkw hkv) (hseqs j hjw hjv) he)
    _ = w - 1 := by simp

/-- A slot is always free. -/
theorem State.findFree_ne_none_of_fresh {s : State} (hinv : s.Inv) (hf : s.b.Fresh s.par.w s.par.s) : s.b.findFree ≠ none := by
  obtain ⟨⟨hw, -⟩, -, hb, -⟩ := hinv
  have hocc := hf.occupancy_le hb
  obtain ⟨hlen, -⟩ := hb
  obtain ⟨k, hk⟩ := findFree_isSome.2 (show occupancy s.b < s.b.rbuf.length by omega)
  simp [hk]

theorem exec_bPktIn_not_dropped {s t : State} {p : Packet} {r : Reply} (hfree : s.b.findFree ≠ none)
    (he : exec (.bPktIn p) s = .next t) (hr : t.replies = s.replies ++ [r]) : r.statusField ≠ 0x07#8 := by
  have hstatus : ∀ st n d evs, t.replies = s.replies ++ [⟨⟨responseWord st n, d⟩, evs⟩] → statusCode st ≠ 0x07#8 →
      r.statusField ≠ 0x07#8 := by
    intro st n d evs hr' hst
    obtain rfl := List.singleton_inj.1 (List.append_cancel_left (hr'.symm.trans hr))
    rwa [Reply.statusField_mk]
  rcases bPktIn_cases s p with hcor | ⟨hcor, hout | ⟨hr, hexp | ⟨hne, hoff, hnone | ⟨k, hk⟩⟩⟩⟩
  · cases (exec_bPktIn_corrupt hcor).symm.trans he
    exact hstatus .corrupt _ _ _ rfl (by decide)
  · cases (exec_bPktIn_outside hcor hout).symm.trans he
    exact hstatus .rxOutside _ _ _ rfl (by decide)
  · cases (exec_bPktIn_expected hcor hr hexp).symm.trans he
    exact hstatus .rxDelivered _ _ _ rfl (by decide)
  · exact absurd hnone hfree
  · cases (exec_bPktIn_store hcor hr hne hoff hk).symm.trans he
    exact hstatus .rxBuffered _ _ _ rfl (by decide)

theorem Receiver.fresh_of_free {b : Receiver} {w s : Nat} (h : ∀ k, (b.slot k).valid = false) : b.Fresh w s :=
  ⟨fun k _ hv => absurd hv (by simp [h k]), fun k _ j _ hv => absurd hv (by simp [h k])⟩

theorem exec_bPktIn_fresh {s t : State} {p : Packet} (hinv : s.Inv) (hf : s.b.Fresh s.par.w s.par.s)
    (hnew : corrupt s.par p = false → ∀ k, k < s.par.w → (s.b.slot k).valid = true → p.seqnum ≠ BitVec.ofNat 32 (s.b.slot k).seq)
    (he : exec (.bPktIn p) s = .next t) : t.b.Fresh s.par.w s.par.s := by
  obtain ⟨-, -, hb, -⟩ := hinv
  obtain ⟨-, hcur, -⟩ := id hb
  have htog : s.b.toggled.Fresh s.par.w s.par.s := hf
  rcases bPktIn_cases s p with hcor | ⟨hcor, hout | ⟨hr, hexp | ⟨hne, hoff, hnone | ⟨k, hk⟩⟩⟩⟩
  · cases (exec_bPktIn_corrupt hcor).symm.trans he
    exact hf
  · cases (exec_bPktIn_outside hcor hout).symm.trans he
    exact htog
  · cases (exec_bPktIn_expected hcor hr hexp).symm.trans he
    exact Receiver.deliverAndDrain_fresh p.payload (Receiver.toggled_inv hb) htog (by omega)
  · cases (exec_bPktIn_drop hcor hr hne hoff hnone).symm.trans he
    exact htog
  · cases (exec_bPktIn_store hcor hr hne hoff hk).symm.trans he
    obtain ⟨n, hn⟩ : ∃ n : Nat, p.seqnum.toInt = n := Int.eq_ofNat_of_zero_le (by omega)
    have hns : n < s.par.s := by omega
    rw [hn, Receiver.offset_eq_seqOffset hcur hns] at hoff
    have hpos := Receiver.seqOffset_pos hcur hns (by omega)
    show (s.b.toggled.store k p.seqnum.toInt.toNat p.payload).Fresh s.par.w s.par.s
    rw [hn, Int.toNat_natCast]
    refine Receiver.store_fresh htog hpos (show s.b.seqOffset s.par.s n ≤ s.par.w - 1 by omega) fun j hj hv hseq => ?_
    exact hnew hcor j hj hv (word_of_toInt (by rw [hn, hseq]; rfl))

/-- Every command keeps the condition of R176, unless it is a packet whose number a valid slot already holds. -/
theorem exec_fresh {s t : State} {i : Instr} (hinv : s.Inv) (hf : s.b.Fresh s.par.w s.par.s)
    (hnew : ∀ p, i = .bPktIn p → corrupt s.par p = false →
      ∀ k, k < s.par.w → (s.b.slot k).valid = true → p.seqnum ≠ BitVec.ofNat 32 (s.b.slot k).seq)
    (he : exec i s = .next t) : t.b.Fresh s.par.w s.par.s := by
  cases hrc : receiverCommand i with
  | true =>
    cases i with
    | bInit =>
      cases he
      exact Receiver.fresh_of_free (Receiver.init_slot_valid s.b s.par.ackSeqReset)
    | bPktIn p => exact exec_bPktIn_fresh hinv hf (hnew p rfl) he
    | _ => cases hrc
  | false =>
    obtain ⟨t', r, hnext, -, -, hb, -⟩ := exec_leavesReceiver hrc s
    cases hnext.symm.trans he
    rw [hb]
    exact hf

/-- Settles O42: distinct offsets in [1, W − 1] leave a slot free, and every command keeps them so. -/
theorem bufferCannotFillWithoutSecondCopies : Obligations.BufferCannotFillWithoutSecondCopies := by
  refine ⟨fun s hinv hf => ?_, fun s t p hinv hf he r hr => ?_, fun s t i hinv hf he hnew => ?_⟩
  · obtain ⟨-, -, hb, -⟩ := hinv
    exact hf.occupancy_le hb
  · exact exec_bPktIn_not_dropped (State.findFree_ne_none_of_fresh hinv hf) he hr
  · rw [exec_par he]
    exact exec_fresh hinv hf hnew he

end Sys2Proof.Machine

/-! The in-order delivery law (42_receiver.md R177). The run still to be delivered is kept as a list of packets, the cursor's first; each of
them either is still to arrive or lies in exactly one valid slot. A packet behind the cursor's moves from the first part to the second; the
cursor's packet and the drain behind it take packets off the front of the run. -/

namespace Sys2Proof.Machine

/-! ## The valid slots as a list -/

/-- The valid slots, lowest first. -/
def Receiver.held (b : Receiver) : List Slot := b.rbuf.filter (fun sl => sl.valid)

theorem occupancy_eq_held_length (b : Receiver) : occupancy b = b.held.length := List.countP_eq_length_filter

theorem Receiver.slot_mem_held {b : Receiver} {k : Nat} (hv : (b.slot k).valid = true) : b.slot k ∈ b.held := by
  have hk := Receiver.lt_length_of_valid hv
  rw [Receiver.slot_eq_getElem hk] at hv ⊢
  exact List.mem_filter.2 ⟨List.getElem_mem hk, hv⟩

theorem Receiver.exists_slot_of_mem_held {b : Receiver} {sl : Slot} (h : sl ∈ b.held) : ∃ k, b.slot k = sl ∧ sl.valid = true := by
  obtain ⟨hmem, hv⟩ := List.mem_filter.1 h
  obtain ⟨k, hk, rfl⟩ := List.getElem_of_mem hmem
  exact ⟨k, Receiver.slot_eq_getElem hk, hv⟩

/-- A write to a list exchanges one entry for another. -/
theorem getElem_cons_set_perm {α : Type} {l : List α} {k : Nat} (hk : k < l.length) (x : α) :
    (l[k] :: l.set k x).Perm (x :: l) :=
  ((List.set_perm_cons_eraseIdx hk x).cons l[k]).trans <|
    (List.Perm.swap ..).trans ((List.getElem_cons_eraseIdx_perm hk).cons x)

theorem Receiver.store_held {b : Receiver} {k seq : Nat} {d : Payload} (h : b.findFree = some k) :
    (b.store k seq d).held.Perm (⟨true, seq, d⟩ :: b.held) := by
  obtain ⟨hk, hv, -⟩ := Receiver.findFree_some.1 h
  rw [Receiver.slot_eq_getElem hk] at hv
  simpa [hv, Receiver.held, Receiver.store] using (getElem_cons_set_perm hk ⟨true, seq, d⟩).filter (fun sl => sl.valid)

theorem Receiver.pop_held {b : Receiver} {k : Nat} (hv : (b.slot k).valid = true) (s : Nat) :
    (b.slot k :: (b.pop s k).held).Perm b.held := by
  have hk := Receiver.lt_length_of_valid hv
  have hperm := (getElem_cons_set_perm hk { b.slot k with valid := false }).filter (fun sl => sl.valid)
  rw [← Receiver.slot_eq_getElem hk] at hperm
  simpa [hv, Receiver.held, Receiver.pop, Receiver.free, Receiver.advance] using hperm

/-! ## A run of numbers -/

/-- The slot a packet is stored in (R174). -/
def slotOf (p : Packet) : Slot := ⟨true, p.seqnum.toInt.toNat, p.payload⟩

/-- The packets are numbered `e`, `e + 1`, … modulo `s`. -/
def NumberedFrom (s e : Nat) (run : List Packet) : Prop :=
  ∀ (j : Nat) (p : Packet), run[j]? = some p → p.seqnum = BitVec.ofNat 32 ((e + j) % s)

theorem NumberedFrom.tail {s e : Nat} {p : Packet} {run : List Packet} (h : NumberedFrom s e (p :: run)) :
    NumberedFrom s ((e + 1) % s) run := by
  intro j q hq
  rw [h (j + 1) q hq, Nat.mod_add_mod, Nat.add_assoc, Nat.add_comm 1]

section
variable {s e : Nat} {run : List Packet} {p : Packet}

theorem NumberedFrom.exists_of_mem (h : NumberedFrom s e run) (hs : s ≤ 65536) (he : e < s) (hp : p ∈ run) :
    ∃ j, run[j]? = some p ∧ p.seqnum.toInt = ((e + j) % s : Nat) := by
  obtain ⟨j, hj⟩ := List.mem_iff_getElem?.1 hp
  have hlt : (e + j) % s < s := Nat.mod_lt _ (by omega)
  exact ⟨j, hj, by rw [h j p hj, toInt_ofNat_small (by omega)]⟩

/-- A run of at most S numbers repeats none, so only its first packet carries the first number. -/
theorem NumberedFrom.eq_cons_of_first (h : NumberedFrom s e run) (hs : s ≤ 65536) (he : e < s) (hlen : run.length ≤ s)
    (hp : p ∈ run) (hnum : p.seqnum.toInt = e) : ∃ run', run = p :: run' := by
  obtain ⟨j, hj, hj'⟩ := h.exists_of_mem hs he hp
  obtain ⟨hjl, -⟩ := List.getElem?_eq_some_iff.1 hj
  have hmod : (e + j) % s = (e + 0) % s := by
    rw [Nat.add_zero, Nat.mod_eq_of_lt he]
    omega
  obtain rfl := add_mod_inj (by omega) (by omega) hmod
  cases run with
  | nil => cases hj
  | cons q run' => exact ⟨run', by rw [Option.some.inj hj]⟩

end

/-! ## The run a receiver still has to deliver -/

/-- The packets of `run`, numbered from the cursor, are those of `arriving` and those the valid slots hold, `buffered`. -/
structure Receiver.Splits (b : Receiver) (w s : Nat) (run arriving buffered : List Packet) : Prop where
  numbered : NumberedFrom s b.expectedseqnum run
  short : run.length ≤ w
  cursor : b.expectedseqnum < s
  split : (arriving ++ buffered).Perm run
  held : b.held.Perm (buffered.map slotOf)

/-- The packets of `run` are to be delivered next: those of `arriving` are to come, the others are buffered, and the cursor's is not
among those. -/
def Receiver.Awaits (b : Receiver) (w s : Nat) (run arriving : List Packet) : Prop :=
  b.findExpected = none ∧ ∃ buffered, b.Splits w s run arriving buffered

theorem Receiver.awaits_of_empty {b : Receiver} {w s : Nat} {run arriving : List Packet} (hocc : occupancy b = 0)
    (he : b.expectedseqnum < s) (hlen : run.length ≤ w) (hnum : NumberedFrom s b.expectedseqnum run) (hperm : arriving.Perm run) :
    b.Awaits w s run arriving := by
  refine ⟨Receiver.findExpected_none.2 fun k hv => absurd hv (by simp [occupancy_eq_zero.1 hocc k]), [], hnum, hlen, he,
    by rwa [List.append_nil], ?_⟩
  rw [occupancy_eq_held_length, List.length_eq_zero_iff] at hocc
  rw [hocc, List.map_nil]

theorem Receiver.Splits.toggled {b : Receiver} {w s : Nat} {run arriving buffered : List Packet}
    (h : b.Splits w s run arriving buffered) : b.toggled.Splits w s run arriving buffered :=
  ⟨h.numbered, h.short, h.cursor, h.split, h.held⟩

section
variable {b : Receiver} {w s : Nat} {run arriving buffered : List Packet} (hws : w < s) (hs : s ≤ 65536)
include hws hs

/-- The packet a valid slot with the cursor's number holds is the run's first. -/
theorem Receiver.Splits.eq_cons_of_found (h : b.Splits w s run arriving buffered) {k : Nat} (hk : b.findExpected = some k) :
    ∃ p run', p ∈ buffered ∧ b.slot k = slotOf p ∧ run = p :: run' := by
  obtain ⟨hv, hseq, -⟩ := Receiver.findExpected_some.1 hk
  obtain ⟨p, hp, hslot⟩ := List.mem_map.1 (h.held.mem_iff.1 (Receiver.slot_mem_held hv))
  have hrun : p ∈ run := h.split.mem_iff.1 (List.mem_append_right _ hp)
  obtain ⟨j, -, hnum⟩ := h.numbered.exists_of_mem hs h.cursor hrun
  have hcur : p.seqnum.toInt.toNat = b.expectedseqnum := by
    rw [← hseq, ← hslot]
    rfl
  have hshort := h.short
  obtain ⟨run', hcons⟩ := h.numbered.eq_cons_of_first hs h.cursor (by omega) hrun (by omega)
  exact ⟨p, run', hp, hslot.symm, hcons⟩

/-- Freeing that slot and advancing the cursor takes the first packet off the run. -/
theorem Receiver.Splits.pop (h : b.Splits w s run arriving buffered) {k : Nat} (hk : b.findExpected = some k) :
    ∃ p run' buffered', (b.slot k).payload = p.payload ∧ run = p :: run' ∧ (b.pop s k).Splits w s run' arriving buffered' := by
  obtain ⟨p, run', hp, hslot, rfl⟩ := h.eq_cons_of_found hws hs hk
  obtain ⟨hv, -⟩ := Receiver.findExpected_some.1 hk
  have hbuf : buffered.Perm (p :: buffered.erase p) := List.perm_cons_erase hp
  refine ⟨p, run', buffered.erase p, by rw [hslot]; rfl, rfl, h.numbered.tail, (Nat.le_succ _).trans h.short,
    Nat.mod_lt _ (by omega), ?_, ?_⟩
  · have hperm := (hbuf.append_left arriving).symm.trans h.split
    exact (List.perm_middle.symm.trans hperm).cons_inv
  · have hperm := (Receiver.pop_held hv s).trans (h.held.trans (hbuf.map slotOf))
    rw [hslot] at hperm
    exact hperm.cons_inv

/-- A drain delivers packets off the front of the run. -/
theorem Receiver.Splits.drain : ∀ {n : Nat} {b : Receiver} {run buffered : List Packet}, b.Splits w s run arriving buffered →
    ∃ done rest buffered', run = done ++ rest ∧ (Receiver.drain s n b).2 = done.map (fun p => p.payload) ∧
      (Receiver.drain s n b).1.Splits w s rest arriving buffered'
  | 0, _, run, buffered, h => ⟨[], run, buffered, rfl, rfl, h⟩
  | n + 1, b, run, buffered, h => by
    cases hf : b.findExpected with
    | none =>
      rw [Receiver.drain_of_none hf]
      exact ⟨[], run, buffered, rfl, rfl, h⟩
    | some k =>
      rw [Receiver.drain_of_some hf]
      obtain ⟨p, run', buffered₁, hpay, rfl, h₁⟩ := h.pop hws hs hf
      obtain ⟨done, rest, buffered₂, rfl, hdone, h₂⟩ := Receiver.Splits.drain (n := n) h₁
      exact ⟨p :: done, rest, buffered₂, rfl, by rw [hdone, hpay]; rfl, h₂⟩

/-- The cursor's packet, with the drain behind it, delivers packets off the front of the run and leaves none to deliver at once. -/
theorem Receiver.Splits.deliverAndDrain {p : Packet} (h : b.Splits w s run (p :: arriving) buffered)
    (hp : p.seqnum.toInt = b.expectedseqnum) :
    ∃ done rest, run = done ++ rest ∧ (b.deliverAndDrain s p.payload).2 = done.map (fun p => p.payload) ∧
      (b.deliverAndDrain s p.payload).1.Awaits w s rest arriving ∧
      (b.deliverAndDrain s p.payload).1.expectedseqnum = (b.expectedseqnum + done.length) % s := by
  have hshort := h.short
  obtain ⟨run', rfl⟩ := h.numbered.eq_cons_of_first hs h.cursor (by omega) (h.split.mem_iff.1 List.mem_cons_self) hp
  have hnext : (b.advance s).Splits w s run' arriving buffered :=
    ⟨h.numbered.tail, (Nat.le_succ _).trans h.short, Nat.mod_lt _ (by omega), h.split.cons_inv, h.held⟩
  obtain ⟨done, rest, buffered', rfl, hdone, hsplits⟩ := Receiver.Splits.drain hws hs (n := b.rbuf.length) hnext
  obtain ⟨c, ds, hc, hend, hcursor, -⟩ := b.deliverAndDrain_spec (s := s) (by omega) p.payload
  obtain ⟨rfl, hds⟩ := Prod.mk.inj hc
  obtain rfl := (List.cons.inj hds).2
  refine ⟨p :: done, rest, rfl, ?_, ⟨hend, buffered', hsplits⟩, ?_⟩
  · rw [hc, hdone]
    rfl
  · rw [hc, hcursor, hdone, List.length_map, List.length_cons, Nat.add_assoc, Nat.add_comm 1]

end

/-- Storing a packet that is not the cursor's moves it from those to come to the buffered ones. -/
theorem Receiver.Splits.store {b : Receiver} {w s k : Nat} {run arriving buffered : List Packet} {p : Packet}
    (h : b.Splits w s run (p :: arriving) buffered) (hend : b.findExpected = none) (hk : b.findFree = some k)
    (hp : p.seqnum.toInt.toNat ≠ b.expectedseqnum) :
    (b.store k p.seqnum.toInt.toNat p.payload).Awaits w s run arriving := by
  refine ⟨Receiver.findExpected_none.2 fun j hv => ?_, p :: buffered, h.numbered, h.short, h.cursor,
    List.perm_middle.trans h.split, (Receiver.store_held hk).trans (h.held.cons _)⟩
  rw [Receiver.store, Receiver.slot_set] at hv ⊢
  split_ifs at hv ⊢
  · exact hp
  · exact Receiver.findExpected_none.1 hend j hv

/-- With nothing more to come nothing is left of the run. -/
theorem Receiver.Awaits.eq_nil {b : Receiver} {w s : Nat} {run : List Packet} (hs : s ≤ 65536) (h : b.Awaits w s run []) :
    run = [] ∧ occupancy b = 0 := by
  obtain ⟨hend, buffered, h⟩ := h
  have hrun : run = [] := by
    by_contra hne
    obtain ⟨p, run', rfl⟩ := List.exists_cons_of_ne_nil hne
    have hp : p ∈ buffered := h.split.mem_iff.2 List.mem_cons_self
    obtain ⟨k, hk, hv⟩ := Receiver.exists_slot_of_mem_held (h.held.mem_iff.2 (List.mem_map_of_mem hp))
    have hcur := h.cursor
    refine Receiver.findExpected_none.1 hend k (by rw [hk]; exact hv) ?_
    rw [hk]
    show p.seqnum.toInt.toNat = _
    rw [h.numbered 0 p rfl, Nat.add_zero, Nat.mod_eq_of_lt hcur, toInt_ofNat_small (by omega), Int.toNat_natCast]
  subst hrun
  refine ⟨rfl, ?_⟩
  rw [occupancy_eq_held_length, h.held.length_eq, List.length_map]
  exact congrArg List.length h.split.eq_nil

/-! ## Commands -/

/-- A command took the block from `s` to `t`: it delivered `done` off the front of a run, moved the cursor past it, and leaves the rest of
the run to deliver. -/
structure State.Delivers (s t : State) (done rest arriving : List Packet) : Prop where
  reply : ∃ r, t.replies = s.replies ++ [r] ∧ deliveredPayloads r.events = done.map (fun p => p.payload)
  cursor : t.b.expectedseqnum = (s.b.expectedseqnum + done.length) % s.par.s
  awaits : t.b.Awaits s.par.w s.par.s rest arriving

theorem exec_bPktIn_delivers {s : State} {p : Packet} {run arriving : List Packet} (hinv : s.Inv) (hcor : corrupt s.par p = false)
    (h : s.b.Awaits s.par.w s.par.s run (p :: arriving)) :
    ∃ t done rest, exec (.bPktIn p) s = .next t ∧ run = done ++ rest ∧ s.Delivers t done rest arriving := by
  obtain ⟨⟨-, -, hws, hs, -⟩, -, ⟨hlen, -⟩, -⟩ := hinv
  obtain ⟨hend, buffered, h⟩ := h
  have hcur := h.cursor
  have hp : p ∈ run := h.split.mem_iff.1 List.mem_cons_self
  obtain ⟨j, hj, hnum⟩ := h.numbered.exists_of_mem hs hcur hp
  obtain ⟨hjl, -⟩ := List.getElem?_eq_some_iff.1 hj
  have hq : (s.b.expectedseqnum + j) % s.par.s < s.par.s := Nat.mod_lt _ (by omega)
  have hr : ¬ (p.seqnum.toInt < 0 ∨ (s.par.s : Int) ≤ p.seqnum.toInt) := by omega
  by_cases hexp : p.seqnum.toInt = s.b.expectedseqnum
  · obtain ⟨done, rest, hrun, hdone, hawaits, hcursor⟩ := h.toggled.deliverAndDrain hws hs hexp
    refine ⟨_, done, rest, exec_bPktIn_expected hcor hr hexp, hrun, ⟨_, rfl, ?_⟩, hcursor, hawaits⟩
    rw [deliveredPayloads_ack_cons, hdone]
  · have hoff : s.b.offset s.par.s p.seqnum.toInt < s.par.w := by
      have hshort := h.short
      rw [hnum, Receiver.offset_eq_seqOffset hcur hq, Receiver.seqOffset_ahead hcur (by omega)]
      omega
    obtain ⟨k, hk⟩ : ∃ k, s.b.findFree = some k := by
      have hsum := h.split.length_eq
      have hshort := h.short
      rw [List.length_append, List.length_cons] at hsum
      rw [findFree_isSome, occupancy_eq_held_length, h.held.length_eq, List.length_map]
      omega
    have hne : p.seqnum.toInt.toNat ≠ s.b.toggled.expectedseqnum := by
      show _ ≠ s.b.expectedseqnum
      omega
    exact ⟨_, [], run, exec_bPktIn_store hcor hr hexp hoff hk, rfl, ⟨_, rfl, rfl⟩, (Nat.mod_eq_of_lt hcur).symm,
      h.toggled.store hend hk hne⟩

theorem packetsIn_cons_of_not_receiverCommand {i : Instr} (hi : receiverCommand i = false) (cmds : List Instr) :
    packetsIn (i :: cmds) = packetsIn cmds := by
  cases i with
  | bInit => cases hi
  | bPktIn p => cases hi
  | _ => rfl

/-- Every command but B_INIT delivers off the front of the run, possibly nothing. -/
theorem exec_delivers {s : State} {i : Instr} {cmds : List Instr} {run : List Packet} (hinv : s.Inv) (hi : i ≠ .bInit)
    (hcor : ∀ p, p ∈ packetsIn (i :: cmds) → corrupt s.par p = false)
    (h : s.b.Awaits s.par.w s.par.s run (packetsIn (i :: cmds))) :
    ∃ t done rest, exec i s = .next t ∧ run = done ++ rest ∧ s.Delivers t done rest (packetsIn cmds) := by
  cases hrc : receiverCommand i with
  | true =>
    cases i with
    | bInit => exact absurd rfl hi
    | bPktIn p => exact exec_bPktIn_delivers hinv (hcor p List.mem_cons_self) h
    | _ => cases hrc
  | false =>
    rw [packetsIn_cons_of_not_receiverCommand hrc] at h
    obtain ⟨t, r, hnext, hr, hnone, hb, -⟩ := exec_leavesReceiver hrc s
    obtain ⟨-, -, ⟨-, hcur, -⟩, -⟩ := hinv
    refine ⟨t, [], run, hnext, rfl, ⟨r, hr, hnone⟩, ?_, hb ▸ h⟩
    rw [hb]
    exact (Nat.mod_eq_of_lt hcur).symm

theorem execAll_cons {i : Instr} {s t : State} (h : exec i s = .next t) (cmds : List Instr) :
    execAll (i :: cmds) s = execAll cmds t := by
  rw [execAll, h]

/-- The commands that bring the packets still to come deliver the whole run. -/
theorem execAll_delivers : ∀ {cmds : List Instr} {s : State} {run : List Packet}, s.Inv → Instr.bInit ∉ cmds →
    (∀ p, p ∈ packetsIn cmds → corrupt s.par p = false) → s.b.Awaits s.par.w s.par.s run (packetsIn cmds) →
    ∃ t rs, execAll cmds s = .next t ∧ t.replies = s.replies ++ rs ∧
      deliveredPayloads (rs.flatMap (fun r => r.events)) = run.map (fun p => p.payload) ∧ occupancy t.b = 0 ∧
      t.b.expectedseqnum = (s.b.expectedseqnum + run.length) % s.par.s
  | [], s, run, hinv, _, _, h => by
    obtain ⟨⟨-, -, -, hs, -⟩, -, ⟨-, hcur, -⟩, -⟩ := hinv
    obtain ⟨rfl, hocc⟩ := h.eq_nil hs
    exact ⟨s, [], rfl, (List.append_nil _).symm, rfl, hocc, (Nat.mod_eq_of_lt hcur).symm⟩
  | i :: cmds, s, run, hinv, hinit, hcor, h => by
    obtain ⟨t, done, rest, hnext, rfl, ⟨⟨r, hr, hdone⟩, hcursor, hawaits⟩⟩ :=
      exec_delivers hinv (List.ne_of_not_mem_cons hinit).symm hcor h
    have hpar := exec_par hnext
    have hsub : ∀ p, p ∈ packetsIn cmds → p ∈ packetsIn (i :: cmds) := fun p hp =>
      (List.Sublist.filterMap _ (List.sublist_cons_self i cmds)).subset hp
    obtain ⟨u, rs, hrun, hrs, hdel, hocc, hend⟩ := execAll_delivers (run := rest) (exec_inv hinv hnext)
      (List.not_mem_of_not_mem_cons hinit) (fun p hp => hpar ▸ hcor p (hsub p hp)) (hpar ▸ hawaits)
    refine ⟨u, r :: rs, (execAll_cons hnext cmds).trans hrun, ?_, ?_, hocc, ?_⟩
    · rw [hrs, hr, List.append_assoc]
      rfl
    · rw [List.flatMap_cons, deliveredPayloads_append, hdone, hdel, List.map_append]
    · rw [hend, hpar, hcursor, Nat.mod_add_mod, List.length_append, Nat.add_assoc]

theorem newEvents_of_replies {s t : State} {rs : List Reply} (h : t.replies = s.replies ++ rs) :
    newEvents s t = rs.flatMap (fun r => r.events) := by
  rw [newEvents, h, List.drop_left]

/-- Settles O43, by induction on the commands: at first the whole run is still to arrive, at the end nothing of it is left. -/
theorem inOrderDeliveryLaw : Obligations.InOrderDeliveryLaw := by
  intro s run cmds hinv hocc hlen hnum hvalid hperm hinit
  obtain ⟨-, -, ⟨-, hcur, -⟩, -⟩ := id hinv
  obtain ⟨t, rs, hrun, hrs, hdel, hempty, hcursor⟩ := execAll_delivers hinv hinit
    (fun p hp => hvalid p (hperm.mem_iff.1 hp)) (Receiver.awaits_of_empty hocc hcur hlen hnum hperm)
  exact ⟨t, hrun, by rw [newEvents_of_replies hrs, hdel], hempty, hcursor⟩

end Sys2Proof.Machine

/-! The control commands (43_control.md): NOP (R200), REG_READ's two outcomes (R201), and the illegal command (R202), whose mark only the reset
input clears. -/

namespace Sys2Proof.Machine

/-! ## NOP (R200) -/

/-- Settles O44: an all-zero command word has LEN 0, so an operand makes it illegal. -/
theorem nopChangesNothing : Obligations.NopChangesNothing := by
  refine ⟨fun _ => rfl, rfl, ?_⟩
  rintro opnd hne ⟨-, -, -, -, hlen⟩
  exact hne (List.length_eq_zero_iff.1 hlen)

/-! ## REG_READ (R201) -/

/-- An index that `assigned(idx)` accepts names a register. -/
theorem exists_regValue_of_assigned {s : State} {n : Nat} (hw : s.par.w ≤ 32) (h : AssignedIndex s.par.w n) :
    ∃ v, regValue s n = some v := by
  rcases h with hid | ⟨hlo, hhi⟩ | ⟨hlo, hhi⟩ | ⟨hlo, hhi⟩ | ⟨hlo, hhi⟩ | ⟨hlo, hhi⟩
  · interval_cases n <;> exact ⟨_, rfl⟩
  · interval_cases n <;> exact ⟨_, rfl⟩
  · interval_cases n <;> exact ⟨_, rfl⟩
  · interval_cases n <;> exact ⟨_, rfl⟩
  · obtain ⟨k, rfl⟩ := Nat.exists_eq_add_of_le hlo
    exact ⟨_, regValue_aSlot hw (Nat.lt_of_add_lt_add_left hhi)⟩
  · obtain ⟨k, rfl⟩ := Nat.exists_eq_add_of_le hlo
    exact ⟨_, regValue_bSlot hw (Nat.lt_of_add_lt_add_left hhi)⟩

/-- Settles O47: `assigned(idx)` holds exactly of the indices that name a register. -/
theorem unassignedIndexOnlyMarks : Obligations.UnassignedIndexOnlyMarks := fun _ _ hw =>
  ⟨fun hidx => (exists_regValue_of_assigned hw hidx).imp fun _ => readsAs_of_regValue,
    fun hidx => exec_regRead_unassigned (regValue_of_not_assigned hidx)⟩

/-! ## What a command does to the sticky bits (60_exceptions.md R222) -/

/-- The command ends with a response that reports no interface error, and leaves the sticky bits as they were. -/
def EndsWithoutError (i : Instr) (s : State) : Prop := ∃ (u : State) (st : Status) (n : Nat) (d : Option Word) (evs : List Event),
  exec i s = .next (u.respond st n d evs) ∧ u.replies = s.replies ∧ u.err = s.err ∧ statusCode st < 0x80#8

/-- The command does nothing but raise an interface error, and not that of an illegal command. -/
def OnlyRaises (i : Instr) (s : State) : Prop := ∃ x d, exec i s = .next (s.raise x d) ∧ x ≠ .illegalCmd

theorem endsWithoutError_aSubmit (m : Message) (s : State) : EndsWithoutError (.aSubmit m) s := by
  by_cases hc : s.a.windowcount = s.par.w
  · exact ⟨_, _, _, _, _, exec_aSubmit_full hc, rfl, rfl, by decide⟩
  · exact ⟨_, _, _, _, _, exec_aSubmit_room hc, rfl, rfl, by decide⟩

theorem endsWithoutError_aAckIn (p : Packet) (s : State) : EndsWithoutError (.aAckIn p) s := by
  cases hcor : corrupt s.par p with
  | true => exact ⟨_, _, _, _, _, exec_aAckIn_corrupt hcor, rfl, rfl, by decide⟩
  | false =>
    refine ⟨_, _, _, _, _, exec_aAckIn_valid hcor, rfl, rfl, ?_⟩
    cases (s.a.findUnacked s.par.w p.acknum).isSome <;> decide

theorem endsWithoutError_bPktIn (p : Packet) (s : State) : EndsWithoutError (.bPktIn p) s := by
  rcases bPktIn_cases s p with hcor | ⟨hcor, hout | ⟨hr, hexp | ⟨hne, hoff, hnone | ⟨k, hk⟩⟩⟩⟩
  · exact ⟨_, _, _, _, _, exec_bPktIn_corrupt hcor, rfl, rfl, by decide⟩
  · exact ⟨_, _, _, _, _, exec_bPktIn_outside hcor hout, rfl, rfl, by decide⟩
  · exact ⟨_, _, _, _, _, exec_bPktIn_expected hcor hr hexp, rfl, rfl, by decide⟩
  · exact ⟨_, _, _, _, _, exec_bPktIn_drop hcor hr hne hoff hnone, rfl, rfl, by decide⟩
  · exact ⟨_, _, _, _, _, exec_bPktIn_store hcor hr hne hoff hk, rfl, rfl, by decide⟩

theorem endsWithoutError_chkEval (p : Packet) (s : State) : EndsWithoutError (.chkEval p) s := by
  refine ⟨_, _, _, _, _, rfl, rfl, rfl, ?_⟩
  cases corrupt s.par p <;> decide

/-- A legal command raises no error but those of A_TIMEOUT and REG_READ. -/
theorem exec_endsWithoutError_or_onlyRaises (i : Instr) (s : State) : EndsWithoutError i s ∨ OnlyRaises i s := by
  cases i with
  | nop => exact .inl ⟨_, _, _, _, _, rfl, rfl, rfl, by decide⟩
  | aInit => exact .inl ⟨_, _, _, _, _, rfl, rfl, rfl, by decide⟩
  | aSubmit m => exact .inl (endsWithoutError_aSubmit m s)
  | aAckIn p => exact .inl (endsWithoutError_aAckIn p s)
  | aTimeout =>
    cases harm : s.tmrArmed with
    | false => exact .inr ⟨_, _, exec_aTimeout_idle harm, by decide⟩
    | true => exact .inl ⟨_, _, _, _, _, exec_aTimeout_armed harm, rfl, rfl, by decide⟩
  | bInit => exact .inl ⟨_, _, _, _, _, rfl, rfl, rfl, by decide⟩
  | bPktIn p => exact .inl (endsWithoutError_bPktIn p s)
  | chkEval p => exact .inl (endsWithoutError_chkEval p s)
  | regRead idx =>
    cases hv : regValue s idx.toNat with
    | some v => exact .inl ⟨s, .ok, 0, some v, [], readsAs_of_regValue hv, rfl, rfl, by decide⟩
    | none => exact .inr ⟨_, _, exec_regRead_unassigned hv, by decide⟩

theorem setSticky_illegal {x : IfError} (h : x ≠ .illegalCmd) (e : Sticky) : (setSticky x e).illegal = e.illegal := by
  cases x with
  | illegalCmd => exact absurd rfl h
  | badReg => rfl
  | timerIdle => rfl

/-- No legal command writes ERR_ILLEGAL (R35). -/
theorem exec_err_illegal {i : Instr} {s t : State} (h : exec i s = .next t) : t.err.illegal = s.err.illegal := by
  rcases exec_endsWithoutError_or_onlyRaises i s with ⟨u, st, n, d, evs, hu, -, herr, -⟩ | ⟨x, d, hu, hx⟩ <;> cases hu.symm.trans h
  · exact congrArg Sticky.illegal herr
  · exact setSticky_illegal hx s.err

/-! ## The illegal command (R202) -/

theorem step_of_illegal {s : State} {c : Command} {rest : List Stimulus} (hp : s.pending = .command c :: rest) (h : ¬ LegalCommand c) :
    step s = .next ((s.taken rest).raise .illegalCmd none) :=
  legalityDecidesExecution.2 s c rest hp h

/-- REG_READ STATUS answers `statusReg`. -/
theorem step_of_readStatus {s : State} {rest : List Stimulus} (hp : s.pending = .command ⟨0x00020040#32, []⟩ :: rest) :
    step s = .next ((s.taken rest).answered 0x00000000#32 (some (statusReg s.tmrArmed s.err))) :=
  (stepRunsTheDecodedCommand s _ rest (.regRead 0x02#8) hp rfl).trans (readsAs_of_regValue rfl)

/-- Once set, ERR_ILLEGAL is clear after a step exactly where that step takes the reset input (R35, R225). -/
theorem illegal_cleared_iff_reset {s t : State} (hset : s.err.illegal = true) (hs : step s = .next t) :
    t.err.illegal = false ↔ s.pending.head? = some .reset := by
  rcases step_cases s with ⟨hp, he⟩ | ⟨rest, hp, he⟩ | ⟨c, rest, i, hp, -, he⟩ | ⟨c, rest, e, hp, -, he⟩ <;> rw [he] at hs
  · cases hs
    simp [hp, hset]
  · cases hs
    simp [hp, Sticky.clear]
  · simp [hp, exec_err_illegal hs, hset]
  · cases hs
    simp [hp, setSticky]

/-- The example of R202: the mark of an illegal command is read in STATUS. -/
theorem illegal_then_readStatus {s : State} (hp : s.pending = [.command ⟨0x000000FF#32, []⟩, .command ⟨0x00020040#32, []⟩]) :
    ∃ t u v, step s = .next t ∧ step t = .next u ∧
      u.replies = s.replies ++ [⟨⟨0x00000080#32, none⟩, []⟩, ⟨⟨0x00000000#32, some v⟩, []⟩] ∧ v.getLsbD 1 = true := by
  obtain ⟨-, hillegal, -⟩ := statusReg_fields s.tmrArmed (setSticky .illegalCmd s.err)
  exact ⟨_, _, _, step_of_illegal hp (by decide), step_of_readStatus rfl, List.append_assoc .., hillegal⟩

/-- Settles O8: what fails R87 raises ERR_ILLEGAL_CMD, each corner case fails one of R87's conditions, and no other command writes the mark. -/
theorem illegalCommandOnlyMarks : Obligations.IllegalCommandOnlyMarks := by
  refine ⟨fun s c rest => step_of_illegal, rfl, ?_, ?_, ?_, fun s => illegal_then_readStatus, fun s t => illegal_cleared_iff_reset⟩
  · rintro cw opnd hne ⟨-, -, -, -, hlen⟩
    exact hne hlen
  · rintro cw opnd hopc hreg ⟨-, -, -, hor, -⟩
    exact hor.elim hopc hreg
  · rintro cw opnd hne ⟨-, hrsv0, hrsv1, -⟩
    exact hne.elim (absurd hrsv0) (absurd hrsv1)

end Sys2Proof.Machine

/-! The exceptions (60_exceptions.md): an idle block (R234), that nothing is fatal (R221), the sticky bits (R222, R225), and the timer between a
dutiful host and the block (R226 to R231). -/

namespace Sys2Proof.Machine

/-! ## Every step goes on (R221, R234) -/

/-- Settles O10: an empty queue is the first case of `step`. -/
theorem idleBlockHoldsItsState : Obligations.IdleBlockHoldsItsState := by
  intro s hp
  unfold step
  rw [hp]

/-- Settles O11: what each kind of step does to the queue and the parameters. -/
theorem everyStepGoesOn : Obligations.EveryStepGoesOn := by
  intro s
  rcases step_cases s with ⟨hp, he⟩ | ⟨rest, hp, he⟩ | ⟨c, rest, i, hp, -, he⟩ | ⟨c, rest, e, hp, -, he⟩
  · exact ⟨s, he, by rw [hp, List.tail_nil], rfl⟩
  · exact ⟨_, he, (congrArg List.tail hp).symm, rfl⟩
  · obtain ⟨t, -, -, -, -, hexec, -, hpar, hpend⟩ := exec_reply i (s.taken rest)
    exact ⟨t, he.trans hexec, hpend.trans (congrArg List.tail hp).symm, hpar⟩
  · exact ⟨_, he, (congrArg List.tail hp).symm, rfl⟩

/-! ## The sticky bits (R222, R225) -/

/-- From `s` to `t` one reply is added, and each sticky bit is set where its status code is answered and else kept. -/
def State.MarksAsAnswered (s t : State) : Prop := ∃ r, t.replies = s.replies ++ [r] ∧
  t.err.illegal = (s.err.illegal || decide (r.statusField = 0x80#8)) ∧
  t.err.badReg = (s.err.badReg || decide (r.statusField = 0x81#8)) ∧
  t.err.timer = (s.err.timer || decide (r.statusField = 0x82#8))

/-- Raising an error sets its own bit and answers its own code. -/
theorem State.raise_marksAsAnswered (s : State) (x : IfError) (d : Option Word) : s.MarksAsAnswered (s.raise x d) := by
  refine ⟨_, rfl, ?_⟩
  rw [Reply.statusField_mk]
  cases x <;> simp [State.raise, State.respond, setSticky, errorStatus, statusCode]

theorem exec_marksAsAnswered {i : Instr} {s t : State} (he : exec i s = .next t) : s.MarksAsAnswered t := by
  rcases exec_endsWithoutError_or_onlyRaises i s with ⟨u, st, n, d, evs, hu, hrep, herr, hcode⟩ | ⟨x, d, hu, -⟩ <;>
    cases hu.symm.trans he
  · refine ⟨_, congrArg (· ++ _) hrep, ?_⟩
    have hne : ∀ b : Byte, 0x80#8 ≤ b → statusCode st ≠ b := fun b hb heq => by bv_omega
    rw [Reply.statusField_mk]
    simp [herr, hne]
  · exact s.raise_marksAsAnswered x d

/-- Settles O55: the pending command runs as what it decodes to, or is illegal and raises. -/
theorem stickyBitsStayUntilReset : Obligations.StickyBitsStayUntilReset := by
  intro s t c rest hp hs
  rw [step_of_command hp] at hs
  cases hd : decode c with
  | ok i =>
    rw [runCommand_of_ok hd] at hs
    exact exec_marksAsAnswered (s := s.taken rest) hs
  | error e =>
    rw [runCommand_of_error hd] at hs
    cases hs
    exact (s.taken rest).raise_marksAsAnswered .illegalCmd none

/-! ## A command that meets a running timer (R226, R228, R229) -/

/-- Only A_TIMEOUT answers ERR_TIMER_IDLE (R90). -/
theorem eq_aTimeout_of_errTimerIdle {i : Instr} (h : .errTimerIdle ∈ instrStatuses i) : i = .aTimeout := by
  cases i with
  | aTimeout => rfl
  | _ => simp at h

/-- A command that is not an A_TIMEOUT on an idle timer does not write ERR_TIMER. -/
theorem exec_err_timer {i : Instr} {s t : State} (hdue : i = .aTimeout → s.tmrArmed = true) (he : exec i s = .next t) :
    t.err.timer = s.err.timer := by
  by_cases hi : i = .aTimeout
  · subst hi
    cases (exec_aTimeout_armed (hdue rfl)).symm.trans he
    rfl
  · obtain ⟨t', st, n, d, evs, ha⟩ := exec_answered i s
    cases ha.next.symm.trans he
    obtain ⟨r, hr, -, -, htimer⟩ := exec_marksAsAnswered he
    obtain rfl : _ = r := List.singleton_inj.1 (List.append_cancel_left (ha.reply.symm.trans hr))
    have hst : statusCode st ≠ 0x82#8 := fun h =>
      hi (eq_aTimeout_of_errTimerIdle (statusCode_injective (y := .errTimerIdle) h ▸ ha.status))
    rw [htimer, Reply.statusField_mk, decide_eq_false hst, Bool.or_false]

/-- In a legal state with a timer start outstanding, A_TIMEOUT's last event is a new start: the window is not empty (R29, R134). -/
theorem exec_aTimeout_restarts {s t : State} (h : s.TimerOk) (harm : s.tmrArmed = true) (he : exec .aTimeout s = .next t) :
    ∃ evs, newEvents s t = evs ++ [.tmrStart s.par.rtt] := by
  cases (exec_aTimeout_armed harm).symm.trans he
  refine ⟨(s.a.unackedSlots s.par.w).map fun k => .txA (s.a.packet k), ?_⟩
  rw [newEvents_of_replies rfl, List.flatMap_singleton, startEvents, if_pos (decide_eq_true (h.1 harm))]

/-- A command takes the block from `s` to the legal state `t`, its events drive the timer to TMR_ARMED, from idle where it is an A_TIMEOUT, and
it leaves ERR_TIMER. An A_TIMEOUT starts the timer again. -/
structure State.TimedRun (s t : State) (timeout : Bool) : Prop where
  inv : t.Inv
  driven : timerAfter (s.tmrArmed && !timeout) (newEvents s t) = some t.tmrArmed
  restarted : timeout = true → ∃ evs n, newEvents s t = evs ++ [.tmrStart n]
  unmarked : t.err.timer = s.err.timer

/-- Taking a stimulus off the queue changes nothing a timed run speaks of. -/
theorem State.TimedRun.of_taken {s t : State} {rest : List Stimulus} {timeout : Bool} (h : (s.taken rest).TimedRun t timeout) :
    s.TimedRun t timeout := ⟨h.inv, h.driven, h.restarted, h.unmarked⟩

theorem exec_timedRun {s : State} {i : Instr} (hinv : s.Inv) (hdue : i = .aTimeout → s.tmrArmed = true) :
    ∃ t, exec i s = .next t ∧ s.TimedRun t (i == .aTimeout) := by
  obtain ⟨-, -, -, ht⟩ := id hinv
  obtain ⟨t, r, he, hr, hevents⟩ := exec_timerAfter ht i
  refine ⟨t, he, exec_inv hinv he, ?_, fun hi => ?_, exec_err_timer hdue he⟩
  · rw [newEvents_of_replies hr, List.flatMap_singleton]
    rwa [decide_not, ← beq_eq_decide] at hevents
  · obtain rfl := beq_iff_eq.1 hi
    obtain ⟨evs, hevs⟩ := exec_aTimeout_restarts ht (hdue rfl) he
    exact ⟨evs, _, hevs⟩

theorem isTimeout_of_ok {c : Command} {i : Instr} (h : decode c = .ok i) : isTimeout (.command c) = (i == .aTimeout) := by
  simp [isTimeout, h]

theorem isTimeout_of_error {c : Command} {e : DecodeError} (h : decode c = .error e) : isTimeout (.command c) = false := by
  simp [isTimeout, h]

theorem runCommand_timedRun {s : State} {c : Command} (hinv : s.Inv) (hdue : isTimeout (.command c) = true → s.tmrArmed = true) :
    ∃ t, runCommand c s = .next t ∧ s.TimedRun t (isTimeout (.command c)) := by
  cases hd : decode c with
  | ok i =>
    rw [isTimeout_of_ok hd] at hdue ⊢
    rw [runCommand_of_ok hd]
    exact exec_timedRun hinv fun hi => hdue (beq_iff_eq.2 hi)
  | error e =>
    rw [isTimeout_of_error hd, runCommand_of_error hd]
    refine ⟨_, rfl, hinv, ?_, nofun, rfl⟩
    rw [newEvents_of_replies rfl]
    simp [State.raise, State.respond, timerAfter]

/-! ## The moves of the surroundings (R230, R231) -/

/-- What a dutiful move keeps: the block's invariants, the agreement on the timer, and a clear ERR_TIMER. -/
def World.Keeps (w w' : World) : Prop :=
  w'.block.Inv ∧ w'.TimerAgrees ∧ (w.block.err.timer = false → w'.block.err.timer = false)

/-- The block is as before but for the host's queue, and the timer but for an expiry. -/
structure World.BlockRests (w w' : World) : Prop where
  block : ∃ q, w'.block = w.block.taken q
  outstanding : w'.outstanding = w.outstanding
  timer : w'.timer = none ∨ w'.timer = w.timer

theorem World.BlockRests.keeps {w w' : World} (h : w.BlockRests w') (hinv : w.block.Inv) (hagree : w.TimerAgrees) : w.Keeps w' := by
  obtain ⟨⟨q, hblock⟩, hout, htimer⟩ := h
  obtain ⟨harmed, hruns⟩ := hagree
  unfold World.Keeps World.TimerAgrees
  rw [hblock, hout]
  exact ⟨hinv, ⟨harmed, htimer.elim .inl fun h => h ▸ hruns⟩, id⟩

theorem World.blockRests_of_eq {w w' : World} (hb : w'.block = w.block) (ho : w'.outstanding = w.outstanding) (ht : w'.timer = w.timer) :
    w.BlockRests w' := ⟨⟨w.block.pending, hb⟩, ho, .inr ht⟩

theorem World.handHost_blockRests {w v : World} (x : Stimulus) (hb : v.block = w.block) (ho : v.outstanding = w.outstanding)
    (ht : v.timer = none ∨ v.timer = w.timer) : w.BlockRests (v.handHost x) :=
  ⟨⟨w.block.pending ++ [x], by rw [World.handHost_block, hb]; rfl⟩, ho, ht⟩

/-- What a move can do: let the block rest, issue a pending stimulus, or reset. -/
theorem World.move_cases {w w' : World} {m : Move} (h : w.move m = some w') : w.BlockRests w' ∨
    (∃ i x, m = .issue i ∧ w.block.pending[i]? = some x ∧ w.issueNext x (w.block.pending.eraseIdx i) = some w') ∨
    ∃ timer channels application, m = .reset timer channels application ∧
      w' = { w.resetCollaborators timer channels application with block := w.block.hardReset } := by
  cases m <;> simp only [World.move] at h
  case issue i =>
    split at h
    · cases h
    · exact .inr (.inl ⟨i, _, rfl, ‹_›, h⟩)
  case reset timer channels application =>
    cases h
    exact .inr (.inr ⟨timer, channels, application, rfl, rfl⟩)
  all_goals left
  case originate | dropAB | dropBA | corruptAB | corruptBA =>
    split_ifs at h
    cases h
    exact World.blockRests_of_eq rfl rfl rfl
  case copyAB | copyBA =>
    split at h <;> cases h
    exact World.blockRests_of_eq rfl rfl rfl
  case submit | deliverAB | deliverBA =>
    split at h <;> cases h
    exact World.handHost_blockRests _ rfl rfl (.inr rfl)
  case expire =>
    split at h <;> cases h
    exact World.handHost_blockRests _ rfl rfl (.inl rfl)
  case ask c =>
    cases h
    exact World.handHost_blockRests _ rfl rfl (.inr rfl)
  case withdraw i =>
    split_ifs at h
    cases h
    exact ⟨⟨_, rfl⟩, rfl, .inr rfl⟩

/-- The host and the timer, having taken a timed run's events, agree with the block again. -/
theorem State.TimedRun.absorbed {w : World} {t : State} {timeout : Bool} (h : w.block.TimedRun t timeout) (hagree : w.TimerAgrees) :
    w.Keeps ((newEvents w.block t).foldl absorb { w with block := t, outstanding := if timeout then none else w.outstanding }) := by
  obtain ⟨harmed, hruns⟩ := hagree
  unfold World.Keeps World.TimerAgrees
  rw [absorb_foldl_block]
  refine ⟨h.inv, ⟨absorb_foldl_outstanding _ _ _ ?_, ?_⟩, fun herr => h.unmarked.trans herr⟩
  · rw [← h.driven, ← harmed]
    cases timeout <;> simp
  · cases timeout with
    | false => exact absorb_foldl_timer _ _ hruns
    | true =>
      obtain ⟨evs, n, hevs⟩ := h.restarted rfl
      rw [hevs]
      exact .inr (absorb_foldl_timer_of_start ..)

/-- Issuing a stimulus the host may issue: where it is an A_TIMEOUT, a start is outstanding, so TMR_ARMED is 1. -/
theorem World.issueNext_keeps {w w' : World} {x : Stimulus} {rest : List Stimulus} (hinv : w.block.Inv) (hagree : w.TimerAgrees)
    (hmay : w.mayIssue x = true) (h : w.issueNext x rest = some w') : w.Keeps w' := by
  cases x with
  | reset => cases hmay
  | command c =>
    have hdue : isTimeout (.command c) = true → w.block.tmrArmed = true := fun ht => by
      simpa [World.mayIssue, ht, hagree.1] using hmay
    obtain ⟨t, hrun, htimed⟩ := runCommand_timedRun (s := w.block.taken rest) (c := c) hinv hdue
    have hstep : step ((w.block.taken rest).offer (.command c)) = .next t := (step_of_command rfl).trans hrun
    rw [World.issueNext_eq hstep] at h
    cases h
    exact htimed.of_taken.absorbed hagree

/-- A reset of the block and the timer leaves no start on either side. -/
theorem World.reset_keeps {w : World} (hlegal : w.block.par.Legal) (channels application : Bool) :
    w.Keeps { w.resetCollaborators true channels application with block := w.block.hardReset } :=
  ⟨State.resetWith_inv hlegal, ⟨rfl, .inl rfl⟩, fun _ => rfl⟩

/-- Settles O59: boot is a reset state, and each kind of dutiful move keeps the agreement. -/
theorem dutifulHostNeverMeetsAnIdleTimer : Obligations.DutifulHostNeverMeetsAnIdleTimer := by
  refine ⟨fun p hp => ⟨State.resetWith_inv hp, rfl, .inl rfl⟩, fun w w' m hinv hagree hduty hmove => ?_⟩
  rcases World.move_cases hmove with hrest | ⟨i, x, rfl, hx, hissue⟩ | ⟨timer, channels, application, rfl, rfl⟩
  · exact hrest.keeps hinv hagree
  · have hmay : w.mayIssue x = true := by simpa [World.dutiful, hx] using hduty
    exact World.issueNext_keeps hinv hagree hmay hissue
  · simp only [World.dutiful, Bool.and_eq_true] at hduty
    obtain ⟨⟨rfl, -⟩, -⟩ := hduty
    obtain ⟨hlegal, -⟩ := hinv
    exact World.reset_keeps hlegal channels application

end Sys2Proof.Machine

/-! Hardware reset (70_reset_and_hazards.md): what it sets (R260), against A_INIT and B_INIT (R263), and what it leaves in the block's
surroundings (R261, R262); and the ack that postpones the timer (R267). -/

namespace Sys2Proof.Machine

/-! ## The ack hazard (R267) -/

/-- Settles O28: a window still open after the ack was open before it, so the timer ran, and it is started again. -/
theorem ackPostponesTheTimer : Obligations.AckPostponesTheTimer := by
  intro s t p hinv hvalid he hopen
  obtain ⟨-, -, -, htimer⟩ := id hinv
  obtain ⟨b, n, hafter⟩ : ∃ b n, s.a.afterAck s.par.w p.acknum = (b, n) := ⟨_, _, rfl⟩
  obtain ⟨-, -, -, hcount⟩ := Sender.afterAck_frame s.a s.par.w p.acknum
  simp only [hafter] at hcount
  cases (exec_aAckIn_of_inv hinv hvalid hafter).symm.trans he
  change 0 < b.windowcount at hopen
  have hstart : decide (0 < b.windowcount) = true := decide_eq_true hopen
  have harmed : s.tmrArmed = true := htimer.2 (by omega)
  refine ⟨_, rfl, ?_, hstart⟩
  rw [harmed, hstart, stop_start_events, if_pos rfl]

/-! ## The reset input (R260, R263) -/

theorem step_of_reset {s : State} {rest : List Stimulus} (h : s.pending = .reset :: rest) :
    step s = .next (s.taken rest).hardReset := by
  unfold step
  rw [h]
  rfl

theorem Receiver.reset_slot_valid (p : Params) (k : Nat) : ((Receiver.reset p).slot k).valid = false := by
  rw [Receiver.reset_slot]
  rfl

/-- Settles O9: the record of reset values, whatever it replaces; no slot of the empty reorder buffer is valid. -/
theorem resetInputResetsEveryElement : Obligations.ResetInputResetsEveryElement := fun s _ hp =>
  ⟨_, step_of_reset hp, rfl, rfl, rfl, rfl, rfl, rfl, rfl, rfl, List.length_replicate, rfl, rfl, rfl, List.length_replicate,
    Receiver.reset_slot_valid s.par, rfl, rfl⟩

/-- Settles O57: reset replaces both engines, A_INIT only the sender, B_INIT only the receiver. -/
theorem resetAgainstInit : Obligations.ResetAgainstInit := by
  intro s _
  obtain ⟨b, hb, hexpected, hackseq, -, hfree, ha, harmed, hcnt, herr, -, -, hreplies⟩ := bInitResetsTheReceiver s
  exact ⟨_, _, b, step_of_reset rfl, aInitResetsTheSender s, hb, ⟨rfl, rfl, rfl, rfl, rfl⟩, ⟨rfl, rfl, rfl, rfl, rfl⟩, ha,
    rfl, rfl, harmed, ⟨rfl, rfl, Receiver.reset_slot_valid s.par⟩, rfl, ⟨hexpected, hackseq, hfree⟩,
    rfl, rfl, hcnt, rfl, rfl, herr, rfl, rfl, hreplies⟩

/-! ## Reset in the block's surroundings (R261, R262) -/

/-- A list of moves is made one after another. -/
theorem World.run_cons {w w' : World} {m : Move} (h : w.move m = some w') (ms : List Move) :
    World.run (m :: ms) w = World.run ms w' := by
  simp only [World.run, h]

theorem World.move_reset (w : World) (timer channels application : Bool) : w.move (.reset timer channels application) =
    some { w.resetCollaborators timer channels application with block := w.block.hardReset } := rfl

/-- A running timer can expire; the A_TIMEOUT it hands over waits in the host (R227). -/
theorem World.move_expire {w : World} (h : w.timer.isSome = true) :
    w.move .expire = some (World.handHost { w with timer := none } (.command (encode .aTimeout))) := by
  obtain ⟨n, hn⟩ := Option.isSome_iff_exists.1 h
  simp only [World.move, hn]

/-- Issuing the last stimulus of the queue takes the block where that stimulus does. -/
theorem World.move_issue_last {w : World} {q : List Stimulus} {x : Stimulus} {t : State} (hq : w.block.pending = q ++ [x])
    (h : step ((w.block.taken q).offer x) = .next t) : ∃ w', w.move (.issue q.length) = some w' ∧ w'.block = t := by
  have hissue : w.move (.issue q.length) = w.issueNext x q := by
    simp [World.move, hq, List.eraseIdx_append_of_length_le]
  exact ⟨_, hissue.trans (World.issueNext_eq h), absorb_foldl_block ..⟩

/-- A_TIMEOUT on the command port with no timer start outstanding is answered ERR_TIMER_IDLE (R134). -/
theorem step_of_idle_aTimeout {s : State} {rest : List Stimulus} (hp : s.pending = .command (encode .aTimeout) :: rest)
    (hidle : s.tmrArmed = false) : step s = .next ((s.taken rest).raise .timerIdle none) :=
  (stepRunsTheDecodedCommand s _ rest .aTimeout hp (decode_encode rfl)).trans (exec_aTimeout_idle hidle)

/-- A timer that runs with no start outstanding in the block expires, and the block answers that expiry ERR_TIMER_IDLE (R231). -/
theorem World.run_idle_expiry {w : World} (h : w.timer.isSome = true) (hidle : w.block.tmrArmed = false) :
    ∃ w', World.run [.expire, .issue w.block.pending.length] w = some w' ∧ w'.block = w.block.raise .timerIdle none := by
  obtain ⟨w', hmove, hblock⟩ := World.move_issue_last
    (w := World.handHost { w with timer := none } (.command (encode .aTimeout))) rfl (step_of_idle_aTimeout rfl hidle)
  exact ⟨w', (World.run_cons (World.move_expire h) _).trans (World.run_cons hmove []), hblock⟩

/-- Settles O60: a reset writes the block and the collaborators reset with it; a timer not among them still expires. -/
theorem resetLeavesWhatTheHostDoesNotReset : Obligations.ResetLeavesWhatTheHostDoesNotReset := by
  refine ⟨fun w timer channels application => ⟨_, w.move_reset timer channels application, rfl, rfl,
    occupancy_eq_zero.2 (Receiver.reset_slot_valid w.block.par), rfl, rfl, rfl, rfl, rfl, rfl, rfl⟩, fun w h => ?_⟩
  obtain ⟨w', hrun, hblock⟩ := World.run_idle_expiry
    (w := { w.resetCollaborators false false false with block := w.block.hardReset }) h rfl
  exact ⟨w', _, (World.run_cons (w.move_reset false false false) _).trans hrun, congrArg State.replies hblock,
    Reply.statusField_mk .., congrArg (fun s => s.err.timer) hblock⟩

end Sys2Proof.Machine
